-- ==== Sys2Proof/Word.lean ====
section
/-! DEFINITION. The words of IFE-CORE: bytes, the write capacity of an operation, and the words in which a host
operation, a control command or a wire symbol is presented to the decoder (spec/30_encoding.md). -/

namespace Sys2Proof

/-- A byte, an unsigned value 0 to 255 (spec/00_scope.md R19). -/
abbrev Byte := BitVec 8

/-- The 16-bit checksum (spec/00_scope.md R11, spec/20_memory.md R62). -/
abbrev Half := BitVec 16

/-- Write capacity, "natural or `inf`" (spec/30_encoding.md R94). -/
inductive Cap where
  | fin (n : Nat)
  | inf
deriving DecidableEq, Repr

/-- A host operation as the host presents it: "a 4-bit selector plus operands" (spec/30_encoding.md R93, R94).
DESIGN CHOICE (log 3): the spec gives bits to the selector only, so the operands are a record; an operation reads the
ones its row of R93 lists and no other. -/
structure HostRequest where
  sel   : BitVec 4
  rx    : Option Byte := none
  cap   : Cap := .fin 0
  bytes : List Byte := []
deriving DecidableEq, Repr

/-- A word given to the decoder, tagged with its format, as spec/opcode_table.json tags its rows: the three encodings
overlap as bare bits and are told apart by where they stand (spec/30_encoding.md). -/
inductive Word where
  /-- HOST: a host operation (R93). -/
  | host (r : HostRequest)
  /-- CONTROL_REQUEST: the command code and the two payload bytes of a frame, offsets 9, 10 and 11 (R89, R91). -/
  | command (code p0 p1 : Byte)
  /-- WIRE: bytes on the link, first sent first (R80). -/
  | wire (bytes : List Byte)
deriving DecidableEq, Repr

end Sys2Proof
end

