-- ==== Sys2Proof/Config.lean ====
section
/-! DEFINITION. The configuration of an instance (spec/00_scope.md section 3, R6 to R14), as plain data, and the one
free value the model draws. Every value is OPEN in the spec or has a default there; a claim is over every
configuration (log 6). -/

namespace Sys2Proof

/-- Four bytes in the order the parameter lists them (spec/00_scope.md R9, spec/20_memory.md R63). -/
structure VersionTuple where
  v0 : Byte
  v1 : Byte
  v2 : Byte
  v3 : Byte
deriving DecidableEq, Repr

/-- The bytes of a tuple, in order. -/
abbrev VersionTuple.toList (v : VersionTuple) : List Byte := [v.v0, v.v1, v.v2, v.v3]

/-- One row of the step table of a checksum. -/
structure CkRow where
  state  : Half
  byte   : Byte
  result : Half
deriving DecidableEq, Repr

/-- The command codes (spec/00_scope.md R12). -/
structure CommandCodes where
  assignEid  : Byte
  getEid     : Byte
  getVersion : Byte
  getTypes   : Byte
deriving DecidableEq, Repr

/-- PRESUMED (log 17): the default codes of spec/00_scope.md R12, which the spec takes from general knowledge. -/
def CommandCodes.default : CommandCodes :=
  { assignEid := 0x01, getEid := 0x02, getVersion := 0x04, getTypes := 0x05 }

/-- The implementation parameters of an instance (spec/00_scope.md R6 to R13): "fixed for the life of an instance, read
by the rules, never written". -/
structure Config where
  /-- `BUF_CAP` (R6). -/
  bufCap : Nat
  /-- `EVENT_ENABLED` (R7). -/
  eventEnabled : Bool
  /-- `EVT_CAP` (R8). -/
  evtCap : Nat
  /-- `VER_CTRL` (R9). -/
  verCtrl : VersionTuple
  /-- `VER_BASE` (R9). -/
  verBase : VersionTuple
  /-- `ALT_VERSION` (R9). -/
  altVersion : Option VersionTuple
  /-- `SUPPORTED_TYPES`, of length `K` (R10). -/
  supportedTypes : List Byte
  /-- `CK_SEED` (R11). -/
  ckSeed : Half
  /-- `CK_STEP` (R11): the rows at which it differs from the illustrative step of spec/40_checksum.md R124. Every total
  function of R11 has such a table (log 7). -/
  ckTable : List CkRow
  /-- The four command codes (R12). -/
  codes : CommandCodes
  /-- `CC_UNSUPPORTED` (R13). -/
  ccUnsupported : Byte
deriving DecidableEq, Repr

/-- The test configuration TC of spec/92_eei_decisions.md D43 and spec/95_test_vectors.md section 1. DESIGN CHOICE
(log 6): the configuration of State.reset; no claim rests on it. -/
def Config.tc : Config :=
  { bufCap := 32, eventEnabled := true, evtCap := 32
    verCtrl := ⟨0xF1, 0xF3, 0xF1, 0x00⟩, verBase := ⟨0xF1, 0xF3, 0xF0, 0x00⟩, altVersion := none
    supportedTypes := [0x00], ckSeed := 0xFFFF, ckTable := []
    codes := CommandCodes.default, ccUnsupported := 0x05 }

/-- The free values: `freeByte n` is the n-th value drawn. DESIGN CHOICE (log 9): used where spec/43_control_commands.md
R182 stores `w - 3` in one byte and `w - 3` is above 255, for which the spec states no byte. It has no body, so nothing
constrains it. -/
opaque Config.freeByte : Nat → Byte

end Sys2Proof
end

