-- ==== Sys2Proof/Syntax.lean ====
section
/-! DEFINITION. The instructions of IFE-CORE: one constructor per row of spec/opcode_table.json, in the table's order. -/

namespace Sys2Proof

/-- Host operations (spec/30_encoding.md R93, R95), control commands (R89, R91) and wire symbols (R80). -/
inductive Instr where
  /-- `INIT`, selector 0x0. -/
  | init
  /-- `UPDATE rx cap`, selector 0x1. -/
  | update (rx : Option Byte) (cap : Cap)
  /-- `DRAIN cap`, selector 0x2. -/
  | drain (cap : Cap)
  /-- `PKTAVAIL`, selector 0x3. -/
  | pktavail
  /-- `ISCTRL`, selector 0x4. -/
  | isctrl
  /-- `ISALT`, selector 0x5. -/
  | isalt
  /-- `PROCESS cap`, selector 0x6. -/
  | process (cap : Cap)
  /-- `IGNORE`, selector 0x7. -/
  | ignore
  /-- `ENQ bytes`, selector 0x8. -/
  | enq (bytes : List Byte)
  /-- `EVQEMPTY`, selector 0x9. -/
  | evqempty
  /-- Assign Endpoint ID: the operation nibble `BUF[10][3:0]` and the requested address `BUF[11]` (R89). -/
  | cmdAssignEid (op : BitVec 4) (req : Byte)
  /-- Get Endpoint ID. -/
  | cmdGetEid
  /-- Get Version Support: the requested message type `BUF[10]` (R89). -/
  | cmdGetVersion (t : Byte)
  /-- Get Message Type Support. -/
  | cmdGetTypes
  /-- Any other command code (R91). -/
  | cmdUnsupported (code : Byte)
  /-- The sentinel 0x7E. -/
  | sof
  /-- `7D 5E`: the stuffed form of 0x7E. -/
  | esc7e
  /-- `7D 5D`: the stuffed form of 0x7D. -/
  | esc7d
  /-- Reserved selectors 0xA and 0xB: `101s`. -/
  | reservedHostAB (s : BitVec 1)
  /-- Reserved selectors 0xC to 0xF: `11ss`. -/
  | reservedHostCF (ss : BitVec 2)
deriving DecidableEq, Repr

/-- The row of spec/opcode_table.json an instruction belongs to. -/
def Instr.mnemonic : Instr → String
  | .init => "INIT"
  | .update _ _ => "UPDATE"
  | .drain _ => "DRAIN"
  | .pktavail => "PKTAVAIL"
  | .isctrl => "ISCTRL"
  | .isalt => "ISALT"
  | .process _ => "PROCESS"
  | .ignore => "IGNORE"
  | .enq _ => "ENQ"
  | .evqempty => "EVQEMPTY"
  | .cmdAssignEid _ _ => "CMD_ASSIGN_EID"
  | .cmdGetEid => "CMD_GET_EID"
  | .cmdGetVersion _ => "CMD_GET_VERSION"
  | .cmdGetTypes => "CMD_GET_TYPES"
  | .cmdUnsupported _ => "CMD_UNSUPPORTED"
  | .sof => "SOF"
  | .esc7e => "ESC_7E"
  | .esc7d => "ESC_7D"
  | .reservedHostAB _ => "RESERVED_HOST_A_B"
  | .reservedHostCF _ => "RESERVED_HOST_C_F"

/-- Why a presented word is no instruction. Only words of the WIRE format can be rejected: every selector and every
command code has a row of the table. The bytes of a rejected word are still received (log 2). -/
inductive DecodeReject where
  /-- No byte at all. -/
  | noBytes
  /-- A byte that is neither 0x7E nor 0x7D: data, sent as itself (spec/30_encoding.md R80), with no row of the table. -/
  | dataByte (b : Byte)
  /-- The escape byte with nothing after it. -/
  | escapeCutOff
  /-- `7D x` with x neither 0x5E nor 0x5D (spec/30_encoding.md R95). -/
  | invalidEscape (x : Byte)
  /-- Bytes left over after one symbol. -/
  | bytesLeftOver
deriving DecidableEq, Repr

end Sys2Proof
end

