-- ==== Sys2Proof/WellFormed.lean ====
section
/-! DEFINITION. Which instructions are well formed. The operands of every constructor have the width of their field, so
one check is left: the default command row stands for the codes that are none of the four (spec/30_encoding.md R91). -/

namespace Sys2Proof

/-- The code is one of the four commands of spec/00_scope.md R12. -/
def CommandCodes.names (codes : CommandCodes) (code : Byte) : Bool :=
  code == codes.assignEid || code == codes.getEid || code == codes.getVersion || code == codes.getTypes

/-- "The four values must be distinct" (spec/00_scope.md R12). -/
def CommandCodes.distinct (codes : CommandCodes) : Bool :=
  codes.assignEid != codes.getEid && codes.assignEid != codes.getVersion && codes.assignEid != codes.getTypes &&
    codes.getEid != codes.getVersion && codes.getEid != codes.getTypes && codes.getVersion != codes.getTypes

/-- Well-formedness under the command codes of an instance. -/
def Instr.wf (codes : CommandCodes) : Instr → Bool
  | .init => true
  | .update _ _ => true
  | .drain _ => true
  | .pktavail => true
  | .isctrl => true
  | .isalt => true
  | .process _ => true
  | .ignore => true
  | .enq _ => true
  | .evqempty => true
  | .cmdAssignEid _ _ => true
  | .cmdGetEid => true
  | .cmdGetVersion _ => true
  | .cmdGetTypes => true
  | .cmdUnsupported code => !codes.names code
  | .sof => true
  | .esc7e => true
  | .esc7d => true
  | .reservedHostAB _ => true
  | .reservedHostCF _ => true

end Sys2Proof
end

