-- ==== Sys2Proof/Decode.lean ====
section
/-! DEFINITION. Decoding the three encodings of spec/30_encoding.md, total on every word and rejecting by name; the
encoder after it; and the stuffed wire form of a frame (R80, R87). -/

namespace Sys2Proof

/-- A row of spec/opcode_table.json, read as the table gives it. -/
structure OpcodeRow where
  mnemonic : String
  bits     : Nat
  pattern  : Nat
  mask     : Nat
deriving DecidableEq, Repr

/-- The rows of format HOST (spec/30_encoding.md R93, R95). -/
def hostRows : List OpcodeRow :=
  [⟨"INIT", 4, 0x0, 0xF⟩, ⟨"UPDATE", 4, 0x1, 0xF⟩, ⟨"DRAIN", 4, 0x2, 0xF⟩, ⟨"PKTAVAIL", 4, 0x3, 0xF⟩,
   ⟨"ISCTRL", 4, 0x4, 0xF⟩, ⟨"ISALT", 4, 0x5, 0xF⟩, ⟨"PROCESS", 4, 0x6, 0xF⟩, ⟨"IGNORE", 4, 0x7, 0xF⟩,
   ⟨"ENQ", 4, 0x8, 0xF⟩, ⟨"EVQEMPTY", 4, 0x9, 0xF⟩, ⟨"RESERVED_HOST_A_B", 4, 0xA, 0xE⟩,
   ⟨"RESERVED_HOST_C_F", 4, 0xC, 0xC⟩]

/-- The rows of format CONTROL_REQUEST with the default codes, but for CMD_UNSUPPORTED, which is "matched last". -/
def commandRows : List OpcodeRow :=
  [⟨"CMD_ASSIGN_EID", 8, 0x01, 0xFF⟩, ⟨"CMD_GET_EID", 8, 0x02, 0xFF⟩, ⟨"CMD_GET_VERSION", 8, 0x04, 0xFF⟩,
   ⟨"CMD_GET_TYPES", 8, 0x05, 0xFF⟩]

/-- A word has a row's pattern under the row's mask. -/
def OpcodeRow.covers (r : OpcodeRow) (w : Nat) : Bool := w &&& r.mask == r.pattern

/-! ### Host operations -/

/-- The operation a selector names, with the operands its row of spec/30_encoding.md R93 lists. Selectors 0xA to 0xF
are the reserved rows (R95). -/
def decodeHost (r : HostRequest) : Instr :=
  match r.sel.toNat with
  | 0x0 => .init
  | 0x1 => .update r.rx r.cap
  | 0x2 => .drain r.cap
  | 0x3 => .pktavail
  | 0x4 => .isctrl
  | 0x5 => .isalt
  | 0x6 => .process r.cap
  | 0x7 => .ignore
  | 0x8 => .enq r.bytes
  | 0x9 => .evqempty
  | 0xA => .reservedHostAB 0
  | 0xB => .reservedHostAB 1
  | _ => .reservedHostCF (r.sel.extractLsb' 0 2)

/-! ### Control commands -/

/-- The command of a request from the bytes at offsets 9, 10 and 11 (spec/30_encoding.md R89, R91). The codes are
parameters of the instance; the high nibble of offset 10 is ignored for Assign Endpoint ID. -/
def decodeCommand (codes : CommandCodes) (code p0 p1 : Byte) : Instr :=
  if code = codes.assignEid then .cmdAssignEid (p0.extractLsb' 0 4) p1
  else if code = codes.getEid then .cmdGetEid
  else if code = codes.getVersion then .cmdGetVersion p0
  else if code = codes.getTypes then .cmdGetTypes
  else .cmdUnsupported code

/-! ### Wire symbols -/

/-- The symbol at the front of the bytes on the link, with the bytes after it (spec/30_encoding.md R80). -/
def decodeWire : List Byte → Except DecodeReject (Instr × List Byte)
  | [] => .error .noBytes
  | b :: rest =>
    if b = 0x7E then .ok (.sof, rest)
    else if b = 0x7D then
      match rest with
      | [] => .error .escapeCutOff
      | x :: rest' =>
        if x = 0x5E then .ok (.esc7e, rest')
        else if x = 0x5D then .ok (.esc7d, rest')
        else .error (.invalidEscape x)
    else .error (.dataByte b)

/-- The instruction a presented word is, or why it is none. -/
def decode (codes : CommandCodes) : Word → Except DecodeReject Instr
  | .host r => .ok (decodeHost r)
  | .command code p0 p1 => .ok (decodeCommand codes code p0 p1)
  | .wire bytes =>
    match decodeWire bytes with
    | .ok (i, []) => .ok i
    | .ok (_, _ :: _) => .error .bytesLeftOver
    | .error e => .error e

/-- The bytes a presented word puts on the link. The words of the other two formats are never rejected and carry none. -/
def linkBytes : Word → List Byte
  | .host _ => []
  | .command _ _ _ => []
  | .wire bytes => bytes

/-! ### The encoder -/

/-- The word of an instruction, from the encoding tables of spec/30_encoding.md (R80, R89, R93, R95). -/
def encode (codes : CommandCodes) : Instr → Word
  | .init => .host { sel := 0x0 }
  | .update rx cap => .host { sel := 0x1, rx := rx, cap := cap }
  | .drain cap => .host { sel := 0x2, cap := cap }
  | .pktavail => .host { sel := 0x3 }
  | .isctrl => .host { sel := 0x4 }
  | .isalt => .host { sel := 0x5 }
  | .process cap => .host { sel := 0x6, cap := cap }
  | .ignore => .host { sel := 0x7 }
  | .enq bytes => .host { sel := 0x8, bytes := bytes }
  | .evqempty => .host { sel := 0x9 }
  | .cmdAssignEid op req => .command codes.assignEid (op.setWidth 8) req
  | .cmdGetEid => .command codes.getEid 0 0
  | .cmdGetVersion t => .command codes.getVersion t 0
  | .cmdGetTypes => .command codes.getTypes 0 0
  | .cmdUnsupported code => .command code 0 0
  | .sof => .wire [0x7E]
  | .esc7e => .wire [0x7D, 0x5E]
  | .esc7d => .wire [0x7D, 0x5D]
  | .reservedHostAB s => .host { sel := 0b101#3 ++ s }
  | .reservedHostCF ss => .host { sel := 0b11#2 ++ ss }

/-- A body byte as it is sent: 0x7E and 0x7D as two bytes, every other byte as itself (spec/30_encoding.md R80). -/
def stuff (b : Byte) : List Byte :=
  if b = 0x7E ∨ b = 0x7D then [0x7D, b - 0x20] else [b]

/-- The wire form of a logical frame: the body, offsets 3 to L + 2 with L the byte at offset 2, is stuffed; header and
trailer are sent raw (spec/30_encoding.md R80, R81, R87). -/
def wireForm (frame : List Byte) : List Byte :=
  let l := (frame.getD 2 0).toNat
  frame.take 3 ++ ((frame.drop 3).take l).flatMap stuff ++ frame.drop (3 + l)

/-! ### Words numbered as the opcode table numbers them -/

/-- The presented word whose bits the table numbers as `w`. DESIGN CHOICE (log 4): the formats overlap as bare bits, so
a word of at most 8 bits is a HOST selector when its high nibble is 0, else the sentinel when it is 0x7E, else a command
code. DEDUCED (log 5): a 16-bit word is a WIRE pair, whose high byte the table writes first and the link carries first.
DESIGN CHOICE (log 21): a longer word is a command with its bytes from the low one up, the code of offset 9 in bits 7..0,
then the payload bytes at offsets 10 and 11; the spec gives a command row 8 bits and no order beyond them.
Operands the table gives no bits are zeros: no byte, capacity 0, and the shortest sequence of zero bytes that has the form of a frame (log 3). -/
def tableWord (nbits w : Nat) : Word :=
  if nbits ≤ 4 then .host { sel := BitVec.ofNat 4 w, bytes := List.replicate 6 0x00 }
  else if nbits ≤ 8 then
    if w < 0x10 then .host { sel := BitVec.ofNat 4 w, bytes := List.replicate 6 0x00 }
    else if w = 0x7E then .wire [0x7E]
    else .command (BitVec.ofNat 8 w) 0 0
  else if nbits ≤ 16 then .wire [BitVec.ofNat 8 (w / 0x100), BitVec.ofNat 8 w]
  else .command (BitVec.ofNat 8 w) (BitVec.ofNat 8 (w / 0x100)) (BitVec.ofNat 8 (w / 0x10000))

/-- The instruction the decoder reads from a table word, with the default command codes the table gives. -/
def decodeTableWord (nbits w : Nat) : Option Instr :=
  match decode CommandCodes.default (tableWord nbits w) with
  | .ok i => some i
  | .error _ => none

end Sys2Proof
end

