-- ==== Sys2Proof/Machine/State.lean ====
section
/-! DEFINITION. The state of one IFE-CORE instance (spec/10_state.md R20 to R32), its faults and refusals
(spec/60_exceptions.md R276, R277), and the state after reset (R38, spec/70_reset_and_hazards.md R295). -/

namespace Sys2Proof.Machine

/-- `FS`, the framer state (spec/10_state.md R21). Encodings 10 to 15 "are never held": they are not representable. -/
inductive FramerState where
  | waitSync
  | hdr1
  | hdr2
  | body
  | fcs1
  | fcs2
  | fend
  | escape
  | awaitingResponse
  | sendingResponse
deriving DecidableEq, Repr

/-- `ACT`, the active-slot selector (spec/10_state.md R27). -/
inductive ActiveSlot where
  | none
  | primary
  | event
deriving DecidableEq, Repr

/-- A slot register set (spec/10_state.md R28). -/
structure Slot where
  len  : BitVec 9
  idx  : BitVec 9
  escp : Bool
  pend : Byte
deriving DecidableEq, Repr

/-- The idle, zeroed slot (spec/10_state.md R38). -/
def Slot.zero : Slot := { len := 0, idx := 0, escp := false, pend := 0x00 }

/-- Faults (spec/60_exceptions.md R276), model outcomes for "an admitted operation the rules give no meaning to". -/
inductive Fault where
  /-- Raised by `ENQ` when the frame's byte 2 disagrees with its length (spec/44_transmitter.md R221). Safe: the machine
  stops where the source defines no case. -/
  | malformedEvent
  /-- Raised by any read or write of `BUF` or `EBUF` outside it (spec/20_memory.md R60). Safe; unreachable under an
  admitted configuration. -/
  | bufferBounds
deriving DecidableEq, Repr

/-- Refusals (spec/60_exceptions.md R277) and the model's own `notModelled`. All are safe: no state changes. -/
inductive Refusal where
  /-- Raised by an arm of exec that gives its instruction no meaning yet. Safe. -/
  | notModelled (mnemonic : String)
  /-- Raised by every operation under a configuration that breaks spec/00_scope.md R14. Safe. -/
  | badConfig
  /-- Raised by every operation after a fault (R276). Safe. -/
  | faulted
  /-- Raised by host selectors 0xA to 0xF (spec/30_encoding.md R95). Safe. -/
  | reserved
  /-- Raised by every operation but `INIT` before the first `INIT` (spec/10_state.md R39). Safe. -/
  | notInitialised
deriving DecidableEq, Repr

/-- The result an operation returns to the host (spec/30_encoding.md R93). -/
inductive Result where
  | bool (b : Bool)
  | nat (n : Nat)
deriving DecidableEq, Repr

/-- The bytes of a storage space: cells (offset, byte), offsets strictly rising, none holding the byte an unlisted
offset reads as. -/
abbrev Memory := List Host.Cell

/-- Everything the spec gives one instance (spec/10_state.md R20, R32, R33), and the model's own `pending` and
`freeCount` (log 1, log 10). -/
structure State where
  /-- The configuration record, written by no operation (spec/10_state.md R33). -/
  cfg : Config
  /-- `FS` (R21). -/
  fs : FramerState
  /-- `RX_IDX` (R22). -/
  rxIdx : Nat
  /-- `RX_CNT` (R23). -/
  rxCnt : BitVec 8
  /-- `BUF` (R24). -/
  buf : Memory
  /-- `EID` (R25). -/
  eid : Byte
  /-- `EID_UPD` (R26). -/
  eidUpd : Bool
  /-- `EID_NEXT` (R26). -/
  eidNext : Byte
  /-- `ACT` (R27). -/
  act : ActiveSlot
  /-- `PS` (R28). -/
  ps : Slot
  /-- `ES` (R29). -/
  es : Slot
  /-- `EVT_PEND` (R30). -/
  evtPend : Bool
  /-- `EBUF` (R31). -/
  ebuf : Memory
  /-- `INIT_DONE` (R32). -/
  initDone : Bool
  /-- `FAULTED` with its reason (R32). -/
  faulted : Option Fault
  /-- `REFUSED` with its reason (R32). -/
  refused : Option Refusal
  /-- `TXOUT`, every byte emitted, in order (R32, spec/45_host_interface.md R240). -/
  txout : List Byte
  /-- How many `TransportInit` events were produced (spec/45_host_interface.md R240, R241). -/
  transportInits : Nat
  /-- The results of the operations that return one, in order (spec/70_reset_and_hazards.md R305). -/
  results : List Result
  /-- The words the environment has yet to present, oldest first (log 1). -/
  pending : List Word
  /-- How many free values were drawn (log 10). -/
  freeCount : Nat
deriving DecidableEq, Repr

/-- The clean-entry state `S0(cfg)` with buffer contents `INIT_BUF`, `INIT_EBUF` (spec/10_state.md R38,
spec/70_reset_and_hazards.md R295). DEDUCED (log 18): it is the state one `INIT` leaves, so `INIT_DONE` holds and one
`TransportInit` was produced. -/
def State.s0 (cfg : Config) (initBuf initEbuf : Memory) : State :=
  { cfg := cfg, fs := .waitSync, rxIdx := 0, rxCnt := 0, buf := initBuf
    eid := 0x00, eidUpd := false, eidNext := 0x00
    act := .none, ps := Slot.zero, es := Slot.zero, evtPend := false, ebuf := initEbuf
    initDone := true, faulted := none, refused := none, txout := [], transportInits := 1
    results := [], pending := [], freeCount := 0 }

/-- An instance that has been built and not initialised: "every register value is unspecified" (spec/10_state.md R39).
DESIGN CHOICE (log 13): the values named here; no operation but `INIT` runs, and `INIT` overwrites them. -/
def State.powerOn (cfg : Config) (initBuf initEbuf : Memory) : State :=
  { State.s0 cfg initBuf initEbuf with initDone := false, transportInits := 0 }

/-- The machine right after reset: `S0(TC)` (log 6, log 18) with nothing listed in the buffers (log 8). -/
def State.reset : State := State.s0 Config.tc [] []

end Sys2Proof.Machine
end

