-- ==== Sys2Proof/Machine/Operands.lean ====
section
/-! DEFINITION. The operand forms of spec/30_encoding.md R94, R96: nibbles, zero extension, the two checksum bytes, the
slot length, the write capacity, and the escape window (R87). -/

namespace Sys2Proof.Machine

/-- `b[3:0]` (R96). -/
def lowNibble (b : Byte) : BitVec 4 := b.extractLsb' 0 4

/-- `zext_9(b)` (R96). -/
def zext9 (b : Byte) : BitVec 9 := b.setWidth 9

/-- The slot length `zext_9(B[2]) + 6` (R96, spec/44_transmitter.md R212, R213). -/
def slotLength (bodyLength : Byte) : BitVec 9 := zext9 bodyLength + 6

/-- `{hi, lo}` (spec/00_scope.md R19, spec/20_memory.md R62). -/
def half (hi lo : Byte) : Half := hi ++ lo

/-- `c[15:8]`, ChecksumHi (spec/40_checksum.md R123). -/
def hiByte (c : Half) : Byte := c.extractLsb' 8 8

/-- `c[7:0]`, ChecksumLo (spec/40_checksum.md R123). -/
def loByte (c : Half) : Byte := c.extractLsb' 0 8

/-- `CanWrite()` with `room` left (spec/45_host_interface.md R240). -/
def canWrite : Cap → Bool
  | .fin n => n != 0
  | .inf => true

/-- `room - 1`, with `inf - 1 = inf` (spec/45_host_interface.md R240). -/
def roomAfterEmit : Cap → Cap
  | .fin n => .fin (n - 1)
  | .inf => .inf

/-- Logical index `i` is in the stuffed window of a frame of body length `l` (R87). -/
def inWindow (i : Nat) (l : Byte) : Bool := 3 ≤ i && i < l.toNat + 3

/-- The bytes that are stuffed in the body (R80). -/
def isSpecial (b : Byte) : Bool := b == 0x7E || b == 0x7D

/-- The second byte of an escape sequence (R80). -/
def escapeCode (b : Byte) : Byte := b - 0x20

/-- The logical bytes of a slot still to send: the loop of spec/44_transmitter.md R210 tests `IDX >= LEN`, which is
`remaining = 0`. -/
def remaining (slot : Slot) : Nat := slot.len.toNat - slot.idx.toNat

end Sys2Proof.Machine
end

