-- ==== Sys2Proof/Machine/Flags.lean ====
section
/-! DEFINITION. The bit fields of the header bytes (spec/30_encoding.md R84 to R86, R92) and what a response makes of
them (spec/43_control_commands.md R182). The block has no condition codes (spec/10_state.md R36). -/

namespace Sys2Proof.Machine

/-- Flags of the response: "toggle tag owner (bit 3); set SOM, EOM (bits 7, 6)" (R182). -/
def responseFlags (flags : Byte) : Byte := (flags ^^^ 0x08) ||| 0xC0

/-- InstanceID of the response: "clear request bit (InstanceID bit 7)" (R182). -/
def responseInstanceId (iid : Byte) : Byte := iid &&& 0x7F

/-- The low nibble of MessageType names a control message (R86). -/
def isControlType (messageType : Byte) : Bool := lowNibble messageType == 0x0

/-- The low nibble of MessageType names the alternate payload type (R86). -/
def isAlternateType (messageType : Byte) : Bool := lowNibble messageType == 0x1

/-- The Assign Endpoint ID requests answered invalid-data (R92, spec/43_control_commands.md R183). -/
def assignRejected (op : BitVec 4) (req : Byte) : Bool :=
  op == 0x2 || op == 0x3 || req == 0x00 || req == 0xFF

end Sys2Proof.Machine
end

