-- ==== Sys2Proof/Machine/Ops.lean ====
section
/-! DEFINITION. The named operations every meaning is written over: the two storage spaces (spec/20_memory.md R60), the
admission of a configuration (spec/00_scope.md R14), the dispatch guard of a host operation and the recording of faults
and refusals (spec/45_host_interface.md R247, spec/60_exceptions.md R276, R277), and the fetch of a presented word.
The block takes no exception and returns from none (spec/60_exceptions.md R270, R280, R281). -/

namespace Sys2Proof.Machine

/-! ### Storage -/

/-- What an offset no cell lists reads as. DESIGN CHOICE (log 8): the spec leaves the first contents of a buffer open,
and a claim is over every contents. -/
def unlistedByte : Byte := 0x00

/-- The byte at an offset. -/
def Memory.read : Memory → Nat → Byte
  | [], _ => unlistedByte
  | (a, v) :: rest, i => if a = i then v else Memory.read rest i

/-- `m` with the byte `v` at offset `i`, in canonical form. -/
def Memory.write : Memory → Nat → Byte → Memory
  | [], i, v => if v = unlistedByte then [] else [(i, v)]
  | (a, u) :: rest, i, v =>
    if a < i then (a, u) :: Memory.write rest i v
    else
      let tail := if a = i then rest else (a, u) :: rest
      if v = unlistedByte then tail else (i, v) :: tail

/-- Offsets are strictly above `low` and rise, and no cell holds the unlisted byte. -/
def Memory.wfAbove : Nat → Memory → Bool
  | _, [] => true
  | low, (a, v) :: rest => decide (low ≤ a) && v != unlistedByte && Memory.wfAbove (a + 1) rest

/-- The canonical form: equal memories are equal lists. -/
def Memory.wf (m : Memory) : Bool := Memory.wfAbove 0 m

/-- Every cell lies inside a space of `size` bytes. -/
def Memory.within (size : Nat) (m : Memory) : Bool := m.all fun c => c.1 < size

/-- `MemRead(S, i, 1)` on a space of `size` bytes (R60). -/
def memRead (size : Nat) (m : Memory) (i : Nat) : Except Fault Byte :=
  if i < size then .ok (m.read i) else .error .bufferBounds

/-- `MemWrite(S, i, 1, v)` on a space of `size` bytes (R60). -/
def memWrite (size : Nat) (m : Memory) (i : Nat) (v : Byte) : Except Fault Memory :=
  if i < size then .ok (m.write i v) else .error .bufferBounds

/-- `BUF[i]`. -/
def readBuf (s : State) (i : Nat) : Except Fault Byte := memRead s.cfg.bufCap s.buf i

/-- `EBUF[i]`. -/
def readEbuf (s : State) (i : Nat) : Except Fault Byte := memRead s.cfg.evtCap s.ebuf i

/-- `BUF[i] <- v`. -/
def writeBuf (i : Nat) (v : Byte) (s : State) : Except Fault State :=
  match memWrite s.cfg.bufCap s.buf i v with
  | .ok m => .ok { s with buf := m }
  | .error f => .error f

/-- `EBUF[i] <- v`. -/
def writeEbuf (i : Nat) (v : Byte) (s : State) : Except Fault State :=
  match memWrite s.cfg.evtCap s.ebuf i v with
  | .ok m => .ok { s with ebuf := m }
  | .error f => .error f

/-- `BUF[i], BUF[i+1], ...`: the `n` bytes from offset `i`, in order. -/
def readBufRange (s : State) : Nat → Nat → Except Fault (List Byte)
  | _, 0 => .ok []
  | i, n + 1 => do
    let b ← readBuf s i
    let bs ← readBufRange s (i + 1) n
    .ok (b :: bs)

/-- Writes bytes to `BUF` from offset `i` upward, in order. -/
def writeBufRange : Nat → List Byte → State → Except Fault State
  | _, [], s => .ok s
  | i, b :: bs, s => do
    let s ← writeBuf i b s
    writeBufRange (i + 1) bs s

/-- Writes bytes to `EBUF` from offset `i` upward, in order. -/
def writeEbufRange : Nat → List Byte → State → Except Fault State
  | _, [], s => .ok s
  | i, b :: bs, s => do
    let s ← writeEbuf i b s
    writeEbufRange (i + 1) bs s

/-! ### Configuration -/

/-- The configurations a model admits (spec/00_scope.md R14). -/
def configAdmitted (c : Config) : Bool :=
  decide (19 ≤ c.bufCap) && decide (15 + c.supportedTypes.length ≤ c.bufCap) &&
    (!c.eventEnabled || decide (6 ≤ c.evtCap)) && c.codes.distinct && decide (c.supportedTypes.length ≤ 255)

/-! ### The guard of an operation, and what a stop records -/

/-- The refusals common to every operation, in the order of spec/45_host_interface.md R247. -/
def refusalBeforeSelector (s : State) : Option Refusal :=
  if configAdmitted s.cfg = false then some .badConfig
  else if s.faulted.isSome then some .faulted
  else none

/-- The refusal of an operation other than `INIT`, if any (R247). -/
def refusalOfOperation (s : State) : Option Refusal :=
  match refusalBeforeSelector s with
  | some r => some r
  | none => if s.initDone then none else some .notInitialised

/-- The outcome of an operation the guard admits: its new state, or its fault with no state (spec/60_exceptions.md
R276: "the writes of the faulting operation before the fault are not made"). -/
def completed : Except Fault State → Host.Outcome State Fault Refusal
  | .ok t => .next t
  | .error f => .fault f

/-- Runs an operation other than `INIT` under the guard of R247. -/
def execute (s : State) (effect : Except Fault State) : Host.Outcome State Fault Refusal :=
  match refusalOfOperation s with
  | some r => .refused r
  | none => completed effect

/-- Runs `INIT` under the guard of R247: it is the one operation allowed while `INIT_DONE = false`. -/
def executeInit (s : State) (effect : Except Fault State) : Host.Outcome State Fault Refusal :=
  match refusalBeforeSelector s with
  | some r => .refused r
  | none => completed effect

/-- A reserved selector: refused, after the two refusals that come before it (R247). -/
def executeReserved (s : State) : Host.Outcome State Fault Refusal :=
  match refusalBeforeSelector s with
  | some r => .refused r
  | none => .refused .reserved

/-- The state after an operation on `s` answered `o`: `raise Fault(reason)` sets `FAULTED`, `refuse(reason)` sets
`REFUSED`, each with "no further state change" (spec/60_exceptions.md R276, R277; log 11). -/
def settle (s : State) : Host.Outcome State Fault Refusal → State
  | .next t => t
  | .fault f => { s with faulted := some f }
  | .refused r => { s with refused := some r }

/-- Appends the result an operation returns (spec/70_reset_and_hazards.md R305). -/
def returning (r : Result) (s : State) : State := { s with results := s.results ++ [r] }

/-! ### The fetch -/

/-- The oldest presented word and the state with it taken, or none when the host invokes nothing (log 1). -/
def fetch (s : State) : Option (Word × State) :=
  match s.pending with
  | [] => none
  | w :: rest => some (w, { s with pending := rest })

/-- Presents one more word, to be fetched next. -/
def present (w : Word) (s : State) : State := { s with pending := w :: s.pending }

end Sys2Proof.Machine
end

