-- ==== Sys2Proof/Machine/Checksum.lean ====
section
/-! DEFINITION. The checksum engine (spec/40_checksum.md R120 to R124). -/

namespace Sys2Proof.Machine

/-- One bit of the illustrative step (R124). -/
def fcsBit (x : Half) : Half := if x.getLsbD 0 then (x >>> 1) ^^^ 0x8408 else x >>> 1

/-- The illustrative step: the reflected CRC-16 step with polynomial 0x8408 (R124). -/
def fcsStep (s : Half) (b : Byte) : Half :=
  let x := (s ^^^ b.setWidth 16) &&& 0x00FF
  (s >>> 8) ^^^ fcsBit (fcsBit (fcsBit (fcsBit (fcsBit (fcsBit (fcsBit (fcsBit x)))))))

/-- `CK_STEP` of a configuration (spec/00_scope.md R11): the row of its table for the state and the byte, else the
illustrative step (log 7). -/
def ckStep (table : List CkRow) (s : Half) (b : Byte) : Half :=
  match table with
  | [] => fcsStep s b
  | r :: rest => if r.state = s ∧ r.byte = b then r.result else ckStep rest s b

/-- `CK(seed, bytes)` (R120). -/
def ck (cfg : Config) (seed : Half) (bytes : List Byte) : Half := bytes.foldl (ckStep cfg.ckTable) seed

/-- The checksum of the first `n` bytes after SOF, `CK(CK_SEED, BUF[1..n+1))` (R122). -/
def bufChecksum (s : State) (n : Nat) : Except Fault Half := do
  let bytes ← readBufRange s 1 n
  .ok (ck s.cfg s.cfg.ckSeed bytes)

end Sys2Proof.Machine
end

