-- ==== Sys2Proof/Machine/Transmitter.lean ====
section
/-! DEFINITION. The transmitter, its slot arbitration and the event slot (spec/44_transmitter.md R210 to R222). -/

namespace Sys2Proof.Machine

/-! ### Selecting a slot -/

/-- A slot activated on a buffer whose byte 2 is `bodyLength` (R212, R213). -/
def Slot.activated (bodyLength : Byte) : Slot :=
  { len := slotLength bodyLength, idx := 0, escp := false, pend := 0x00 }

/-- `ActivatePrimary()` (R212). -/
def activatePrimary (s : State) : Except Fault State := do
  let l ← readBuf s 2
  .ok { s with act := .primary, ps := Slot.activated l }

/-- `ActivateEvent()` (R213). -/
def activateEvent (s : State) : Except Fault State := do
  let l ← readEbuf s 2
  .ok { s with act := .event, es := Slot.activated l }

/-- `SelectSlot()` (R211), run only when `ACT = NONE`; when there is nothing to send `ACT` stays `NONE`. -/
def selectSlot (s : State) : Except Fault State :=
  if s.cfg.eventEnabled && s.evtPend then activateEvent s
  else if s.fs = .sendingResponse then activatePrimary s
  else .ok s

/-! ### Sending bytes -/

/-- What the loop of R210 leaves: the slot's registers, the bytes emitted, and whether the frame is complete. -/
structure Sent where
  slot  : Slot
  bytes : List Byte
  done  : Bool
deriving DecidableEq, Repr

/-- The bytes `bs` emitted before the rest of the loop. -/
def Sent.after (bs : List Byte) (r : Sent) : Sent := { r with bytes := bs ++ r.bytes }

/-- The slot past the byte at `IDX`. -/
def Slot.advance (slot : Slot) : Slot := { slot with idx := slot.idx + 1 }

/-- The slot past an escape continuation: the flag clears, `PEND` keeps its value (R214). -/
def Slot.continued (slot : Slot) : Slot := { slot with escp := false, idx := slot.idx + 1 }

/-- The slot that stopped inside an escape sequence for the byte `b` (R216). -/
def Slot.cutOff (slot : Slot) (b : Byte) : Slot := { slot with escp := true, pend := escapeCode b }

/-- The byte at index `i` is sent as an escape sequence (R215, R216). -/
def isStuffed (i : Nat) (l b : Byte) : Bool := inWindow i l && isSpecial b

/-- The loop of R210 on a slot whose buffer `rd` reads. The first argument is `remaining`, the logical bytes still to
send; it is 0 exactly when `IDX >= LEN`, the completion test, which comes before the capacity test. -/
def sendLoop (rd : Nat → Except Fault Byte) : Nat → Slot → Cap → Except Fault Sent
  | 0, slot, _ => .ok ⟨slot, [], true⟩
  | n + 1, slot, room =>
    if canWrite room = false then .ok ⟨slot, [], false⟩
    else if slot.escp then do
      let r ← sendLoop rd n slot.continued (roomAfterEmit room)
      .ok (r.after [slot.pend])
    else do
      let b ← rd slot.idx.toNat
      let l ← rd 2
      if isStuffed slot.idx.toNat l b then
        let room := roomAfterEmit room
        if canWrite room = false then .ok ⟨slot.cutOff b, [0x7D], false⟩
        else do
          let r ← sendLoop rd n slot.advance (roomAfterEmit room)
          .ok (r.after [0x7D, escapeCode b])
      else do
        let r ← sendLoop rd n slot.advance (roomAfterEmit room)
        .ok (r.after [b])

/-! ### Completion -/

/-- The deferred Assign Endpoint ID commit (R218). -/
def commitEid (s : State) : State :=
  if s.eidUpd then { s with eid := s.eidNext, eidUpd := false, eidNext := 0x00 } else s

/-- `CompletePrimary()` (R218). -/
def completePrimary (s : State) : State :=
  commitEid { s with ps := Slot.zero, act := .none, fs := .waitSync }

/-- `CompleteEvent()` (R219). -/
def completeEvent (s : State) : State :=
  { s with es := Slot.zero, act := .none, evtPend := false }

/-! ### The drain step -/

/-- The primary slot sends from `BUF`. -/
def drainPrimary (cap : Cap) (s : State) : Except Fault (State × Nat) := do
  let r ← sendLoop (readBuf s) (remaining s.ps) s.ps cap
  let t := { s with ps := r.slot, txout := s.txout ++ r.bytes }
  .ok (if r.done then completePrimary t else t, r.bytes.length)

/-- The event slot sends from `EBUF`. -/
def drainEvent (cap : Cap) (s : State) : Except Fault (State × Nat) := do
  let r ← sendLoop (readEbuf s) (remaining s.es) s.es cap
  let t := { s with es := r.slot, txout := s.txout ++ r.bytes }
  .ok (if r.done then completeEvent t else t, r.bytes.length)

/-- The active slot sends; with no active slot there is nothing to send. -/
def drainActive (cap : Cap) (s : State) : Except Fault (State × Nat) :=
  match s.act with
  | .none => .ok (s, 0)
  | .primary => drainPrimary cap s
  | .event => drainEvent cap s

/-- `DrainStep(cap)` (R210): the state after it and the bytes sent (R220). -/
def drainStep (cap : Cap) (s : State) : Except Fault (State × Nat) :=
  if s.act = .none then do
    let s ← selectSlot s
    drainActive cap s
  else drainActive cap s

/-- The drain step of an operation that discards its count. -/
def drainDiscarding (cap : Cap) (s : State) : Except Fault State := do
  let r ← drainStep cap s
  .ok r.1

/-- `DRAIN cap` (R210): the drain step, returning its count. -/
def drainReturning (cap : Cap) (s : State) : Except Fault State := do
  let r ← drainStep cap s
  .ok (returning (.nat r.2) r.1)

/-! ### The event slot -/

/-- The frame's own length byte agrees with its length: not `n < 3 or zext_9(bytes[2]) + 6 != n` (R221). -/
def eventWellFormed (bytes : List Byte) : Bool :=
  decide (3 ≤ bytes.length) && decide ((slotLength (bytes.getD 2 0)).toNat = bytes.length)

/-- `ENQ(bytes, n)` (R221): feature, occupancy, capacity, form, in this order. -/
def enqueue (bytes : List Byte) (s : State) : Except Fault State :=
  if s.cfg.eventEnabled = false then .ok (returning (.bool false) s)
  else if s.evtPend then .ok (returning (.bool false) s)
  else if bytes.length > s.cfg.evtCap then .ok (returning (.bool false) s)
  else if eventWellFormed bytes = false then .error .malformedEvent
  else do
    let s ← writeEbufRange 0 bytes s
    .ok (returning (.bool true) { s with evtPend := true })

/-- `DRAIN`. -/
def execDrain (cap : Cap) (s : State) : Host.Outcome State Fault Refusal := execute s (drainReturning cap s)

/-- `ENQ`. -/
def execEnq (bytes : List Byte) (s : State) : Host.Outcome State Fault Refusal := execute s (enqueue bytes s)

/-- `EVQEMPTY` (R222). -/
def execEvqempty (s : State) : Host.Outcome State Fault Refusal :=
  execute s (.ok (returning (.bool (!s.evtPend)) s))

end Sys2Proof.Machine
end

