-- ==== Sys2Proof/Machine/Commands.lean ====
section
/-! DEFINITION. The control-command processor (spec/43_control_commands.md R180 to R187): the five handlers, the common
response construction, and `PROCESS`. -/

namespace Sys2Proof.Machine

/-! ### The common response construction -/

/-- The byte `BUF[2] <- w - 3` stores (R182). Above 255 the spec states no byte, and a free value is drawn (log 9). -/
def bodyLengthByte (w : Nat) (s : State) : Byte :=
  if w - 3 ≤ 255 then BitVec.ofNat 8 (w - 3) else Config.freeByte s.freeCount

/-- One free value was drawn when the body length did not fit a byte (log 10). -/
def drawnAfter (w : Nat) (s : State) : Nat := if w - 3 ≤ 255 then s.freeCount else s.freeCount + 1

/-- The header fields of the response: request bit, tag owner and message bits, swapped addresses, body length (R182). -/
def finishHeader (w : Nat) (s : State) : Except Fault State := do
  let iid ← readBuf s 8
  let s ← writeBuf 8 (responseInstanceId iid) s
  let flags ← readBuf s 6
  let s ← writeBuf 6 (responseFlags flags) s
  let d ← readBuf s 4
  let src ← readBuf s 5
  let s ← writeBuf 4 src s
  let s ← writeBuf 5 d s
  let s ← writeBuf 2 (bodyLengthByte w s) s
  .ok { s with freeCount := drawnAfter w s }

/-- The trailer of the response: checksum over `BUF[1..w)`, then the sentinel (R182). -/
def finishTrailer (w : Nat) (s : State) : Except Fault State := do
  let c ← bufChecksum s (w - 1)
  let s ← writeBuf w (hiByte c) s
  let s ← writeBuf (w + 1) (loByte c) s
  writeBuf (w + 2) 0x7E s

/-- `Finish(w)` (R182). -/
def finish (w : Nat) (s : State) : Except Fault State := do
  let s ← finishHeader w s
  finishTrailer w s

/-! ### The payloads (spec/30_encoding.md R90) -/

/-- Assign Endpoint ID (R183): the payload, by outcome. -/
def assignPayload (op : BitVec 4) (req : Byte) (s : State) : List Byte :=
  if assignRejected op req then [0x02] else [0x00, 0x00, s.eid, 0x00]

/-- Assign Endpoint ID (R183): an accepted request holds its address for the commit at completion. -/
def assignDeferred (op : BitVec 4) (req : Byte) (s : State) : State :=
  if assignRejected op req then s else { s with eidNext := req, eidUpd := true }

/-- Get Endpoint ID (R184). -/
def getEidPayload (s : State) : List Byte := [0x00, s.eid, 0x00]

/-- The tuple reported for a requested message type, `ALT_TYPE` being 0x01 (R185, spec/00_scope.md R9). -/
def versionOf (cfg : Config) (t : Byte) : Option VersionTuple :=
  if t = 0x00 then some cfg.verCtrl
  else if t = 0xFF then some cfg.verBase
  else if t = 0x01 then cfg.altVersion
  else none

/-- Get Version Support (R185). -/
def getVersionPayload (t : Byte) (s : State) : List Byte :=
  match versionOf s.cfg t with
  | some v => 0x00 :: 0x01 :: v.toList
  | none => [0x80, 0x00]

/-- Get Message Type Support (R186). -/
def getTypesPayload (s : State) : List Byte :=
  0x00 :: BitVec.ofNat 8 s.cfg.supportedTypes.length :: s.cfg.supportedTypes

/-- The default handler (R187). -/
def unsupportedPayload (s : State) : List Byte := [s.cfg.ccUnsupported]

/-! ### The handlers -/

/-- Writes a payload from the completion-code offset, finishes the response and leaves `SENDING_RESPONSE`
(R180, R182; spec/30_encoding.md R90: `w` is the offset after the last payload byte). -/
def respond (payload : List Byte) (s : State) : Except Fault State := do
  let s ← writeBufRange 10 payload s
  let s ← finish (10 + payload.length) s
  .ok { s with fs := .sendingResponse }

/-- Assign Endpoint ID (R183). -/
def assignEid (op : BitVec 4) (req : Byte) (s : State) : Except Fault State :=
  respond (assignPayload op req s) (assignDeferred op req s)

/-- Get Endpoint ID (R184). -/
def getEid (s : State) : Except Fault State := respond (getEidPayload s) s

/-- Get Version Support (R185). -/
def getVersion (t : Byte) (s : State) : Except Fault State := respond (getVersionPayload t s) s

/-- Get Message Type Support (R186). -/
def getTypes (s : State) : Except Fault State := respond (getTypesPayload s) s

/-- The default handler (R187). -/
def unsupported (s : State) : Except Fault State := respond (unsupportedPayload s) s

/-- "if not, every handler is a no-op (defensive guard)" (R180): outside `AWAITING_RESPONSE` nothing is written. -/
def whenAwaiting (s : State) (effect : Except Fault State) : Except Fault State :=
  if s.fs = .awaitingResponse then effect else .ok s

/-! ### PROCESS -/

/-- `Dispatch()` and the handler it selects (R181): the code at offset 9 alone selects, and a handler reads its own
request fields before it writes (R188). -/
def dispatchCommand (s : State) : Except Fault State := do
  let cc ← readBuf s 9
  if cc = s.cfg.codes.assignEid then do
    let p ← readBuf s 10
    let req ← readBuf s 11
    assignEid (lowNibble p) req s
  else if cc = s.cfg.codes.getEid then getEid s
  else if cc = s.cfg.codes.getVersion then do
    let t ← readBuf s 10
    getVersion t s
  else if cc = s.cfg.codes.getTypes then getTypes s
  else unsupported s

/-- `PROCESS(cap)` after its guard: build the response, then one drain step (R180). -/
def processAwaiting (cap : Cap) (s : State) : Except Fault State := do
  let s ← dispatchCommand s
  drainDiscarding cap s

/-- `PROCESS`. -/
def execProcess (cap : Cap) (s : State) : Host.Outcome State Fault Refusal :=
  execute s (whenAwaiting s (processAwaiting cap s))

/-! ### The command rows: a handler with its operands, and no drain (log 15) -/

/-- `CMD_ASSIGN_EID`. -/
def execCmdAssignEid (op : BitVec 4) (req : Byte) (s : State) : Host.Outcome State Fault Refusal :=
  execute s (whenAwaiting s (assignEid op req s))

/-- `CMD_GET_EID`. -/
def execCmdGetEid (s : State) : Host.Outcome State Fault Refusal :=
  execute s (whenAwaiting s (getEid s))

/-- `CMD_GET_VERSION`. -/
def execCmdGetVersion (t : Byte) (s : State) : Host.Outcome State Fault Refusal :=
  execute s (whenAwaiting s (getVersion t s))

/-- `CMD_GET_TYPES`. -/
def execCmdGetTypes (s : State) : Host.Outcome State Fault Refusal :=
  execute s (whenAwaiting s (getTypes s))

/-- `CMD_UNSUPPORTED`: the same answer for every code (R187). -/
def execCmdUnsupported (_code : Byte) (s : State) : Host.Outcome State Fault Refusal :=
  execute s (whenAwaiting s (unsupported s))

end Sys2Proof.Machine
end

