-- ==== Sys2Proof/Machine/Validator.lean ====
section
/-! DEFINITION. The frame validator and the admission filter (spec/42_frame_validator.md R160 to R164). -/

namespace Sys2Proof.Machine

/-- `Valid(N)` (R160): minimum size (R161), declared length (R162), checksum (R163). -/
def valid (n : Nat) (s : State) : Except Fault Bool :=
  if n < 11 then .ok false
  else do
    let l ← readBuf s 2
    if l.toNat ≠ n - 6 then .ok false
    else do
      let c ← bufChecksum s (n - 4)
      let hi ← readBuf s (n - 3)
      let lo ← readBuf s (n - 2)
      .ok (c == half hi lo)

/-- `Admit(d)` (R164). -/
def addressed (d : Byte) (s : State) : Bool := d == 0x00 || d == 0xFF || d == s.eid

end Sys2Proof.Machine
end

