-- ==== Sys2Proof/Machine/Framer.lean ====
section
/-! DEFINITION. The receive framer (spec/41_receive_framer.md R130 to R140) and the meanings of the wire symbols
(spec/30_encoding.md R80), each the receive step of its bytes (log 14). -/

namespace Sys2Proof.Machine

/-- `BUF[RX_IDX] <- b; RX_IDX <- RX_IDX + 1`. -/
def storeRx (b : Byte) (s : State) : Except Fault State := do
  let s ← writeBuf s.rxIdx b s
  .ok { s with rxIdx := s.rxIdx + 1 }

/-- `StartFrame()` (R131): only the write index is reset, and `RX_CNT` is not written. -/
def startFrame (s : State) : Except Fault State := do
  let s ← storeRx 0x7E { s with rxIdx := 0 }
  .ok { s with fs := .hdr1 }

/-- `RX_CNT <- RX_CNT - 1; if RX_CNT = 0 then FS <- FCS1 else FS <- BODY` (R135, R136). -/
def countBodyByte (s : State) : State :=
  let c := s.rxCnt - 1
  { s with rxCnt := c, fs := if c = 0 then .fcs1 else .body }

/-- Stores a decoded body byte (R135, R136). -/
def storeBodyByte (b : Byte) (s : State) : Except Fault State := do
  let s ← storeRx b s
  .ok (countBodyByte s)

/-- The `WAIT_SYNC` arm (R132). -/
def rxWaitSync (b : Byte) (s : State) : Except Fault State :=
  if b = 0x7E then startFrame s else .ok s

/-- The `HDR1` arm (R133). -/
def rxHdr1 (b : Byte) (s : State) : Except Fault State := do
  let s ← storeRx b s
  .ok { s with fs := .hdr2 }

/-- Where `HDR2` goes, `RX_IDX` counting the length byte (R134): oversized, empty body, or body. -/
def afterLength (b : Byte) (s : State) : FramerState :=
  if b.toNat + s.rxIdx + 5 > s.cfg.bufCap then .waitSync
  else if b = 0 then .fcs1
  else .body

/-- The `HDR2` arm (R134). -/
def rxHdr2 (b : Byte) (s : State) : Except Fault State := do
  let s ← storeRx b s
  .ok { s with rxCnt := b, fs := afterLength b s }

/-- The `BODY` arm (R135). -/
def rxBody (b : Byte) (s : State) : Except Fault State :=
  if b = 0x7D then .ok { s with fs := .escape }
  else if b = 0x7E then startFrame s
  else storeBodyByte b s

/-- The `ESCAPE` arm (R136). -/
def rxEscape (b : Byte) (s : State) : Except Fault State :=
  if b = 0x7E then startFrame s
  else if b = 0x5E ∨ b = 0x5D then storeBodyByte (b + 0x20) s
  else .ok { s with fs := .waitSync }

/-- The `FCS1` arm (R137). -/
def rxFcs1 (b : Byte) (s : State) : Except Fault State := do
  let s ← storeRx b s
  .ok { s with fs := .fcs2 }

/-- The `FCS2` arm (R138). -/
def rxFcs2 (b : Byte) (s : State) : Except Fault State := do
  let s ← storeRx b s
  .ok { s with fs := .fend }

/-- The frame just completed is valid, and its destination is admitted (R139). -/
def accepted (s : State) : Except Fault Bool := do
  let ok ← valid s.rxIdx s
  if ok then do
    let d ← readBuf s 4
    .ok (addressed d s)
  else .ok false

/-- The `END` arm (R139). -/
def rxEnd (b : Byte) (s : State) : Except Fault State :=
  if b ≠ 0x7E then .ok { s with fs := .waitSync }
  else do
    let s ← storeRx 0x7E s
    let ok ← accepted s
    .ok { s with fs := if ok then .awaitingResponse else .waitSync }

/-- `RxStep(b)` (R130): one arm per value of `FS`; busy states discard the byte (R140). -/
def rxStep (b : Byte) (s : State) : Except Fault State :=
  match s.fs with
  | .waitSync => rxWaitSync b s
  | .hdr1 => rxHdr1 b s
  | .hdr2 => rxHdr2 b s
  | .body => rxBody b s
  | .escape => rxEscape b s
  | .fcs1 => rxFcs1 b s
  | .fcs2 => rxFcs2 b s
  | .fend => rxEnd b s
  | .awaitingResponse => .ok s
  | .sendingResponse => .ok s

/-- `RxStep` of each byte, in order. -/
def rxSteps : List Byte → State → Except Fault State
  | [], s => .ok s
  | b :: bs, s => do
    let s ← rxStep b s
    rxSteps bs s

/-- Bytes on the link that are no symbol of the table (log 2): data, an invalid escape, an escape cut off, or several
symbols. Each is received by the arm `FS` selects (R130): stored, discarded or the end of the frame, as R141 sums up. -/
def receiveBytes (bytes : List Byte) (s : State) : Host.Outcome State Fault Refusal := execute s (rxSteps bytes s)

/-- `SOF`: the receive step of the sentinel. -/
def execSof (s : State) : Host.Outcome State Fault Refusal := execute s (rxStep 0x7E s)

/-- `ESC_7E`: the receive steps of 0x7D and 0x5E. -/
def execEsc7e (s : State) : Host.Outcome State Fault Refusal := execute s (rxSteps [0x7D, 0x5E] s)

/-- `ESC_7D`: the receive steps of 0x7D and 0x5D. -/
def execEsc7d (s : State) : Host.Outcome State Fault Refusal := execute s (rxSteps [0x7D, 0x5D] s)

end Sys2Proof.Machine
end

