-- ==== Sys2Proof/Machine/HostOps.lean ====
section
/-! DEFINITION. The host operations of spec/45_host_interface.md: `INIT`, `UPDATE`, the queries, `IGNORE`, and the
reserved selectors (R241 to R247). -/

namespace Sys2Proof.Machine

/-- `INIT()` (R241): every register but `BUF` and `EBUF`, and the event `TransportInit`. -/
def initialise (s : State) : State :=
  { s with
    fs := .waitSync, rxIdx := 0, rxCnt := 0
    eid := 0x00, eidUpd := false, eidNext := 0x00
    act := .none, ps := Slot.zero, es := Slot.zero, evtPend := false
    initDone := true, transportInits := s.transportInits + 1 }

/-- The receive half of `UPDATE` (R242). -/
def receive (rx : Option Byte) (s : State) : Except Fault State :=
  match rx with
  | some b => rxStep b s
  | none => .ok s

/-- `UPDATE(rx, cap)` (R242): the receive step before the drain step. -/
def updateEffect (rx : Option Byte) (cap : Cap) (s : State) : Except Fault State := do
  let s ← receive rx s
  drainDiscarding cap s

/-- `PKTAVAIL` (R243). -/
def packetAvailable (s : State) : Bool := s.fs = .awaitingResponse

/-- A classification query: false whenever no packet is available (R244, R245). -/
def classify (isType : Byte → Bool) (s : State) : Except Fault State :=
  if packetAvailable s then do
    let b ← readBuf s 7
    .ok (returning (.bool (isType b)) s)
  else .ok (returning (.bool false) s)

/-- `IGNORE()` (R246). -/
def ignorePacket (s : State) : State :=
  if packetAvailable s then { s with fs := .waitSync } else s

/-- `INIT`. -/
def execInit (s : State) : Host.Outcome State Fault Refusal := executeInit s (.ok (initialise s))

/-- `UPDATE`. -/
def execUpdate (rx : Option Byte) (cap : Cap) (s : State) : Host.Outcome State Fault Refusal :=
  execute s (updateEffect rx cap s)

/-- `PKTAVAIL`. -/
def execPktavail (s : State) : Host.Outcome State Fault Refusal :=
  execute s (.ok (returning (.bool (packetAvailable s)) s))

/-- `ISCTRL`. -/
def execIsctrl (s : State) : Host.Outcome State Fault Refusal := execute s (classify isControlType s)

/-- `ISALT`. -/
def execIsalt (s : State) : Host.Outcome State Fault Refusal := execute s (classify isAlternateType s)

/-- `IGNORE`. -/
def execIgnore (s : State) : Host.Outcome State Fault Refusal := execute s (.ok (ignorePacket s))

/-- Selectors 0xA and 0xB. -/
def execReservedHostAB (_s : BitVec 1) (s : State) : Host.Outcome State Fault Refusal := executeReserved s

/-- Selectors 0xC to 0xF. -/
def execReservedHostCF (_ss : BitVec 2) (s : State) : Host.Outcome State Fault Refusal := executeReserved s

end Sys2Proof.Machine
end

