-- ==== Sys2Proof/Machine/Dispatch.lean ====
section
/-! DEFINITION. One arm per instruction. -/

namespace Sys2Proof.Machine

def exec (i : Instr) (s : State) : Host.Outcome State Fault Refusal :=
  match i with
  | .init => Sys2Proof.Machine.execInit s
  | .update rx cap => Sys2Proof.Machine.execUpdate rx cap s
  | .drain cap => Sys2Proof.Machine.execDrain cap s
  | .pktavail => Sys2Proof.Machine.execPktavail s
  | .isctrl => Sys2Proof.Machine.execIsctrl s
  | .isalt => Sys2Proof.Machine.execIsalt s
  | .process cap => Sys2Proof.Machine.execProcess cap s
  | .ignore => Sys2Proof.Machine.execIgnore s
  | .enq bytes => Sys2Proof.Machine.execEnq bytes s
  | .evqempty => Sys2Proof.Machine.execEvqempty s
  | .cmdAssignEid op req => Sys2Proof.Machine.execCmdAssignEid op req s
  | .cmdGetEid => Sys2Proof.Machine.execCmdGetEid s
  | .cmdGetVersion t => Sys2Proof.Machine.execCmdGetVersion t s
  | .cmdGetTypes => Sys2Proof.Machine.execCmdGetTypes s
  | .cmdUnsupported code => Sys2Proof.Machine.execCmdUnsupported code s
  | .sof => Sys2Proof.Machine.execSof s
  | .esc7e => Sys2Proof.Machine.execEsc7e s
  | .esc7d => Sys2Proof.Machine.execEsc7d s
  | .reservedHostAB r => Sys2Proof.Machine.execReservedHostAB r s
  | .reservedHostCF r => Sys2Proof.Machine.execReservedHostCF r s

end Sys2Proof.Machine
end

