-- ==== Sys2Proof/Machine/Step.lean ====
section
/-! DEFINITION. One step: the oldest presented word is taken, decoded and executed (log 1); bytes on the link that are no
symbol are received as they are (log 2). -/

namespace Sys2Proof.Machine

/-- One step of the machine. With nothing presented, "the block does nothing between operations"
(spec/60_exceptions.md R288). A word the decoder rejects is bytes on the link that no row of the table names; each has
its arm of the receive framer (spec/41_receive_framer.md R130, R141). -/
def step (s : State) : Host.Outcome State Fault Refusal :=
  match fetch s with
  | none => .next s
  | some (w, t) =>
    match decode t.cfg.codes w with
    | .ok i => exec i t
    | .error _ => receiveBytes (linkBytes w) t

/-- `s` with the table word `w` presented next (log 1, log 3). -/
def State.withFetchWord (s : State) (nbits w : Nat) : State := present (tableWord nbits w) s

end Sys2Proof.Machine
end

