-- ==== Sys2Proof/Safety.lean ====
section
/-! DEFINITION. The terms claims are stated in: runs of operations (spec/70_reset_and_hazards.md R305), the invariants of
spec/10_state.md R40 to R45 with what makes them inductive, and the contract of a response (spec/43_control_commands.md
R182, R188). -/

namespace Sys2Proof.Machine

/-! ### Runs -/

/-- A sequence of operations, stopping at the first fault or refusal: a completed run (R305) answers its last state. -/
def runInstrs : List Instr → State → Host.Outcome State Fault Refusal
  | [], s => .next s
  | i :: is, s =>
    match exec i s with
    | .next t => runInstrs is t
    | .fault f => .fault f
    | .refused r => .refused r

/-- `FEED [b0 ... bk] cap=c`: the `UPDATE`s it stands for (spec/30_encoding.md R98). -/
def feed (cap : Cap) (bytes : List Byte) : List Instr := bytes.map fun b => .update (some b) cap

/-- Operations that each leave the active slot active: a transmission in progress (spec/44_transmitter.md R223 to R225).
None when an operation ends in a fault or a refusal or changes `ACT`. -/
def runWhileActive : List Instr → State → Option State
  | [], s => some s
  | i :: is, s =>
    match exec i s with
    | .next t => if t.act = s.act then runWhileActive is t else none
    | .fault _ => none
    | .refused _ => none

/-- The control commands (spec/30_encoding.md R89). -/
def isCommand : Instr → Bool
  | .cmdAssignEid _ _ => true
  | .cmdGetEid => true
  | .cmdGetVersion _ => true
  | .cmdGetTypes => true
  | .cmdUnsupported _ => true
  | .init => false
  | .update _ _ => false
  | .drain _ => false
  | .pktavail => false
  | .isctrl => false
  | .isalt => false
  | .process _ => false
  | .ignore => false
  | .enq _ => false
  | .evqempty => false
  | .sof => false
  | .esc7e => false
  | .esc7d => false
  | .reservedHostAB _ => false
  | .reservedHostCF _ => false

/-- The reserved selectors (spec/30_encoding.md R95). -/
def isReserved (i : Instr) : Prop := (∃ s, i = .reservedHostAB s) ∨ ∃ ss, i = .reservedHostCF ss

/-- The instructions that carry inbound bytes: `UPDATE` with a byte, and the wire symbols. -/
def receives (i : Instr) : Prop :=
  (∃ b cap, i = .update (some b) cap) ∨ i = .sof ∨ i = .esc7e ∨ i = .esc7d

/-- The write capacity an operation brings (spec/45_host_interface.md R240): only these emit bytes. -/
def capacityOf : Instr → Cap
  | .update _ cap => cap
  | .drain cap => cap
  | .process cap => cap
  | .init => .fin 0
  | .pktavail => .fin 0
  | .isctrl => .fin 0
  | .isalt => .fin 0
  | .ignore => .fin 0
  | .enq _ => .fin 0
  | .evqempty => .fin 0
  | .cmdAssignEid _ _ => .fin 0
  | .cmdGetEid => .fin 0
  | .cmdGetVersion _ => .fin 0
  | .cmdGetTypes => .fin 0
  | .cmdUnsupported _ => .fin 0
  | .sof => .fin 0
  | .esc7e => .fin 0
  | .esc7d => .fin 0
  | .reservedHostAB _ => .fin 0
  | .reservedHostCF _ => .fin 0

/-- The guard of spec/45_host_interface.md R247 admits an operation: an admitted configuration, no fault, initialised. -/
structure Running (s : State) : Prop where
  admitted : configAdmitted s.cfg = true
  notFaulted : s.faulted = none
  initDone : s.initDone = true

/-! ### Frames in a buffer -/

/-- The `n` bytes of a space from offset `i`, as the model reads them. -/
def bytesAt (m : Memory) (i n : Nat) : List Byte := (List.range' i n).map m.read

/-- `m'` is `m` with the byte `v` stored at offset `i`, and every other byte as before. -/
def Stores (m m' : Memory) (i : Nat) (v : Byte) : Prop := ∀ a, m'.read a = if a = i then v else m.read a

/-- The body length byte of the frame in `BUF`, as a natural. -/
def bodyLength (m : Memory) : Nat := (m.read 2).toNat

/-- A logical frame (spec/30_encoding.md R81): SOF and EOF, and a length byte that counts the body. -/
structure IsFrame (frame : List Byte) : Prop where
  length : frame.length = (frame.getD 2 0).toNat + 6
  sof : frame.getD 0 0 = 0x7E
  eof : frame.getD (frame.length - 1) 0 = 0x7E

/-- The byte at offset `i` of a frame in a buffer, as it is sent (spec/30_encoding.md R80, R87). -/
def wireByte (m : Memory) (i : Nat) : List Byte :=
  if isStuffed i (m.read 2) (m.read i) then [0x7D, escapeCode (m.read i)] else [m.read i]

/-- The wire form of `n` logical bytes from offset `i` of a frame in a buffer. -/
def wireFrom (m : Memory) (i n : Nat) : List Byte := (List.range' i n).flatMap (wireByte m)

/-- The wire bytes a slot has still to send: a pending continuation first (spec/44_transmitter.md R214, R225). -/
def wireRest (m : Memory) (slot : Slot) : List Byte :=
  if slot.escp then slot.pend :: wireFrom m (slot.idx.toNat + 1) (remaining slot - 1)
  else wireFrom m slot.idx.toNat (remaining slot)

/-- The buffer the active slot sends from (spec/10_state.md R28, R29). -/
def activeBuffer (s : State) : Memory :=
  match s.act with
  | .none => []
  | .primary => s.buf
  | .event => s.ebuf

/-- The register set of the active slot. -/
def activeSlot (s : State) : Slot :=
  match s.act with
  | .none => Slot.zero
  | .primary => s.ps
  | .event => s.es

/-- `s` with the active slot's register set replaced. -/
def withActiveSlot (slot : Slot) (s : State) : State :=
  match s.act with
  | .none => s
  | .primary => { s with ps := slot }
  | .event => { s with es := slot }

/-- The wire bytes the active slot has still to send. -/
def activeWire (s : State) : List Byte :=
  match s.act with
  | .none => []
  | .primary => wireRest s.buf s.ps
  | .event => wireRest s.ebuf s.es

/-- The first bytes of a list that a capacity lets through (spec/30_encoding.md R94). -/
def takeCap : Cap → List Byte → List Byte
  | .fin n, bytes => bytes.take n
  | .inf, bytes => bytes

/-- The checksum bytes of a logical frame are those of its own bytes (spec/40_checksum.md R122, R123). -/
def checksumRight (cfg : Config) (frame : List Byte) : Prop :=
  half (frame.getD (frame.length - 3) 0) (frame.getD (frame.length - 2) 0) =
    ck cfg cfg.ckSeed ((frame.drop 1).take (frame.length - 4))

/-- The frame `BUF[0 .. RX_IDX)` passes the validator and the admission filter (spec/42_frame_validator.md R161 to
R164). -/
structure FrameAccepted (s : State) : Prop where
  size : 11 ≤ s.rxIdx
  length : (s.buf.read 2).toNat = s.rxIdx - 6
  checksum : half (s.buf.read (s.rxIdx - 3)) (s.buf.read (s.rxIdx - 2)) =
    ck s.cfg s.cfg.ckSeed (bytesAt s.buf 1 (s.rxIdx - 4))
  address : s.buf.read 4 = 0x00 ∨ s.buf.read 4 = 0xFF ∨ s.buf.read 4 = s.eid

/-- Byte sequences that hold one malformed frame and no other frame (spec/41_receive_framer.md R143), but for a bad
length field: with one the framer reads a different frame, which only the checks of FrameAccepted can reject. -/
inductive Malformed (cfg : Config) : List Byte → Prop
  | truncated (frame : List Byte) (k : Nat) : IsFrame frame → k < (wireForm frame).length →
      Malformed cfg ((wireForm frame).take k)
  | corruptedChecksum (frame : List Byte) : IsFrame frame → ¬ checksumRight cfg frame → Malformed cfg (wireForm frame)
  | undersized (frame : List Byte) : IsFrame frame → frame.length < 11 → Malformed cfg (wireForm frame)
  | oversized (frame : List Byte) : IsFrame frame → cfg.bufCap < (frame.getD 2 0).toNat + 8 →
      Malformed cfg (wireForm frame)
  | missingTrailer (frame : List Byte) (b : Byte) : IsFrame frame → b ≠ 0x7E →
      Malformed cfg ((wireForm frame).dropLast ++ [b])
  | invalidEscape (frame : List Byte) (k : Nat) (x : Byte) (rest : List Byte) : IsFrame frame →
      k < (frame.getD 2 0).toNat → x ≠ 0x5E → x ≠ 0x5D → x ≠ 0x7E → (∀ b ∈ rest, b ≠ 0x7E) →
      Malformed cfg (frame.take 3 ++ ((frame.drop 3).take k).flatMap stuff ++ [0x7D, x] ++ rest ++ [0x7E])

/-- The offset a receive step stores to in state `s`, if it stores at all: `StartFrame` stores at 0 (R131), every other
store is at the write index. -/
def storesAt (b : Byte) (s : State) : Option Nat :=
  match s.fs with
  | .waitSync => if b = 0x7E then some 0 else none
  | .hdr1 => some s.rxIdx
  | .hdr2 => some s.rxIdx
  | .body => if b = 0x7D then none else if b = 0x7E then some 0 else some s.rxIdx
  | .escape => if b = 0x7E then some 0 else if b = 0x5E ∨ b = 0x5D then some s.rxIdx else none
  | .fcs1 => some s.rxIdx
  | .fcs2 => some s.rxIdx
  | .fend => if b = 0x7E then some s.rxIdx else none
  | .awaitingResponse => none
  | .sendingResponse => none

/-! ### The invariant -/

/-- `IDX` inside the frame, `LEN` the frame's own, and a pending continuation the second byte of the stuffed byte at
`IDX` (spec/10_state.md R42; spec/44_transmitter.md R212, R213, R216). -/
structure SlotSends (m : Memory) (slot : Slot) : Prop where
  len : slot.len = slotLength (m.read 2)
  idx : slot.idx.toNat ≤ slot.len.toNat
  pending : slot.escp = true →
    slot.idx.toNat < slot.len.toNat ∧ isStuffed slot.idx.toNat (m.read 2) (m.read slot.idx.toNat) = true ∧
      slot.pend = escapeCode (m.read slot.idx.toNat)

/-- Where the receive framer stands in the frame it assembles (spec/10_state.md R42, spec/41_receive_framer.md R135,
R142). -/
def FramerPlaced (s : State) : Prop :=
  match s.fs with
  | .waitSync => True
  | .hdr1 => s.rxIdx = 1
  | .hdr2 => s.rxIdx = 2
  | .body => 1 ≤ s.rxCnt.toNat ∧ 3 ≤ s.rxIdx ∧ s.rxIdx + s.rxCnt.toNat = bodyLength s.buf + 3 ∧
      bodyLength s.buf + 8 ≤ s.cfg.bufCap
  | .escape => 1 ≤ s.rxCnt.toNat ∧ 3 ≤ s.rxIdx ∧ s.rxIdx + s.rxCnt.toNat = bodyLength s.buf + 3 ∧
      bodyLength s.buf + 8 ≤ s.cfg.bufCap
  | .fcs1 => s.rxIdx = bodyLength s.buf + 3 ∧ bodyLength s.buf + 8 ≤ s.cfg.bufCap
  | .fcs2 => s.rxIdx = bodyLength s.buf + 4 ∧ bodyLength s.buf + 8 ≤ s.cfg.bufCap
  | .fend => s.rxIdx = bodyLength s.buf + 5 ∧ bodyLength s.buf + 8 ≤ s.cfg.bufCap
  | .awaitingResponse => s.rxIdx = bodyLength s.buf + 6 ∧ 11 ≤ s.rxIdx ∧ s.rxIdx + 2 ≤ s.cfg.bufCap
  | .sendingResponse => bodyLength s.buf + 6 ≤ s.cfg.bufCap

/-- The invariant of the machine: every state a run from `INIT` reaches meets it (spec/10_state.md section 4). -/
structure Inv (s : State) : Prop where
  running : Running s
  bufWf : s.buf.wf = true
  bufWithin : s.buf.within s.cfg.bufCap = true
  ebufWf : s.ebuf.wf = true
  ebufWithin : s.ebuf.within s.cfg.evtCap = true
  /-- R40: an inactive slot is zeroed. -/
  idlePrimary : s.act ≠ .primary → s.ps = Slot.zero
  /-- R40. -/
  idleEvent : s.act ≠ .event → s.es = Slot.zero
  /-- R41. -/
  primarySending : s.act = .primary → s.fs = .sendingResponse
  /-- R43. -/
  featureOff : s.cfg.eventEnabled = false → s.evtPend = false
  /-- R44. -/
  eventPending : s.act = .event → s.evtPend = true
  /-- R45. -/
  updateSending : s.eidUpd = true → s.fs = .sendingResponse
  /-- R25: `EID` never holds 0xFF. -/
  eidNotBroadcast : s.eid ≠ 0xFF
  /-- R183: the address held for the commit is a valid one. -/
  nextValid : s.eidUpd = true → s.eidNext ≠ 0x00 ∧ s.eidNext ≠ 0xFF
  /-- R42, R142. -/
  placed : FramerPlaced s
  /-- R221: the pending event fits its buffer. -/
  eventFits : s.evtPend = true → bodyLength s.ebuf + 6 ≤ s.cfg.evtCap
  /-- R42: the active slot's index bounds. -/
  primarySlot : s.act = .primary → SlotSends s.buf s.ps
  /-- R42. -/
  eventSlot : s.act = .event → SlotSends s.ebuf s.es

/-! ### Responses -/

/-- `t` is `s` after a handler wrote `payload` from offset 10 and finished the response (spec/43_control_commands.md
R182): every byte of `BUF`, as the model reads it. -/
structure IsResponse (payload : List Byte) (s t : State) : Prop where
  payloadBytes : bytesAt t.buf 10 payload.length = payload
  instanceId : t.buf.read 8 = s.buf.read 8 &&& 0x7F
  flags : t.buf.read 6 = (s.buf.read 6 ^^^ 0x08) ||| 0xC0
  destination : t.buf.read 4 = s.buf.read 5
  source : t.buf.read 5 = s.buf.read 4
  lengthByte : payload.length + 7 ≤ 255 → (t.buf.read 2).toNat = payload.length + 7
  checksum : half (t.buf.read (10 + payload.length)) (t.buf.read (11 + payload.length)) =
    ck t.cfg t.cfg.ckSeed (bytesAt t.buf 1 (9 + payload.length))
  trailer : t.buf.read (12 + payload.length) = 0x7E
  header : t.buf.read 0 = s.buf.read 0 ∧ t.buf.read 1 = s.buf.read 1 ∧ t.buf.read 3 = s.buf.read 3 ∧
    t.buf.read 7 = s.buf.read 7 ∧ t.buf.read 9 = s.buf.read 9
  beyond : ∀ a, 13 + payload.length ≤ a → t.buf.read a = s.buf.read a

/-- What `BUF` holds by `FS`: an admitted frame while a packet is available, a well-formed response while one is sent
(spec/41_receive_framer.md R139, spec/43_control_commands.md R188). -/
structure FrameHeld (s : State) : Prop where
  sof : s.fs ≠ .waitSync → s.buf.read 0 = 0x7E
  packet : s.fs = .awaitingResponse →
    valid s.rxIdx s = .ok true ∧ addressed (s.buf.read 4) s = true ∧ s.buf.read (s.rxIdx - 1) = 0x7E
  response : s.fs = .sendingResponse →
    valid (bodyLength s.buf + 6) s = .ok true ∧ s.buf.read (bodyLength s.buf + 5) = 0x7E

end Sys2Proof.Machine
end

