-- ==== Sys2Proof/Certificates/Slice0/Obligations.lean ====
section
/-! DEFINITION. The statements about the model, each from the numbered rules of spec/. -/

section

open Sys2Proof Sys2Proof.Machine

/-! ### Configuration, reset and the guard of an operation -/

/-- spec/00_scope.md R14: every instruction is refused with `BadConfig` exactly when a constraint is broken. -/
def Obligations.OnlyAdmittedConfigurationsRun : Prop :=
  ∀ (s : State) (i : Instr), exec i s = .refused .badConfig ↔
    ¬ (19 ≤ s.cfg.bufCap ∧ 15 + s.cfg.supportedTypes.length ≤ s.cfg.bufCap ∧
      (s.cfg.eventEnabled = true → 6 ≤ s.cfg.evtCap) ∧
      (s.cfg.codes.assignEid ≠ s.cfg.codes.getEid ∧ s.cfg.codes.assignEid ≠ s.cfg.codes.getVersion ∧
        s.cfg.codes.assignEid ≠ s.cfg.codes.getTypes ∧ s.cfg.codes.getEid ≠ s.cfg.codes.getVersion ∧
        s.cfg.codes.getEid ≠ s.cfg.codes.getTypes ∧ s.cfg.codes.getVersion ≠ s.cfg.codes.getTypes) ∧
      s.cfg.supportedTypes.length ≤ 255)

/-- spec/45_host_interface.md R241, spec/10_state.md R38: the values `INIT` writes; nothing else changes. -/
def Obligations.InitWritesTheResetValues : Prop :=
  ∀ s : State, configAdmitted s.cfg = true → s.faulted = none →
    exec .init s = .next { s with
      fs := .waitSync, rxIdx := 0, rxCnt := 0, eid := 0x00, eidUpd := false, eidNext := 0x00, act := .none
      ps := { len := 0, idx := 0, escp := false, pend := 0x00 }
      es := { len := 0, idx := 0, escp := false, pend := 0x00 }
      evtPend := false, initDone := true, transportInits := s.transportInits + 1 }

/-- `INIT` establishes the invariant from every state whose buffers are in canonical form (spec/10_state.md R38, R40 to
R45). -/
def Obligations.InitEstablishesTheInvariant : Prop :=
  ∀ s : State, configAdmitted s.cfg = true → s.faulted = none → s.buf.wf = true →
    s.buf.within s.cfg.bufCap = true → s.ebuf.wf = true → s.ebuf.within s.cfg.evtCap = true →
    ∃ t, exec .init s = .next t ∧ Inv t ∧ FrameHeld t

/-- The reset state meets the invariants. That it is `S0(TC)` is the model's choice (log 6). -/
def Obligations.ResetMeetsTheInvariants : Prop := Inv State.reset ∧ FrameHeld State.reset

/-- spec/45_host_interface.md R247, spec/60_exceptions.md R277: under an admitted configuration, after a fault every
instruction is refused with `Faulted`, before that a reserved selector with `Reserved`, before the first `INIT` every
other instruction with `NotInitialised`; a refusal sets `REFUSED` and changes no other state (log 11). -/
def Obligations.RefusalsComeInOrder : Prop :=
  ∀ (s : State) (i : Instr), configAdmitted s.cfg = true →
    (s.faulted ≠ none → exec i s = .refused .faulted) ∧
    (s.faulted = none → isReserved i → exec i s = .refused .reserved) ∧
    (s.faulted = none → ¬ isReserved i → s.initDone = false → i ≠ .init → exec i s = .refused .notInitialised) ∧
    (∀ r, exec i s = .refused r → settle s (exec i s) = { s with refused := some r })

/-- spec/30_encoding.md R95: host selectors 0xA to 0xF are refused. -/
def Obligations.ReservedSelectorsAreRefused : Prop :=
  ∀ (s : State) (a : BitVec 1) (c : BitVec 2), configAdmitted s.cfg = true → s.faulted = none →
    exec (.reservedHostAB a) s = .refused .reserved ∧ exec (.reservedHostCF c) s = .refused .reserved

/-- spec/60_exceptions.md R276: a fault sets `FAULTED` and changes nothing else, and every later instruction, `INIT`
among them, is refused (log 11). -/
def Obligations.FaultIsSticky : Prop :=
  ∀ (s : State) (i : Instr) (f : Fault), exec i s = .fault f →
    settle s (exec i s) = { s with faulted := some f } ∧
    ∀ j, exec j (settle s (exec i s)) = .refused .faulted

/-- spec/60_exceptions.md R276, spec/20_memory.md R60: the one fault of a reachable state is `MalformedEvent`, raised by
`ENQ` exactly when the feature is on, the slot is free, the frame fits, and its length byte disagrees with its length. -/
def Obligations.OnlyAMalformedEventFaults : Prop :=
  ∀ (s : State) (i : Instr) (f : Fault), Inv s →
    (exec i s = .fault f ↔ f = .malformedEvent ∧ ∃ bytes, i = .enq bytes ∧ s.cfg.eventEnabled = true ∧
      s.evtPend = false ∧ bytes.length ≤ s.cfg.evtCap ∧
      (bytes.length < 3 ∨ (bytes.getD 2 0).toNat + 6 ≠ bytes.length))

/-- spec/60_exceptions.md R270: from a reachable state every instruction but a reserved selector completes, or is the
`ENQ` of a malformed event frame. -/
def Obligations.EveryOperationCompletes : Prop :=
  ∀ (s : State) (i : Instr), Inv s → ¬ isReserved i →
    (∃ t, exec i s = .next t) ∨ ∃ bytes, i = .enq bytes ∧ exec i s = .fault .malformedEvent

/-- spec/70_reset_and_hazards.md R292: the configuration is the same before and after every operation, `INIT` among
them, whatever its outcome. -/
def Obligations.ConfigurationNeverChanges : Prop :=
  ∀ (s : State) (i : Instr), (settle s (exec i s)).cfg = s.cfg

/-! ### Storage -/

/-- spec/20_memory.md R60: an access outside a space faults; a write inside it is what a later read of that offset
returns, leaves every other byte, and keeps the canonical form; and the form loses nothing: memories that read alike are
equal (log 8). -/
def Obligations.StorageKeepsWhatIsWritten : Prop :=
  (∀ (size i : Nat) (m : Memory) (v : Byte), m.wf = true → m.within size = true →
    (size ≤ i → memRead size m i = .error .bufferBounds ∧ memWrite size m i v = .error .bufferBounds) ∧
    (i < size → ∃ m', memWrite size m i v = .ok m' ∧ Stores m m' i v ∧ memRead size m' i = .ok v ∧
      m'.wf = true ∧ m'.within size = true)) ∧
  (∀ m m' : Memory, m.wf = true → m'.wf = true → (∀ a, m.read a = m'.read a) → m = m')

/-- spec/20_memory.md R71, spec/44_transmitter.md R226: who may write `BUF`, by `FS`; and `EBUF` is written by `ENQ`
alone, with the slot free. That wire rows write `BUF` as reception does and command rows as `PROCESS` does is DEDUCED
(log 14, log 15). -/
def Obligations.OneWriterOfEachBuffer : Prop :=
  ∀ (s t : State) (i : Instr), exec i s = .next t →
    (s.fs = .sendingResponse → t.buf = s.buf) ∧
    (s.fs = .awaitingResponse → t.buf ≠ s.buf → isCommand i = true ∨ ∃ cap, i = .process cap) ∧
    (s.fs ≠ .awaitingResponse → s.fs ≠ .sendingResponse → t.buf ≠ s.buf → receives i) ∧
    (t.ebuf ≠ s.ebuf → s.evtPend = false ∧ ∃ bytes, i = .enq bytes)

/-! ### Checksum and validator -/

/-- spec/40_checksum.md R121. -/
def Obligations.ChecksumConcatenates : Prop :=
  ∀ (cfg : Config) (seed : Half) (a b : List Byte), ck cfg (ck cfg seed a) b = ck cfg seed (a ++ b)

/-- The table form of `CK_STEP` (log 7) loses nothing: spec/00_scope.md R11 allows every total function, and each is
the step of some table. -/
def Obligations.EveryChecksumStepHasATable : Prop :=
  ∀ f : Half → Byte → Half, ∃ table, ∀ s b, ckStep table s b = f s b

/-- spec/42_frame_validator.md R160: minimum size, declared length, checksum over `BUF[1..N-3)`, big-endian. -/
def Obligations.ValidatorDecidesTheThreeChecks : Prop :=
  ∀ (s : State) (n : Nat), n ≤ s.cfg.bufCap →
    valid n s = .ok (decide (11 ≤ n ∧ (s.buf.read 2).toNat = n - 6 ∧
      ck s.cfg s.cfg.ckSeed (bytesAt s.buf 1 (n - 4)) = half (s.buf.read (n - 3)) (s.buf.read (n - 2))))

/-! ### Receive framer -/

/-- spec/41_receive_framer.md R131, R132. -/
def Obligations.WaitSyncArm : Prop :=
  ∀ (s : State) (b : Byte), Inv s → s.fs = .waitSync →
    (b ≠ 0x7E → rxStep b s = .ok s) ∧
    (b = 0x7E → ∃ t, rxStep b s = .ok t ∧ Stores s.buf t.buf 0 0x7E ∧
      t = { s with buf := t.buf, rxIdx := 1, fs := .hdr1 })

/-- spec/41_receive_framer.md R133, R134, R137, R138: the bytes stored as they come. -/
def Obligations.VerbatimArms : Prop :=
  ∀ (s : State) (b : Byte), Inv s →
    (s.fs = .hdr1 → ∃ t, rxStep b s = .ok t ∧ Stores s.buf t.buf 1 b ∧
      t = { s with buf := t.buf, rxIdx := 2, fs := .hdr2 }) ∧
    (s.fs = .hdr2 → ∃ t, rxStep b s = .ok t ∧ Stores s.buf t.buf 2 b ∧
      t = { s with
        buf := t.buf, rxIdx := 3, rxCnt := b
        fs := if b.toNat + 8 > s.cfg.bufCap then .waitSync else if b = 0 then .fcs1 else .body }) ∧
    (s.fs = .fcs1 → ∃ t, rxStep b s = .ok t ∧ Stores s.buf t.buf s.rxIdx b ∧
      t = { s with buf := t.buf, rxIdx := s.rxIdx + 1, fs := .fcs2 }) ∧
    (s.fs = .fcs2 → ∃ t, rxStep b s = .ok t ∧ Stores s.buf t.buf s.rxIdx b ∧
      t = { s with buf := t.buf, rxIdx := s.rxIdx + 1, fs := .fend })

/-- spec/41_receive_framer.md R131, R135. -/
def Obligations.BodyArm : Prop :=
  ∀ (s : State) (b : Byte), Inv s → s.fs = .body → 1 ≤ s.rxCnt.toNat ∧
    (b = 0x7D → rxStep b s = .ok { s with fs := .escape }) ∧
    (b = 0x7E → ∃ t, rxStep b s = .ok t ∧ Stores s.buf t.buf 0 0x7E ∧
      t = { s with buf := t.buf, rxIdx := 1, fs := .hdr1 }) ∧
    (b ≠ 0x7D → b ≠ 0x7E → ∃ t, rxStep b s = .ok t ∧ Stores s.buf t.buf s.rxIdx b ∧
      t = { s with
        buf := t.buf, rxIdx := s.rxIdx + 1, rxCnt := s.rxCnt - 1
        fs := if s.rxCnt - 1 = 0 then .fcs1 else .body })

/-- spec/41_receive_framer.md R131, R136. -/
def Obligations.EscapeArm : Prop :=
  ∀ (s : State) (b : Byte), Inv s → s.fs = .escape → 1 ≤ s.rxCnt.toNat ∧
    (b = 0x7E → ∃ t, rxStep b s = .ok t ∧ Stores s.buf t.buf 0 0x7E ∧
      t = { s with buf := t.buf, rxIdx := 1, fs := .hdr1 }) ∧
    (b = 0x5E ∨ b = 0x5D → ∃ t, rxStep b s = .ok t ∧ Stores s.buf t.buf s.rxIdx (b + 0x20) ∧
      t = { s with
        buf := t.buf, rxIdx := s.rxIdx + 1, rxCnt := s.rxCnt - 1
        fs := if s.rxCnt - 1 = 0 then .fcs1 else .body }) ∧
    (b ≠ 0x7E → b ≠ 0x5E → b ≠ 0x5D → rxStep b s = .ok { s with fs := .waitSync })

/-- spec/41_receive_framer.md R139, R142, spec/42_frame_validator.md R164: the trailer is required; the completed frame
has the length its length byte declares; it is a packet exactly when it passes the validator and the admission filter,
and is dropped otherwise. -/
def Obligations.EndArm : Prop :=
  ∀ (s : State) (b : Byte), Inv s → s.fs = .fend →
    (b ≠ 0x7E → rxStep b s = .ok { s with fs := .waitSync }) ∧
    (b = 0x7E → ∃ t, rxStep b s = .ok t ∧ Stores s.buf t.buf s.rxIdx 0x7E ∧
      t = { s with buf := t.buf, rxIdx := s.rxIdx + 1, fs := t.fs } ∧ t.rxIdx = (t.buf.read 2).toNat + 6 ∧
      (FrameAccepted t → t.fs = .awaitingResponse) ∧ (¬ FrameAccepted t → t.fs = .waitSync))

/-- spec/41_receive_framer.md R140. -/
def Obligations.BusyArmDiscards : Prop :=
  ∀ (s : State) (b : Byte), s.fs = .awaitingResponse ∨ s.fs = .sendingResponse → rxStep b s = .ok s

/-- spec/45_host_interface.md R242: the receive step before the drain step, whose count is discarded. -/
def Obligations.UpdateReceivesThenDrains : Prop :=
  ∀ (s : State) (rx : Option Byte) (cap : Cap), Inv s →
    ∃ u t n, (rx = none → u = s) ∧ (∀ b, rx = some b → rxStep b s = .ok u) ∧ drainStep cap u = .ok (t, n) ∧
      t.buf = u.buf ∧ exec (.update rx cap) s = .next t

/-- spec/45_host_interface.md R248, spec/41_receive_framer.md R130: what `UPDATE` leaves unchanged. A byte of `BUF`
changes only where the receive step of the byte it carries stores, and no byte of `EBUF` changes. -/
def Obligations.FrameOfUpdate : Prop :=
  ∀ (s t : State) (rx : Option Byte) (cap : Cap), s.buf.wf = true → exec (.update rx cap) s = .next t →
    t = { s with
      fs := t.fs, rxIdx := t.rxIdx, rxCnt := t.rxCnt, buf := t.buf, eid := t.eid, eidUpd := t.eidUpd
      eidNext := t.eidNext, act := t.act, ps := t.ps, es := t.es, evtPend := t.evtPend, txout := t.txout } ∧
    (rx = none → t.rxIdx = s.rxIdx ∧ t.rxCnt = s.rxCnt) ∧
    (∀ a, (∀ b, rx = some b → storesAt b s ≠ some a) → t.buf.read a = s.buf.read a)

/-- The wire row `SOF` is the receive step of the sentinel (log 14); spec/41_receive_framer.md R131: it starts a frame
in `WAIT_SYNC`, `BODY` and `ESCAPE`. -/
def Obligations.SofStartsAFrame : Prop :=
  ∀ s : State, Inv s → ∃ t, exec .sof s = .next t ∧ rxStep 0x7E s = .ok t ∧
    (s.fs = .waitSync ∨ s.fs = .body ∨ s.fs = .escape → Stores s.buf t.buf 0 0x7E ∧
      t = { s with buf := t.buf, rxIdx := 1, fs := .hdr1 })

/-- The wire rows `ESC_7E` and `ESC_7D` are the receive steps of their two bytes (log 14); spec/30_encoding.md R80: in
the body they store 0x7E and 0x7D. -/
def Obligations.EscapePairsStoreTheByteTheyStandFor : Prop :=
  ∀ s : State, Inv s →
    (∃ u t, rxStep 0x7D s = .ok u ∧ rxStep 0x5E u = .ok t ∧ exec .esc7e s = .next t ∧
      (s.fs = .body → Stores s.buf t.buf s.rxIdx 0x7E ∧ t = { s with
        buf := t.buf, rxIdx := s.rxIdx + 1, rxCnt := s.rxCnt - 1
        fs := if s.rxCnt - 1 = 0 then .fcs1 else .body })) ∧
    (∃ u t, rxStep 0x7D s = .ok u ∧ rxStep 0x5D u = .ok t ∧ exec .esc7d s = .next t ∧
      (s.fs = .body → Stores s.buf t.buf s.rxIdx 0x7D ∧ t = { s with
        buf := t.buf, rxIdx := s.rxIdx + 1, rxCnt := s.rxCnt - 1
        fs := if s.rxCnt - 1 = 0 then .fcs1 else .body }))

/-- spec/41_receive_framer.md R144: feeding the stuffed wire form of a logical frame, with any write capacity, leaves
the frame in `BUF`. -/
def Obligations.ReceivedWireFormIsTheFrame : Prop :=
  ∀ (s : State) (cap : Cap) (frame : List Byte), Inv s → s.fs = .waitSync → IsFrame frame →
    (frame.getD 2 0).toNat + 8 ≤ s.cfg.bufCap →
    ∃ t, runInstrs (feed cap (wireForm frame)) s = .next t ∧ bytesAt t.buf 0 frame.length = frame ∧
      t.rxIdx = frame.length

/-- spec/42_frame_validator.md R165: a valid frame is accepted exactly when its destination is 0x00, 0xFF or `EID`. -/
def Obligations.AdmittedExactlyWhenAddressed : Prop :=
  ∀ (s : State) (cap : Cap) (frame : List Byte), Inv s → s.fs = .waitSync → IsFrame frame → 11 ≤ frame.length →
    (frame.getD 2 0).toNat + 8 ≤ s.cfg.bufCap → checksumRight s.cfg frame →
    ∃ t, runInstrs (feed cap (wireForm frame)) s = .next t ∧
      (t.fs = .awaitingResponse ↔
        frame.getD 4 0 = 0x00 ∨ frame.getD 4 0 = 0xFF ∨ frame.getD 4 0 = s.eid)

/-- spec/41_receive_framer.md R143, but for bad length fields (the docstring of Malformed): no packet, and nothing is
emitted when nothing was waiting to be sent. -/
def Obligations.MalformedFramesGiveNoPacket : Prop :=
  ∀ (s : State) (cap : Cap) (bytes : List Byte), Inv s → s.fs = .waitSync → Malformed s.cfg bytes →
    ∃ t, runInstrs (feed cap bytes) s = .next t ∧ t.fs ≠ .awaitingResponse ∧
      (s.act = .none → s.evtPend = false → t.txout = s.txout)

/-! ### Control commands -/

/-- spec/43_control_commands.md R183, R182: an accepted Assign Endpoint ID answers success, acceptance, the old address
and pool size 0, and holds the new address; `EID` is unchanged.
The row as the handler with R182 and the `FS` write of R180, and no drain step, is DEDUCED (log 15). -/
def Obligations.AssignAccepted : Prop :=
  ∀ (s : State) (op : BitVec 4) (req : Byte), Inv s → s.fs = .awaitingResponse →
    op ≠ 0x2 → op ≠ 0x3 → req ≠ 0x00 → req ≠ 0xFF →
    ∃ t, exec (.cmdAssignEid op req) s = .next t ∧ IsResponse [0x00, 0x00, s.eid, 0x00] s t ∧
      t = { s with buf := t.buf, fs := .sendingResponse, eidUpd := true, eidNext := req }

/-- spec/43_control_commands.md R183, spec/30_encoding.md R92: a rejected request is answered invalid-data.
The row as the handler with R182 and the `FS` write of R180, and no drain step, is DEDUCED (log 15). -/
def Obligations.AssignRejected : Prop :=
  ∀ (s : State) (op : BitVec 4) (req : Byte), Inv s → s.fs = .awaitingResponse →
    op = 0x2 ∨ op = 0x3 ∨ req = 0x00 ∨ req = 0xFF →
    ∃ t, exec (.cmdAssignEid op req) s = .next t ∧ IsResponse [0x02] s t ∧
      t = { s with buf := t.buf, fs := .sendingResponse }

/-- spec/43_control_commands.md R184.
The row as the handler with R182 and the `FS` write of R180, and no drain step, is DEDUCED (log 15). -/
def Obligations.GetEidAnswersTheAddress : Prop :=
  ∀ s : State, Inv s → s.fs = .awaitingResponse →
    ∃ t, exec .cmdGetEid s = .next t ∧ IsResponse [0x00, s.eid, 0x00] s t ∧
      t = { s with buf := t.buf, fs := .sendingResponse }

/-- spec/43_control_commands.md R185: the tuple of the control, base or registered alternate type; any other type is
answered 0x80 with entry count 0.
The row as the handler with R182 and the `FS` write of R180, and no drain step, is DEDUCED (log 15). -/
def Obligations.GetVersionAnswersTheTuple : Prop :=
  ∀ (s : State) (ty : Byte), Inv s → s.fs = .awaitingResponse →
    ∃ t, exec (.cmdGetVersion ty) s = .next t ∧ t = { s with buf := t.buf, fs := .sendingResponse } ∧
      (ty = 0x00 → IsResponse ([0x00, 0x01] ++ s.cfg.verCtrl.toList) s t) ∧
      (ty = 0xFF → IsResponse ([0x00, 0x01] ++ s.cfg.verBase.toList) s t) ∧
      (∀ v, ty = 0x01 → s.cfg.altVersion = some v → IsResponse ([0x00, 0x01] ++ v.toList) s t) ∧
      (ty = 0x01 → s.cfg.altVersion = none → IsResponse [0x80, 0x00] s t) ∧
      (ty ≠ 0x00 → ty ≠ 0xFF → ty ≠ 0x01 → IsResponse [0x80, 0x00] s t)

/-- spec/43_control_commands.md R186. Up to 246 types every byte is as the rule says; with more the length byte is a
free value (log 9) and the rest of the response is as the rule says.
The row as the handler with R182 and the `FS` write of R180, and no drain step, is DEDUCED (log 15). -/
def Obligations.GetTypesAnswersTheList : Prop :=
  ∀ s : State, Inv s → s.fs = .awaitingResponse →
    ∃ t, exec .cmdGetTypes s = .next t ∧
      IsResponse ([0x00, BitVec.ofNat 8 s.cfg.supportedTypes.length] ++ s.cfg.supportedTypes) s t ∧
      t = { s with buf := t.buf, fs := .sendingResponse, freeCount := t.freeCount } ∧
      (s.cfg.supportedTypes.length ≤ 246 → t.freeCount = s.freeCount)

/-- spec/43_control_commands.md R187: every other code is answered `CC_UNSUPPORTED`.
The row as the handler with R182 and the `FS` write of R180, and no drain step, is DEDUCED (log 15). -/
def Obligations.UnsupportedCommandIsAnswered : Prop :=
  ∀ (s : State) (code : Byte), Inv s → s.fs = .awaitingResponse →
    ∃ t, exec (.cmdUnsupported code) s = .next t ∧ IsResponse [s.cfg.ccUnsupported] s t ∧
      t = { s with buf := t.buf, fs := .sendingResponse }

/-- spec/43_control_commands.md R180, R181: `PROCESS` runs the handler the code at offset 9 selects, on the payload at
offsets 10 and 11, and then one drain step; outside `AWAITING_RESPONSE` it and every handler change nothing.
The handlers are the command rows presented alone (DEDUCED, log 15). -/
def Obligations.ProcessRunsTheSelectedHandlerThenDrains : Prop :=
  ∀ (s : State) (cap : Cap), Inv s →
    (s.fs = .awaitingResponse → ∃ i u t n,
      (s.buf.read 9 = s.cfg.codes.assignEid → i = .cmdAssignEid ((s.buf.read 10).extractLsb' 0 4) (s.buf.read 11)) ∧
      (s.buf.read 9 = s.cfg.codes.getEid → i = .cmdGetEid) ∧
      (s.buf.read 9 = s.cfg.codes.getVersion → i = .cmdGetVersion (s.buf.read 10)) ∧
      (s.buf.read 9 = s.cfg.codes.getTypes → i = .cmdGetTypes) ∧
      (s.cfg.codes.names (s.buf.read 9) = false → i = .cmdUnsupported (s.buf.read 9)) ∧
      exec i s = .next u ∧ drainStep cap u = .ok (t, n) ∧ t.buf = u.buf ∧ exec (.process cap) s = .next t) ∧
    (s.fs ≠ .awaitingResponse → exec (.process cap) s = .next s ∧
      ∀ i, isCommand i = true → exec i s = .next s)

/-- spec/43_control_commands.md R188: a response is a frame the validator accepts, with its sentinel. Up to 246 types
(log 9). The response is that of a command row presented alone, with no drain step (DEDUCED, log 15). -/
def Obligations.ResponsePassesTheValidator : Prop :=
  ∀ (s : State) (i : Instr), Inv s → FrameHeld s → s.fs = .awaitingResponse → isCommand i = true →
    s.cfg.supportedTypes.length ≤ 246 →
    ∃ t, exec i s = .next t ∧ t.fs = .sendingResponse ∧ t.buf.read 0 = 0x7E ∧
      valid (bodyLength t.buf + 6) t = .ok true ∧ t.buf.read (bodyLength t.buf + 5) = 0x7E

/-- From spec/00_scope.md R18: the completion codes a response can carry are these four, and each is carried by some. The
model's reading: a command row is run on its own (log 2), with operands that are its own and not read from `BUF`
(DEDUCED, log 15), so that every awaiting state reaches all four. -/
def Obligations.CompletionCodesAreFour : Prop :=
  ∀ s : State, Inv s → s.fs = .awaitingResponse →
    (∀ i t, isCommand i = true → exec i s = .next t →
      t.buf.read 10 = 0x00 ∨ t.buf.read 10 = 0x02 ∨ t.buf.read 10 = 0x80 ∨ t.buf.read 10 = s.cfg.ccUnsupported) ∧
    (∀ c, c = 0x00 ∨ c = 0x02 ∨ c = 0x80 ∨ c = s.cfg.ccUnsupported →
      ∃ i t, isCommand i = true ∧ exec i s = .next t ∧ t.buf.read 10 = c)

/-- spec/43_control_commands.md R183, spec/44_transmitter.md R218, spec/70_reset_and_hazards.md R301: with nothing else
to send, `PROCESS` of an accepted Assign Endpoint ID with unlimited capacity sends the whole response, which reports the
old address, and then installs the new one. -/
def Obligations.AssignmentTakesEffectAfterItsResponse : Prop :=
  ∀ s : State, Inv s → s.fs = .awaitingResponse → s.act = .none → s.evtPend = false →
    s.buf.read 9 = s.cfg.codes.assignEid → (s.buf.read 10).extractLsb' 0 4 ≠ (0x2 : BitVec 4) →
    (s.buf.read 10).extractLsb' 0 4 ≠ (0x3 : BitVec 4) → s.buf.read 11 ≠ 0x00 → s.buf.read 11 ≠ 0xFF →
    ∃ t, exec (.process .inf) s = .next t ∧ IsResponse [0x00, 0x00, s.eid, 0x00] s t ∧
      t = { s with
        buf := t.buf, fs := .waitSync, eid := s.buf.read 11, eidNext := 0x00
        txout := s.txout ++ wireForm (bytesAt t.buf 0 17) }

/-- spec/43_control_commands.md R190: the request/response cycle. The wire form of a well-formed Get Endpoint ID request
to an admitted address, then `PROCESS` with unlimited capacity: its response is sent, with the addresses swapped, and
the framer is idle again. -/
def Obligations.AddressRequestIsAnswered : Prop :=
  ∀ (s : State) (frame : List Byte), Inv s → s.fs = .waitSync → s.act = .none → s.evtPend = false →
    IsFrame frame → 13 ≤ frame.length → (frame.getD 2 0).toNat + 8 ≤ s.cfg.bufCap → checksumRight s.cfg frame →
    (frame.getD 4 0 = 0x00 ∨ frame.getD 4 0 = 0xFF ∨ frame.getD 4 0 = s.eid) →
    frame.getD 9 0 = s.cfg.codes.getEid →
    ∃ t, runInstrs (feed (.fin 0) (wireForm frame) ++ [.process .inf]) s = .next t ∧
      t.fs = .waitSync ∧ t.act = .none ∧ t.eid = s.eid ∧
      bytesAt t.buf 0 13 = [0x7E, frame.getD 1 0, 0x0A, frame.getD 3 0, frame.getD 5 0, frame.getD 4 0,
        (frame.getD 6 0 ^^^ 0x08) ||| 0xC0, frame.getD 7 0, frame.getD 8 0 &&& 0x7F, frame.getD 9 0,
        0x00, s.eid, 0x00] ∧
      checksumRight s.cfg (bytesAt t.buf 0 16) ∧
      t.txout = s.txout ++ wireForm (bytesAt t.buf 0 16)

/-! ### Transmitter -/

/-- spec/44_transmitter.md R211, R212, R213: with no slot active a drain first selects, for every capacity: a pending
event, else a response awaiting send, else nothing. -/
def Obligations.DrainSelectsTheSlot : Prop :=
  ∀ (s : State) (cap : Cap), Inv s → s.act = .none →
    (s.cfg.eventEnabled = true → s.evtPend = true →
      exec (.drain cap) s = exec (.drain cap) { s with
        act := .event, es := { len := (s.ebuf.read 2).setWidth 9 + 6, idx := 0, escp := false, pend := 0x00 } }) ∧
    (¬ (s.cfg.eventEnabled = true ∧ s.evtPend = true) → s.fs = .sendingResponse →
      exec (.drain cap) s = exec (.drain cap) { s with
        act := .primary, ps := { len := (s.buf.read 2).setWidth 9 + 6, idx := 0, escp := false, pend := 0x00 } }) ∧
    (¬ (s.cfg.eventEnabled = true ∧ s.evtPend = true) → s.fs ≠ .sendingResponse →
      exec (.drain cap) s = .next { s with results := s.results ++ [.nat 0] })

/-- spec/44_transmitter.md R210, R220: a drain sends the next wire bytes of the active slot's frame, as many as the
capacity lets through, and returns their number. While bytes are left the slot stays active and nothing but its
registers, `TXOUT` and the results changes. -/
def Obligations.DrainSendsTheNextWireBytes : Prop :=
  ∀ (s : State) (cap : Cap), Inv s → s.act ≠ .none →
    ∃ t, exec (.drain cap) s = .next t ∧ t.txout = s.txout ++ takeCap cap (activeWire s) ∧
      t.results = s.results ++ [.nat (takeCap cap (activeWire s)).length] ∧
      (takeCap cap (activeWire s) = activeWire s → t.act = .none) ∧
      (takeCap cap (activeWire s) ≠ activeWire s →
        t = { withActiveSlot (activeSlot t) s with txout := t.txout, results := t.results } ∧
        activeWire s = takeCap cap (activeWire s) ++ activeWire t)

/-- spec/44_transmitter.md R214, R215, R216: one byte of the sending loop on either slot, not the frame's last: an
escape continuation; a byte sent raw; the two bytes of an escape sequence, together or cut after the first. -/
def Obligations.DrainOfOneByte : Prop :=
  ∀ s : State, Inv s → s.act ≠ .none → (activeSlot s).idx.toNat + 1 < (activeSlot s).len.toNat →
    ((activeSlot s).escp = true →
      exec (.drain (.fin 1)) s = .next { withActiveSlot { activeSlot s with
          escp := false, idx := (activeSlot s).idx + 1 } s with
        txout := s.txout ++ [(activeSlot s).pend], results := s.results ++ [.nat 1] }) ∧
    (∀ i b l, i = (activeSlot s).idx.toNat → b = (activeBuffer s).read i → l = ((activeBuffer s).read 2).toNat →
      (activeSlot s).escp = false →
      (i < 3 ∨ l + 3 ≤ i ∨ (b ≠ 0x7E ∧ b ≠ 0x7D) →
        exec (.drain (.fin 1)) s = .next { withActiveSlot { activeSlot s with idx := (activeSlot s).idx + 1 } s with
          txout := s.txout ++ [b], results := s.results ++ [.nat 1] }) ∧
      (3 ≤ i → i < l + 3 → b = 0x7E ∨ b = 0x7D →
        exec (.drain (.fin 1)) s = .next { withActiveSlot { activeSlot s with escp := true, pend := b - 0x20 } s with
          txout := s.txout ++ [0x7D], results := s.results ++ [.nat 1] } ∧
        exec (.drain (.fin 2)) s = .next { withActiveSlot { activeSlot s with idx := (activeSlot s).idx + 1 } s with
          txout := s.txout ++ [0x7D, b - 0x20], results := s.results ++ [.nat 2] }))

/-- spec/44_transmitter.md R218: completion of the primary slot, with the deferred Assign Endpoint ID commit. -/
def Obligations.PrimaryCompletion : Prop :=
  ∀ (s : State) (cap : Cap), Inv s → s.act = .primary → takeCap cap (activeWire s) = activeWire s →
    exec (.drain cap) s = .next { s with
      ps := { len := 0, idx := 0, escp := false, pend := 0x00 }, act := .none, fs := .waitSync
      eid := if s.eidUpd then s.eidNext else s.eid
      eidUpd := false
      eidNext := if s.eidUpd then 0x00 else s.eidNext
      txout := s.txout ++ activeWire s, results := s.results ++ [.nat (activeWire s).length] }

/-- spec/44_transmitter.md R219: completion of the event slot. -/
def Obligations.EventCompletion : Prop :=
  ∀ (s : State) (cap : Cap), Inv s → s.act = .event → takeCap cap (activeWire s) = activeWire s →
    exec (.drain cap) s = .next { s with
      es := { len := 0, idx := 0, escp := false, pend := 0x00 }, act := .none, evtPend := false
      txout := s.txout ++ activeWire s, results := s.results ++ [.nat (activeWire s).length] }

/-- spec/30_encoding.md R87, spec/44_transmitter.md R212, R213: a slot just activated has the whole wire form of its
frame to send. -/
def Obligations.FreshSlotSendsTheWireForm : Prop :=
  ∀ m : Memory, wireRest m (Slot.activated (m.read 2)) = wireForm (bytesAt m 0 (bodyLength m + 6))

/-- spec/44_transmitter.md R225: whichever operations run the drain steps and whatever their capacities, up to and
including the completing one, they emit what one drain with unlimited capacity emits, from activation the wire form of
the frame. Where they are only `DRAIN`s and `UPDATE`s without a byte, they leave the same state but for the results. -/
def Obligations.PartialSendsEqualOneSend : Prop :=
  ∀ (s u t : State) (is : List Instr) (i : Instr), Inv s → s.act ≠ .none →
    runWhileActive is s = some u → i ≠ .init → exec i u = .next t → t.act = .none →
    ∃ v, exec (.drain .inf) s = .next v ∧ v.act = .none ∧ v.txout = s.txout ++ activeWire s ∧ t.txout = v.txout ∧
      (activeSlot s = Slot.activated ((activeBuffer s).read 2) →
        v.txout = s.txout ++ wireForm (bytesAt (activeBuffer s) 0 (bodyLength (activeBuffer s) + 6))) ∧
      ((∀ j ∈ is ++ [i], ∃ cap, j = .drain cap ∨ j = .update none cap) → t = { v with results := t.results })

/-- spec/44_transmitter.md R223, R224: under any mix of operations but `INIT`, a slot stays active until it completes,
and what is emitted meanwhile is the wire form it had to send, in order and with nothing of the other slot. -/
def Obligations.FramesAreNeverInterleaved : Prop :=
  ∀ (s u : State) (is : List Instr), Inv s → s.act ≠ .none → runWhileActive is s = some u →
    (∃ sent, u.txout = s.txout ++ sent ∧ activeWire s = sent ++ activeWire u) ∧
    ∀ i t, i ≠ .init → exec i u = .next t → t.act ≠ s.act → t.act = .none ∧ t.txout = s.txout ++ activeWire s

/-- spec/20_memory.md R72, spec/45_host_interface.md R240: `TXOUT` only grows, and by no more than the operation's
capacity. -/
def Obligations.OutputOnlyGrows : Prop :=
  ∀ (s t : State) (i : Instr), exec i s = .next t →
    ∃ out, t.txout = s.txout ++ out ∧ takeCap (capacityOf i) out = out

/-- spec/45_host_interface.md R248: what `DRAIN`, and `PROCESS` beside its response, leave unchanged; `DRAIN` changes no
byte of either buffer, `PROCESS` none of `EBUF`. -/
def Obligations.FrameOfDrainAndProcess : Prop :=
  ∀ (s t : State) (cap : Cap),
    (exec (.drain cap) s = .next t → t = { s with
      fs := t.fs, eid := t.eid, eidUpd := t.eidUpd, eidNext := t.eidNext, act := t.act, ps := t.ps, es := t.es
      evtPend := t.evtPend, txout := t.txout, results := t.results }) ∧
    (exec (.process cap) s = .next t → t = { s with
      buf := t.buf, fs := t.fs, eid := t.eid, eidUpd := t.eidUpd, eidNext := t.eidNext, act := t.act, ps := t.ps
      es := t.es, evtPend := t.evtPend, txout := t.txout, freeCount := t.freeCount })

/-- spec/70_reset_and_hazards.md R300, spec/44_transmitter.md R217: from any busy sending state, a host that calls
`UPDATE` or `DRAIN` with room, with inbound bytes or without, gets the endpoint listening again within 1044 of them: two
frames of at most 261 bytes, each byte at most two on the wire, and an event goes first. -/
def Obligations.DrainingEndsTheResponse : Prop :=
  ∀ (s : State) (is : List Instr), Inv s → s.fs = .sendingResponse →
    (∀ i ∈ is, ∃ cap, cap ≠ .fin 0 ∧ (i = .drain cap ∨ ∃ rx, i = .update rx cap)) → 1044 ≤ is.length →
    ∃ k t, k ≤ is.length ∧ runInstrs (is.take k) s = .next t ∧ t.fs = .waitSync ∧ t.act = .none

/-! ### Event slot and queries -/

/-- spec/44_transmitter.md R221: feature, occupancy, capacity and form decide, in this order. -/
def Obligations.EnqueueCopiesTheFrame : Prop :=
  ∀ (s : State) (bytes : List Byte), Running s → s.ebuf.wf = true →
    (s.cfg.eventEnabled = false ∨ s.evtPend = true ∨ s.cfg.evtCap < bytes.length →
      exec (.enq bytes) s = .next { s with results := s.results ++ [.bool false] }) ∧
    (s.cfg.eventEnabled = true → s.evtPend = false → bytes.length ≤ s.cfg.evtCap →
      (bytes.length < 3 ∨ (bytes.getD 2 0).toNat + 6 ≠ bytes.length →
        exec (.enq bytes) s = .fault .malformedEvent) ∧
      (3 ≤ bytes.length → (bytes.getD 2 0).toNat + 6 = bytes.length →
        ∃ t, exec (.enq bytes) s = .next t ∧
          (∀ a, t.ebuf.read a = if a < bytes.length then bytes.getD a 0 else s.ebuf.read a) ∧
          t = { s with ebuf := t.ebuf, evtPend := true, results := s.results ++ [.bool true] }))

/-- spec/45_host_interface.md R243, R244, R245, spec/44_transmitter.md R222: the queries write nothing; the event queue
is always empty with the feature off. -/
def Obligations.QueriesAnswer : Prop :=
  ∀ s : State, Running s →
    exec .pktavail s = .next { s with results := s.results ++ [.bool (decide (s.fs = .awaitingResponse))] } ∧
    exec .isctrl s = .next { s with
      results := s.results ++ [.bool (decide (s.fs = .awaitingResponse ∧ (s.buf.read 7).toNat % 16 = 0x0))] } ∧
    exec .isalt s = .next { s with
      results := s.results ++ [.bool (decide (s.fs = .awaitingResponse ∧ (s.buf.read 7).toNat % 16 = 0x1))] } ∧
    exec .evqempty s = .next { s with results := s.results ++ [.bool (decide (s.evtPend = false))] } ∧
    (Inv s → s.cfg.eventEnabled = false →
      exec .evqempty s = .next { s with results := s.results ++ [.bool true] })

/-- spec/45_host_interface.md R246: `IGNORE` drops an available packet and is a no-op in every other state. -/
def Obligations.IgnoreDropsThePacket : Prop :=
  ∀ s : State, Running s →
    (s.fs = .awaitingResponse → exec .ignore s = .next { s with fs := .waitSync }) ∧
    (s.fs ≠ .awaitingResponse → exec .ignore s = .next s)

/-! ### The machine as a whole -/

/-- spec/10_state.md R40 to R45: every step keeps the invariant, whatever word it fetches. -/
def Obligations.StepKeepsTheInvariant : Prop :=
  ∀ s t : State, Inv s → step s = .next t → Inv t

/-- spec/41_receive_framer.md R139, spec/43_control_commands.md R188: every step keeps what `BUF` holds: a packet that
is available is an admitted frame, and a response that is sent is a frame the validator accepts. Up to 246 types
(log 9). -/
def Obligations.StepKeepsTheHeldFrame : Prop :=
  ∀ s t : State, Inv s → FrameHeld s → s.cfg.supportedTypes.length ≤ 246 → step s = .next t → FrameHeld t

/-- spec/10_state.md R25: `EID` is written only by `INIT` and by the commit of an accepted Assign Endpoint ID when its
response has been sent, which one `PROCESS` can do whole; it never becomes 0xFF, and 0x00 only by `INIT`. -/
def Obligations.OnlyInitAndTheCommitWriteTheAddress : Prop :=
  ∀ (s t : State) (i : Instr), Inv s → exec i s = .next t → t.eid ≠ s.eid →
    t.eid ≠ 0xFF ∧ (t.eid = 0x00 → i = .init) ∧
    (i = .init ∨ (t.act = .none ∧ t.fs = .waitSync ∧ t.eidUpd = false ∧
      ((s.eidUpd = true ∧ t.eid = s.eidNext) ∨
        (s.fs = .awaitingResponse ∧ s.buf.read 9 = s.cfg.codes.assignEid ∧ t.eid = s.buf.read 11 ∧
          ∃ cap, i = .process cap))))

/-! ### Decoding and the step -/

/-- Decode and encode agree for every well-formed instruction and every distinct choice of command codes
(spec/30_encoding.md R80, R89, R91, R93). -/
def Obligations.DecodeOfEncodeIsTheInstruction : Prop :=
  ∀ (codes : CommandCodes) (i : Instr), codes.distinct = true → i.wf codes = true →
    decode codes (encode codes i) = .ok i

/-- spec/30_encoding.md R93, R95: every selector is covered by exactly one row of the table, the row of the instruction
it decodes to, whatever its operands. spec/30_encoding.md R91 with the default codes, which are PRESUMED (log 17) and no
value of the source: a command code is covered by the row of its command, or by none of the four. -/
def Obligations.EachWordHasOneRow : Prop :=
  (∀ r : HostRequest,
    (hostRows.filter (·.covers r.sel.toNat)).map (·.mnemonic) = [(decodeHost r).mnemonic]) ∧
  (∀ code p0 p1 : Byte,
    (commandRows.filter (·.covers code.toNat)).map (·.mnemonic) =
      if CommandCodes.default.names code then [(decodeCommand CommandCodes.default code p0 p1).mnemonic] else [])

/-- Words written out from the spec's encodings (spec/30_encoding.md R80, R89, R91, R93, R95). The model's choices in
them: which format a bare 4-bit or 8-bit table word has (log 4), which byte of a 16-bit one is first on the link (log 5),
host operands as a record (log 3), and the command codes, the PRESUMED defaults (log 17). -/
def Obligations.WrittenOutWordsDecode : Prop :=
  decodeTableWord 4 0b0000 = some .init ∧
  decode CommandCodes.default (.host { sel := 0b0001, rx := some 0x7E, cap := .inf }) =
    .ok (.update (some 0x7E) .inf) ∧
  decode CommandCodes.default (.host { sel := 0b1000, bytes := [0x7E] }) = .ok (.enq [0x7E]) ∧
  decode CommandCodes.default (.command 0x01 0xF1 0x22) = .ok (.cmdAssignEid 0x1 0x22) ∧
  decode CommandCodes.default (.command 0x04 0xFF 0x00) = .ok (.cmdGetVersion 0xFF) ∧
  decode CommandCodes.default (.command 0x03 0x00 0x00) = .ok (.cmdUnsupported 0x03) ∧
  decodeTableWord 8 0x7E = some .sof ∧
  decodeTableWord 16 0x7D5E = some .esc7e ∧
  decodeTableWord 16 0x7D5D = some .esc7d ∧
  decodeTableWord 16 0x7D7D = none ∧
  decodeTableWord 4 0b1011 = some (.reservedHostAB 1)

/-- A step runs the decoded instruction: the oldest presented word is taken and executed (the queue is the model's
choice, log 1); with nothing presented the state is held (spec/60_exceptions.md R288). Bytes on the link, whether the
decoder reads a symbol from them or rejects them, are received one by one under the guard of an operation, and from a
reachable state they always are (presenting them outside an `UPDATE` is the model's choice, log 2 and log 14; what each
does is spec/41_receive_framer.md R130). A rejected word is such bytes. -/
def Obligations.StepRunsTheDecodedInstruction : Prop :=
  ∀ s : State,
    (s.pending = [] → step s = .next s) ∧
    (∀ w rest i, s.pending = w :: rest → decode s.cfg.codes w = .ok i → step s = exec i { s with pending := rest }) ∧
    (∀ w rest e, s.pending = w :: rest → decode s.cfg.codes w = .error e → ∃ bytes, w = .wire bytes) ∧
    (∀ bytes rest u, s.pending = .wire bytes :: rest → u = { s with pending := rest } →
      step s = execute u (rxSteps bytes u) ∧ (Inv s → ∃ t, rxSteps bytes u = .ok t ∧ step s = .next t)) ∧
    (∀ nbits w i, decode s.cfg.codes (tableWord nbits w) = .ok i → step (s.withFetchWord nbits w) = exec i s)

end
end

