-- ==== Sys2Proof/Laws/Memory.lean ====
section
/-! SUPPORT. What the storage operations do (spec/20_memory.md R60): a read after a write, the canonical form and the
size kept, and what reads and writes of `BUF` and `EBUF` inside their space answer. -/

namespace Sys2Proof.Machine

/-! ### Read and write of a list of cells -/

@[simp] theorem Memory.read_nil (i : Nat) : Memory.read [] i = unlistedByte := rfl

theorem Memory.read_of_wfAbove {m : Memory} {low i : Nat} (h : Memory.wfAbove low m = true) (hi : i < low) :
    m.read i = unlistedByte := by
  induction m generalizing low with
  | nil => rfl
  | cons c rest ih =>
    simp only [Memory.wfAbove, Bool.and_eq_true, decide_eq_true_eq] at h
    have : c.1 ≠ i := by omega
    simp only [Memory.read, if_neg this]
    exact ih h.2 (by omega)

theorem Memory.wfAbove_mono {m : Memory} {low high : Nat} (h : Memory.wfAbove high m = true) (hl : low ≤ high) :
    Memory.wfAbove low m = true := by
  cases m with
  | nil => rfl
  | cons c rest =>
    simp only [Memory.wfAbove, Bool.and_eq_true, decide_eq_true_eq] at h ⊢
    exact ⟨⟨by omega, h.1.2⟩, h.2⟩

theorem Memory.read_write_above {m : Memory} {low : Nat} (h : Memory.wfAbove low m = true) (i j : Nat) (v : Byte) :
    (m.write i v).read j = if j = i then v else m.read j := by
  induction m generalizing low with
  | nil =>
    by_cases hv : v = unlistedByte
    · simp [Memory.write, hv]
    · simp [Memory.write, hv, Memory.read, eq_comm]
  | cons c rest ih =>
    obtain ⟨a, u⟩ := c
    simp only [Memory.wfAbove, Bool.and_eq_true, decide_eq_true_eq] at h
    have hrest := fun k (hk : k < a + 1) => Memory.read_of_wfAbove h.2 hk
    simp only [Memory.write]
    by_cases hai : a < i
    · simp only [if_pos hai, Memory.read, ih h.2]
      by_cases haj : a = j
      · simp only [if_pos haj]; rw [if_neg (by omega)]
      · simp only [if_neg haj]
    · simp only [if_neg hai]
      by_cases he : a = i
      · subst he
        by_cases hv : v = unlistedByte
        · simp only [if_pos hv, if_true, Memory.read]
          by_cases haj : j = a
          · subst haj; simp [hrest j (by omega), hv]
          · rw [if_neg haj, if_neg (Ne.symm haj)]
        · simp only [if_neg hv, if_true, Memory.read]
          by_cases haj : j = a
          · subst haj; simp
          · rw [if_neg haj, if_neg (Ne.symm haj), if_neg (Ne.symm haj)]
      · simp only [if_neg he]
        by_cases hv : v = unlistedByte
        · simp only [if_pos hv, Memory.read]
          by_cases hj : j = i
          · subst hj; rw [if_neg he, if_pos rfl, hrest j (by omega), hv]
          · rw [if_neg hj]
        · simp only [if_neg hv, Memory.read]
          by_cases hj : j = i
          · subst hj; simp
          · rw [if_neg (Ne.symm hj), if_neg hj]

/-- A read after a write: the byte written at its offset, every other byte as before. -/
theorem Memory.read_write {m : Memory} (h : m.wf = true) (i j : Nat) (v : Byte) :
    (m.write i v).read j = if j = i then v else m.read j :=
  Memory.read_write_above h i j v

theorem Memory.wfAbove_write {m : Memory} {low : Nat} (h : Memory.wfAbove low m = true) {i : Nat} (hi : low ≤ i)
    (v : Byte) : Memory.wfAbove low (m.write i v) = true := by
  induction m generalizing low with
  | nil => by_cases hv : v = unlistedByte <;> simp [Memory.write, Memory.wfAbove, hv, hi]
  | cons c rest ih =>
    obtain ⟨a, u⟩ := c
    have h' := h
    simp only [Memory.wfAbove, Bool.and_eq_true, decide_eq_true_eq] at h
    simp only [Memory.write]
    by_cases hai : a < i
    · simp only [if_pos hai, Memory.wfAbove, Bool.and_eq_true, decide_eq_true_eq]
      exact ⟨h.1, ih h.2 (by omega)⟩
    · simp only [if_neg hai]
      by_cases he : a = i
      · simp only [if_pos he]
        by_cases hv : v = unlistedByte
        · simpa only [if_pos hv] using Memory.wfAbove_mono h.2 (by omega)
        · simp only [if_neg hv, Memory.wfAbove, Bool.and_eq_true, decide_eq_true_eq, bne_iff_ne, ne_eq]
          exact ⟨⟨hi, hv⟩, he ▸ h.2⟩
      · simp only [if_neg he]
        by_cases hv : v = unlistedByte
        · simpa only [if_pos hv] using h'
        · simp only [if_neg hv, Memory.wfAbove, Bool.and_eq_true, decide_eq_true_eq, bne_iff_ne, ne_eq]
          exact ⟨⟨hi, hv⟩, ⟨⟨by omega, by simpa using h.1.2⟩, h.2⟩⟩

/-- Every write keeps the canonical form. -/
theorem Memory.wf_write {m : Memory} (h : m.wf = true) (i : Nat) (v : Byte) : (m.write i v).wf = true :=
  Memory.wfAbove_write h (Nat.zero_le i) v

/-- A write inside a space keeps every cell inside it. -/
theorem Memory.within_write {m : Memory} {size : Nat} (h : m.within size = true) {i : Nat} (hi : i < size) (v : Byte) :
    (m.write i v).within size = true := by
  induction m with
  | nil => by_cases hv : v = unlistedByte <;> simp [Memory.write, Memory.within, hv, hi]
  | cons c rest ih =>
    obtain ⟨a, u⟩ := c
    simp only [Memory.within, List.all_cons, Bool.and_eq_true, decide_eq_true_eq] at h ih
    simp only [Memory.write]
    by_cases hai : a < i
    · simp only [if_pos hai, Memory.within, List.all_cons, Bool.and_eq_true, decide_eq_true_eq]
      exact ⟨h.1, ih h.2⟩
    · simp only [if_neg hai]
      by_cases he : a = i <;> by_cases hv : v = unlistedByte <;>
        simp only [he, hv, if_true, if_false, Memory.within, List.all_cons, Bool.and_eq_true, decide_eq_true_eq] <;>
        first | exact h.2 | exact ⟨hi, h.2⟩ | exact h | exact ⟨hi, h⟩

/-- The reset memory is canonical. -/
theorem Memory.wf_nil : Memory.wf [] = true := rfl

/-! ### Accesses inside a space -/

theorem memRead_ok {size : Nat} {m : Memory} {i : Nat} (h : i < size) : memRead size m i = .ok (m.read i) := by
  simp [memRead, h]

theorem memRead_eq_ok {size : Nat} {m : Memory} {i : Nat} {b : Byte} :
    memRead size m i = .ok b ↔ i < size ∧ b = m.read i := by
  unfold memRead; split <;> simp_all [eq_comm]

theorem readBuf_ok {s : State} {i : Nat} (h : i < s.cfg.bufCap) : readBuf s i = .ok (s.buf.read i) := memRead_ok h

theorem readEbuf_ok {s : State} {i : Nat} (h : i < s.cfg.evtCap) : readEbuf s i = .ok (s.ebuf.read i) := memRead_ok h

theorem readBuf_eq_ok {s : State} {i : Nat} {b : Byte} :
    readBuf s i = .ok b ↔ i < s.cfg.bufCap ∧ b = s.buf.read i := memRead_eq_ok

theorem readEbuf_eq_ok {s : State} {i : Nat} {b : Byte} :
    readEbuf s i = .ok b ↔ i < s.cfg.evtCap ∧ b = s.ebuf.read i := memRead_eq_ok

theorem writeBuf_ok {s : State} {i : Nat} (h : i < s.cfg.bufCap) (v : Byte) :
    writeBuf i v s = .ok { s with buf := s.buf.write i v } := by
  simp [writeBuf, memWrite, h]

theorem writeEbuf_ok {s : State} {i : Nat} (h : i < s.cfg.evtCap) (v : Byte) :
    writeEbuf i v s = .ok { s with ebuf := s.ebuf.write i v } := by
  simp [writeEbuf, memWrite, h]

/-- Everything a store to `BUF` can do. -/
theorem writeBuf_eq_ok {s t : State} {i : Nat} {v : Byte} :
    writeBuf i v s = .ok t ↔ i < s.cfg.bufCap ∧ t = { s with buf := s.buf.write i v } := by
  by_cases h : i < s.cfg.bufCap <;> simp [writeBuf, memWrite, h, eq_comm]

/-- Everything a store to `EBUF` can do. -/
theorem writeEbuf_eq_ok {s t : State} {i : Nat} {v : Byte} :
    writeEbuf i v s = .ok t ↔ i < s.cfg.evtCap ∧ t = { s with ebuf := s.ebuf.write i v } := by
  by_cases h : i < s.cfg.evtCap <;> simp [writeEbuf, memWrite, h, eq_comm]

/-- The only fault of a store. -/
theorem writeBuf_error {s : State} {i : Nat} {v : Byte} {f : Fault} (h : writeBuf i v s = .error f) :
    f = .bufferBounds := by
  by_cases hi : i < s.cfg.bufCap <;> simp_all [writeBuf, memWrite, eq_comm]

/-- Sequencing answers exactly when both parts answer. -/
theorem except_bind_eq_ok {ε α β : Type} {x : Except ε α} {f : α → Except ε β} {r : β} :
    (x >>= f) = .ok r ↔ ∃ a, x = .ok a ∧ f a = .ok r := by
  cases x <;> simp [bind, Except.bind]

@[simp] theorem except_bind_ok {ε α β : Type} (a : α) (f : α → Except ε β) : ((.ok a : Except ε α) >>= f) = f a := rfl

@[simp] theorem except_bind_error {ε α β : Type} (e : ε) (f : α → Except ε β) :
    ((.error e : Except ε α) >>= f) = .error e := rfl

/-! ### Ranges -/

theorem bytesAt_succ (m : Memory) (i n : Nat) : bytesAt m i (n + 1) = m.read i :: bytesAt m (i + 1) n := by
  simp [bytesAt, List.range'_succ]

@[simp] theorem bytesAt_length (m : Memory) (i n : Nat) : (bytesAt m i n).length = n := by simp [bytesAt]

theorem bytesAt_congr {m m' : Memory} {i n : Nat} (h : ∀ a, i ≤ a → a < i + n → m.read a = m'.read a) :
    bytesAt m i n = bytesAt m' i n := by
  refine List.map_congr_left fun a ha => ?_
  rw [List.mem_range'_1] at ha
  exact h a ha.1 ha.2

theorem readBufRange_ok {s : State} {i n : Nat} (h : i + n ≤ s.cfg.bufCap) :
    readBufRange s i n = .ok (bytesAt s.buf i n) := by
  induction n generalizing i with
  | zero => simp [readBufRange, bytesAt]
  | succ n ih =>
    simp [readBufRange, readBuf_ok (s := s) (i := i) (by omega), ih (i := i + 1) (by omega), bytesAt_succ]

/-- The bytes of a buffer after a list is written from offset `i` upward. -/
def Memory.writeAll : Memory → Nat → List Byte → Memory
  | m, _, [] => m
  | m, i, b :: bs => Memory.writeAll (m.write i b) (i + 1) bs

theorem Memory.wf_writeAll {m : Memory} (h : m.wf = true) (i : Nat) (bs : List Byte) : (m.writeAll i bs).wf = true := by
  induction bs generalizing m i with
  | nil => exact h
  | cons b bs ih => exact ih (Memory.wf_write h i b) (i + 1)

theorem Memory.within_writeAll {m : Memory} {size : Nat} (h : m.within size = true) {i : Nat} {bs : List Byte}
    (hi : i + bs.length ≤ size) : (m.writeAll i bs).within size = true := by
  induction bs generalizing m i with
  | nil => exact h
  | cons b bs ih =>
    simp only [List.length_cons] at hi
    exact ih (Memory.within_write h (by omega) b) (by omega)

theorem Memory.read_writeAll {m : Memory} (h : m.wf = true) (i : Nat) (bs : List Byte) (a : Nat) :
    (m.writeAll i bs).read a = if i ≤ a ∧ a < i + bs.length then bs.getD (a - i) 0 else m.read a := by
  induction bs generalizing m i with
  | nil => simp [Memory.writeAll]
  | cons b bs ih =>
    simp only [Memory.writeAll, ih (Memory.wf_write h i b), Memory.read_write h, List.length_cons]
    by_cases ha : a = i
    · subst ha; simp
    · by_cases hlt : i + 1 ≤ a ∧ a < i + 1 + bs.length
      · have : a - i = (a - (i + 1)) + 1 := by omega
        rw [if_pos hlt, if_pos (by omega), this, List.getD_cons_succ]
      · rw [if_neg hlt, if_neg ha, if_neg (by omega)]

theorem writeBufRange_ok {s : State} {i : Nat} {bs : List Byte} (h : i + bs.length ≤ s.cfg.bufCap) :
    writeBufRange i bs s = .ok { s with buf := s.buf.writeAll i bs } := by
  induction bs generalizing s i with
  | nil => rfl
  | cons b bs ih =>
    simp only [List.length_cons] at h
    simp only [writeBufRange, writeBuf_ok (s := s) (i := i) (by omega), except_bind_ok]
    rw [ih (s := { s with buf := s.buf.write i b }) (by simpa using by omega)]
    rfl

theorem writeEbufRange_ok {s : State} {i : Nat} {bs : List Byte} (h : i + bs.length ≤ s.cfg.evtCap) :
    writeEbufRange i bs s = .ok { s with ebuf := s.ebuf.writeAll i bs } := by
  induction bs generalizing s i with
  | nil => rfl
  | cons b bs ih =>
    simp only [List.length_cons] at h
    simp only [writeEbufRange, writeEbuf_ok (s := s) (i := i) (by omega), except_bind_ok]
    rw [ih (s := { s with ebuf := s.ebuf.write i b }) (by simpa using by omega)]
    rfl

/-- Everything a ranged store to `BUF` can do. -/
theorem writeBufRange_eq_ok {s t : State} {i : Nat} {bs : List Byte} (h : writeBufRange i bs s = .ok t) :
    t = { s with buf := s.buf.writeAll i bs } := by
  induction bs generalizing s i with
  | nil => simpa [writeBufRange, Memory.writeAll, eq_comm] using h
  | cons b bs ih =>
    obtain ⟨u, hu, ht⟩ := except_bind_eq_ok.1 h
    obtain ⟨-, rfl⟩ := writeBuf_eq_ok.1 hu
    exact ih ht

/-- Everything a ranged store to `EBUF` can do. -/
theorem writeEbufRange_eq_ok {s t : State} {i : Nat} {bs : List Byte} (h : writeEbufRange i bs s = .ok t) :
    t = { s with ebuf := s.ebuf.writeAll i bs } := by
  induction bs generalizing s i with
  | nil => simpa [writeEbufRange, Memory.writeAll, eq_comm] using h
  | cons b bs ih =>
    obtain ⟨u, hu, ht⟩ := except_bind_eq_ok.1 h
    obtain ⟨-, rfl⟩ := writeEbuf_eq_ok.1 hu
    exact ih ht

end Sys2Proof.Machine
end

