-- ==== Sys2Proof/Laws/Checksum.lean ====
section
/-! SUPPORT. What the checksum engine and the validator answer on a buffer in bounds (spec/40_checksum.md,
spec/42_frame_validator.md). -/

namespace Sys2Proof.Machine

theorem bufChecksum_ok {s : State} {n : Nat} (h : 1 + n ≤ s.cfg.bufCap) :
    bufChecksum s n = .ok (ck s.cfg s.cfg.ckSeed (bytesAt s.buf 1 n)) := by
  simp [bufChecksum, readBufRange_ok h]

/-- The three checks on a frame of `n` bytes inside the buffer. -/
theorem valid_ok {s : State} {n : Nat} (h : n ≤ s.cfg.bufCap) :
    valid n s = .ok (decide (11 ≤ n) && decide (bodyLength s.buf = n - 6) &&
      (ck s.cfg s.cfg.ckSeed (bytesAt s.buf 1 (n - 4)) == half (s.buf.read (n - 3)) (s.buf.read (n - 2)))) := by
  unfold valid
  by_cases h11 : n < 11
  · simp [h11, show ¬ 11 ≤ n by omega]
  · rw [if_neg h11, readBuf_ok (by omega), except_bind_ok]
    by_cases hl : (s.buf.read 2).toNat = n - 6
    · rw [if_neg (by simpa using hl), bufChecksum_ok (by omega), except_bind_ok, readBuf_ok (by omega), except_bind_ok,
        readBuf_ok (by omega), except_bind_ok]
      simp [bodyLength, hl, show 11 ≤ n by omega]
    · rw [if_pos hl]
      simp [bodyLength, hl]

/-- A frame the validator accepts has the length its byte 2 says, and at least 11 bytes. -/
theorem valid_true {s : State} {n : Nat} (hn : n ≤ s.cfg.bufCap) (h : valid n s = .ok true) :
    11 ≤ n ∧ bodyLength s.buf + 6 = n := by
  rw [valid_ok hn] at h
  simp only [Except.ok.injEq, Bool.and_eq_true, decide_eq_true_eq] at h
  omega

theorem accepted_ok {s : State} (h : s.rxIdx ≤ s.cfg.bufCap) :
    ∃ ok, accepted s = .ok ok ∧ (ok = true ↔ valid s.rxIdx s = .ok true ∧ addressed (s.buf.read 4) s = true) := by
  unfold accepted
  rw [valid_ok h, except_bind_ok]
  by_cases hv : (decide (11 ≤ s.rxIdx) && decide (bodyLength s.buf = s.rxIdx - 6) &&
      (ck s.cfg s.cfg.ckSeed (bytesAt s.buf 1 (s.rxIdx - 4)) ==
        half (s.buf.read (s.rxIdx - 3)) (s.buf.read (s.rxIdx - 2)))) = true
  · rw [if_pos hv]
    have h11 : 11 ≤ s.rxIdx := by
      simp only [Bool.and_eq_true, decide_eq_true_eq] at hv; exact hv.1.1
    rw [readBuf_ok (by omega), except_bind_ok]
    exact ⟨_, rfl, by simp [hv]⟩
  · rw [if_neg hv]
    exact ⟨false, rfl, by simp [hv]⟩

end Sys2Proof.Machine
end

