-- ==== Sys2Proof/Laws/State.lean ====
section
/-! SUPPORT. One lemma per field per named update of the state, and the small lemmas of the slot operations. -/

namespace Sys2Proof.Machine

/-! ### `returning` -/

@[simp] theorem returning_cfg (r : Result) (s : State) : (returning r s).cfg = s.cfg := rfl
@[simp] theorem returning_fs (r : Result) (s : State) : (returning r s).fs = s.fs := rfl
@[simp] theorem returning_rxIdx (r : Result) (s : State) : (returning r s).rxIdx = s.rxIdx := rfl
@[simp] theorem returning_rxCnt (r : Result) (s : State) : (returning r s).rxCnt = s.rxCnt := rfl
@[simp] theorem returning_buf (r : Result) (s : State) : (returning r s).buf = s.buf := rfl
@[simp] theorem returning_eid (r : Result) (s : State) : (returning r s).eid = s.eid := rfl
@[simp] theorem returning_eidUpd (r : Result) (s : State) : (returning r s).eidUpd = s.eidUpd := rfl
@[simp] theorem returning_eidNext (r : Result) (s : State) : (returning r s).eidNext = s.eidNext := rfl
@[simp] theorem returning_act (r : Result) (s : State) : (returning r s).act = s.act := rfl
@[simp] theorem returning_ps (r : Result) (s : State) : (returning r s).ps = s.ps := rfl
@[simp] theorem returning_es (r : Result) (s : State) : (returning r s).es = s.es := rfl
@[simp] theorem returning_evtPend (r : Result) (s : State) : (returning r s).evtPend = s.evtPend := rfl
@[simp] theorem returning_ebuf (r : Result) (s : State) : (returning r s).ebuf = s.ebuf := rfl
@[simp] theorem returning_initDone (r : Result) (s : State) : (returning r s).initDone = s.initDone := rfl
@[simp] theorem returning_faulted (r : Result) (s : State) : (returning r s).faulted = s.faulted := rfl
@[simp] theorem returning_refused (r : Result) (s : State) : (returning r s).refused = s.refused := rfl
@[simp] theorem returning_txout (r : Result) (s : State) : (returning r s).txout = s.txout := rfl
@[simp] theorem returning_transportInits (r : Result) (s : State) :
    (returning r s).transportInits = s.transportInits := rfl
@[simp] theorem returning_results (r : Result) (s : State) : (returning r s).results = s.results ++ [r] := rfl
@[simp] theorem returning_pending (r : Result) (s : State) : (returning r s).pending = s.pending := rfl
@[simp] theorem returning_freeCount (r : Result) (s : State) : (returning r s).freeCount = s.freeCount := rfl

/-! ### `present` -/

@[simp] theorem present_cfg (w : Word) (s : State) : (present w s).cfg = s.cfg := rfl
@[simp] theorem present_fs (w : Word) (s : State) : (present w s).fs = s.fs := rfl
@[simp] theorem present_buf (w : Word) (s : State) : (present w s).buf = s.buf := rfl
@[simp] theorem present_pending (w : Word) (s : State) : (present w s).pending = w :: s.pending := rfl

@[simp] theorem fetch_present (w : Word) (s : State) : fetch (present w s) = some (w, s) := rfl

/-! ### `initialise` -/

@[simp] theorem initialise_cfg (s : State) : (initialise s).cfg = s.cfg := rfl
@[simp] theorem initialise_fs (s : State) : (initialise s).fs = .waitSync := rfl
@[simp] theorem initialise_rxIdx (s : State) : (initialise s).rxIdx = 0 := rfl
@[simp] theorem initialise_rxCnt (s : State) : (initialise s).rxCnt = 0 := rfl
@[simp] theorem initialise_buf (s : State) : (initialise s).buf = s.buf := rfl
@[simp] theorem initialise_eid (s : State) : (initialise s).eid = 0x00 := rfl
@[simp] theorem initialise_eidUpd (s : State) : (initialise s).eidUpd = false := rfl
@[simp] theorem initialise_eidNext (s : State) : (initialise s).eidNext = 0x00 := rfl
@[simp] theorem initialise_act (s : State) : (initialise s).act = .none := rfl
@[simp] theorem initialise_ps (s : State) : (initialise s).ps = Slot.zero := rfl
@[simp] theorem initialise_es (s : State) : (initialise s).es = Slot.zero := rfl
@[simp] theorem initialise_evtPend (s : State) : (initialise s).evtPend = false := rfl
@[simp] theorem initialise_ebuf (s : State) : (initialise s).ebuf = s.ebuf := rfl
@[simp] theorem initialise_initDone (s : State) : (initialise s).initDone = true := rfl
@[simp] theorem initialise_faulted (s : State) : (initialise s).faulted = s.faulted := rfl
@[simp] theorem initialise_refused (s : State) : (initialise s).refused = s.refused := rfl
@[simp] theorem initialise_txout (s : State) : (initialise s).txout = s.txout := rfl
@[simp] theorem initialise_transportInits (s : State) :
    (initialise s).transportInits = s.transportInits + 1 := rfl
@[simp] theorem initialise_results (s : State) : (initialise s).results = s.results := rfl
@[simp] theorem initialise_pending (s : State) : (initialise s).pending = s.pending := rfl
@[simp] theorem initialise_freeCount (s : State) : (initialise s).freeCount = s.freeCount := rfl

/-! ### `commitEid` and the completions -/

/-- What the deferred commit writes (spec/44_transmitter.md R218). -/
theorem commitEid_eq (s : State) :
    commitEid s = { s with
      eid := if s.eidUpd then s.eidNext else s.eid
      eidNext := if s.eidUpd then 0x00 else s.eidNext
      eidUpd := false } := by
  cases s with
  | mk _ _ _ _ _ _ upd => cases upd <;> rfl

/-- What primary completion writes (spec/44_transmitter.md R218). -/
theorem completePrimary_eq (s : State) :
    completePrimary s = { s with
      ps := Slot.zero, act := .none, fs := .waitSync
      eid := if s.eidUpd then s.eidNext else s.eid
      eidNext := if s.eidUpd then 0x00 else s.eidNext
      eidUpd := false } := by
  simp [completePrimary, commitEid_eq]

@[simp] theorem completePrimary_cfg (s : State) : (completePrimary s).cfg = s.cfg := by simp [completePrimary_eq]
@[simp] theorem completePrimary_fs (s : State) : (completePrimary s).fs = .waitSync := by simp [completePrimary_eq]
@[simp] theorem completePrimary_rxIdx (s : State) : (completePrimary s).rxIdx = s.rxIdx := by simp [completePrimary_eq]
@[simp] theorem completePrimary_rxCnt (s : State) : (completePrimary s).rxCnt = s.rxCnt := by simp [completePrimary_eq]
@[simp] theorem completePrimary_buf (s : State) : (completePrimary s).buf = s.buf := by simp [completePrimary_eq]
@[simp] theorem completePrimary_ebuf (s : State) : (completePrimary s).ebuf = s.ebuf := by simp [completePrimary_eq]
@[simp] theorem completePrimary_eidUpd (s : State) : (completePrimary s).eidUpd = false := by simp [completePrimary_eq]
@[simp] theorem completePrimary_eid (s : State) :
    (completePrimary s).eid = if s.eidUpd then s.eidNext else s.eid := by simp [completePrimary_eq]
@[simp] theorem completePrimary_act (s : State) : (completePrimary s).act = .none := by simp [completePrimary_eq]
@[simp] theorem completePrimary_ps (s : State) : (completePrimary s).ps = Slot.zero := by simp [completePrimary_eq]
@[simp] theorem completePrimary_es (s : State) : (completePrimary s).es = s.es := by simp [completePrimary_eq]
@[simp] theorem completePrimary_evtPend (s : State) : (completePrimary s).evtPend = s.evtPend := by
  simp [completePrimary_eq]
@[simp] theorem completePrimary_txout (s : State) : (completePrimary s).txout = s.txout := by
  simp [completePrimary_eq]
@[simp] theorem completePrimary_results (s : State) : (completePrimary s).results = s.results := by
  simp [completePrimary_eq]
@[simp] theorem completePrimary_initDone (s : State) : (completePrimary s).initDone = s.initDone := by
  simp [completePrimary_eq]
@[simp] theorem completePrimary_faulted (s : State) : (completePrimary s).faulted = s.faulted := by
  simp [completePrimary_eq]

@[simp] theorem completeEvent_cfg (s : State) : (completeEvent s).cfg = s.cfg := rfl
@[simp] theorem completeEvent_fs (s : State) : (completeEvent s).fs = s.fs := rfl
@[simp] theorem completeEvent_rxIdx (s : State) : (completeEvent s).rxIdx = s.rxIdx := rfl
@[simp] theorem completeEvent_rxCnt (s : State) : (completeEvent s).rxCnt = s.rxCnt := rfl
@[simp] theorem completeEvent_buf (s : State) : (completeEvent s).buf = s.buf := rfl
@[simp] theorem completeEvent_ebuf (s : State) : (completeEvent s).ebuf = s.ebuf := rfl
@[simp] theorem completeEvent_eid (s : State) : (completeEvent s).eid = s.eid := rfl
@[simp] theorem completeEvent_eidUpd (s : State) : (completeEvent s).eidUpd = s.eidUpd := rfl
@[simp] theorem completeEvent_eidNext (s : State) : (completeEvent s).eidNext = s.eidNext := rfl
@[simp] theorem completeEvent_act (s : State) : (completeEvent s).act = .none := rfl
@[simp] theorem completeEvent_ps (s : State) : (completeEvent s).ps = s.ps := rfl
@[simp] theorem completeEvent_es (s : State) : (completeEvent s).es = Slot.zero := rfl
@[simp] theorem completeEvent_evtPend (s : State) : (completeEvent s).evtPend = false := rfl
@[simp] theorem completeEvent_txout (s : State) : (completeEvent s).txout = s.txout := rfl
@[simp] theorem completeEvent_results (s : State) : (completeEvent s).results = s.results := rfl
@[simp] theorem completeEvent_initDone (s : State) : (completeEvent s).initDone = s.initDone := rfl
@[simp] theorem completeEvent_faulted (s : State) : (completeEvent s).faulted = s.faulted := rfl

/-! ### `countBodyByte` -/

@[simp] theorem countBodyByte_cfg (s : State) : (countBodyByte s).cfg = s.cfg := rfl
@[simp] theorem countBodyByte_rxIdx (s : State) : (countBodyByte s).rxIdx = s.rxIdx := rfl
@[simp] theorem countBodyByte_rxCnt (s : State) : (countBodyByte s).rxCnt = s.rxCnt - 1 := rfl
@[simp] theorem countBodyByte_buf (s : State) : (countBodyByte s).buf = s.buf := rfl
@[simp] theorem countBodyByte_fs (s : State) :
    (countBodyByte s).fs = if s.rxCnt - 1 = 0 then .fcs1 else .body := rfl

/-! ### `ignorePacket` and `assignDeferred` -/

@[simp] theorem ignorePacket_buf (s : State) : (ignorePacket s).buf = s.buf := by unfold ignorePacket; split <;> rfl
@[simp] theorem ignorePacket_cfg (s : State) : (ignorePacket s).cfg = s.cfg := by unfold ignorePacket; split <;> rfl
@[simp] theorem ignorePacket_eid (s : State) : (ignorePacket s).eid = s.eid := by unfold ignorePacket; split <;> rfl
@[simp] theorem ignorePacket_act (s : State) : (ignorePacket s).act = s.act := by unfold ignorePacket; split <;> rfl
@[simp] theorem ignorePacket_txout (s : State) : (ignorePacket s).txout = s.txout := by
  unfold ignorePacket; split <;> rfl

@[simp] theorem assignDeferred_cfg (op : BitVec 4) (req : Byte) (s : State) :
    (assignDeferred op req s).cfg = s.cfg := by unfold assignDeferred; split <;> rfl
@[simp] theorem assignDeferred_buf (op : BitVec 4) (req : Byte) (s : State) :
    (assignDeferred op req s).buf = s.buf := by unfold assignDeferred; split <;> rfl
@[simp] theorem assignDeferred_freeCount (op : BitVec 4) (req : Byte) (s : State) :
    (assignDeferred op req s).freeCount = s.freeCount := by unfold assignDeferred; split <;> rfl
@[simp] theorem assignDeferred_eid (op : BitVec 4) (req : Byte) (s : State) :
    (assignDeferred op req s).eid = s.eid := by unfold assignDeferred; split <;> rfl

/-! ### Slots -/

@[simp] theorem Slot.zero_len : Slot.zero.len = 0 := rfl
@[simp] theorem Slot.zero_idx : Slot.zero.idx = 0 := rfl
@[simp] theorem Slot.zero_escp : Slot.zero.escp = false := rfl
@[simp] theorem Slot.zero_pend : Slot.zero.pend = 0x00 := rfl
@[simp] theorem Slot.advance_len (slot : Slot) : slot.advance.len = slot.len := rfl
@[simp] theorem Slot.advance_idx (slot : Slot) : slot.advance.idx = slot.idx + 1 := rfl
@[simp] theorem Slot.advance_escp (slot : Slot) : slot.advance.escp = slot.escp := rfl
@[simp] theorem Slot.advance_pend (slot : Slot) : slot.advance.pend = slot.pend := rfl
@[simp] theorem Slot.continued_len (slot : Slot) : slot.continued.len = slot.len := rfl
@[simp] theorem Slot.continued_idx (slot : Slot) : slot.continued.idx = slot.idx + 1 := rfl
@[simp] theorem Slot.continued_escp (slot : Slot) : slot.continued.escp = false := rfl
@[simp] theorem Slot.continued_pend (slot : Slot) : slot.continued.pend = slot.pend := rfl
@[simp] theorem Slot.cutOff_len (slot : Slot) (b : Byte) : (slot.cutOff b).len = slot.len := rfl
@[simp] theorem Slot.cutOff_idx (slot : Slot) (b : Byte) : (slot.cutOff b).idx = slot.idx := rfl
@[simp] theorem Slot.cutOff_escp (slot : Slot) (b : Byte) : (slot.cutOff b).escp = true := rfl
@[simp] theorem Slot.cutOff_pend (slot : Slot) (b : Byte) : (slot.cutOff b).pend = escapeCode b := rfl
@[simp] theorem Slot.activated_len (b : Byte) : (Slot.activated b).len = slotLength b := rfl
@[simp] theorem Slot.activated_idx (b : Byte) : (Slot.activated b).idx = 0 := rfl
@[simp] theorem Slot.activated_escp (b : Byte) : (Slot.activated b).escp = false := rfl
@[simp] theorem Slot.activated_pend (b : Byte) : (Slot.activated b).pend = 0x00 := rfl

@[simp] theorem Sent.after_slot (bs : List Byte) (r : Sent) : (r.after bs).slot = r.slot := rfl
@[simp] theorem Sent.after_bytes (bs : List Byte) (r : Sent) : (r.after bs).bytes = bs ++ r.bytes := rfl
@[simp] theorem Sent.after_done (bs : List Byte) (r : Sent) : (r.after bs).done = r.done := rfl

/-- The slot length as a natural: body length plus the six framing bytes (spec/10_state.md R28: 0 to 261). -/
theorem slotLength_toNat (b : Byte) : (slotLength b).toNat = b.toNat + 6 := by
  have := b.isLt
  simp [slotLength, zext9, BitVec.toNat_add, BitVec.toNat_setWidth]
  omega

/-! ### The guard -/

theorem refusalOfOperation_running {s : State} (h : Running s) : refusalOfOperation s = none := by
  simp [refusalOfOperation, refusalBeforeSelector, h.admitted, h.notFaulted, h.initDone]

/-- An operation the guard admits answers what its effect answers. -/
theorem execute_running {s : State} (h : Running s) (e : Except Fault State) : execute s e = completed e := by
  simp [execute, refusalOfOperation_running h]

theorem executeInit_admitted {s : State} (ha : configAdmitted s.cfg = true) (hf : s.faulted = none)
    (e : Except Fault State) : executeInit s e = completed e := by
  simp [executeInit, refusalBeforeSelector, ha, hf]

/-- Everything a next state of an operation comes from. -/
theorem execute_eq_next {s t : State} {e : Except Fault State} (h : execute s e = .next t) :
    Running s ∧ e = .ok t := by
  unfold execute refusalOfOperation refusalBeforeSelector at h
  by_cases ha : configAdmitted s.cfg = false
  · simp [ha] at h
  · cases hf : s.faulted with
    | some f => simp [ha, hf] at h
    | none =>
      cases hi : s.initDone with
      | false => simp [ha, hf, hi] at h
      | true =>
        cases e with
        | error f => simp [ha, hf, hi, completed] at h
        | ok u =>
          simp [ha, hf, hi, completed] at h
          exact ⟨⟨by simpa using ha, hf, hi⟩, by rw [h]⟩

/-- Everything a fault of an operation comes from. -/
theorem execute_eq_fault {s : State} {e : Except Fault State} {f : Fault} (h : execute s e = .fault f) :
    Running s ∧ e = .error f := by
  unfold execute refusalOfOperation refusalBeforeSelector at h
  by_cases ha : configAdmitted s.cfg = false
  · simp [ha] at h
  · cases hf : s.faulted with
    | some f => simp [ha, hf] at h
    | none =>
      cases hi : s.initDone with
      | false => simp [ha, hf, hi] at h
      | true =>
        cases e with
        | ok u => simp [ha, hf, hi, completed] at h
        | error g =>
          simp [ha, hf, hi, completed] at h
          exact ⟨⟨by simpa using ha, hf, hi⟩, by rw [h]⟩

theorem executeInit_eq_next {s t : State} {e : Except Fault State} (h : executeInit s e = .next t) :
    configAdmitted s.cfg = true ∧ s.faulted = none ∧ e = .ok t := by
  unfold executeInit refusalBeforeSelector at h
  by_cases ha : configAdmitted s.cfg = false
  · simp [ha] at h
  · cases hf : s.faulted with
    | some f => simp [ha, hf] at h
    | none =>
      cases e with
      | error f => simp [ha, hf, completed] at h
      | ok u =>
        simp [ha, hf, completed] at h
        exact ⟨by simpa using ha, rfl, by rw [h]⟩

/-- A reserved selector never answers a next state. -/
theorem executeReserved_ne_next (s t : State) : executeReserved s ≠ .next t := by
  unfold executeReserved; split <;> simp

/-- The bounds an admitted configuration gives (spec/00_scope.md R14). -/
theorem admitted_bounds {c : Config} (h : configAdmitted c = true) :
    19 ≤ c.bufCap ∧ 15 + c.supportedTypes.length ≤ c.bufCap ∧ (c.eventEnabled = true → 6 ≤ c.evtCap) ∧
      c.codes.distinct = true ∧ c.supportedTypes.length ≤ 255 := by
  simp only [configAdmitted, Bool.and_eq_true, decide_eq_true_eq, Bool.or_eq_true, Bool.not_eq_true'] at h
  obtain ⟨⟨⟨⟨h1, h2⟩, h3⟩, h4⟩, h5⟩ := h
  refine ⟨h1, h2, fun he => ?_, h4, h5⟩
  rcases h3 with h3 | h3
  · simp [he] at h3
  · exact h3

end Sys2Proof.Machine
end

