-- ==== Sys2Proof/Laws/Commands.lean ====
section
/-! SUPPORT. What building a response does (spec/43_control_commands.md R182 to R187). -/

namespace Sys2Proof.Machine

/-- `BUF` after the header fields of a response of final write index `w` are rewritten (R182). -/
def headerWritten (w : Nat) (s : State) : Memory :=
  ((((s.buf.write 8 (responseInstanceId (s.buf.read 8))).write 6 (responseFlags (s.buf.read 6))).write 4
    (s.buf.read 5)).write 5 (s.buf.read 4)).write 2 (bodyLengthByte w s)

theorem finishHeader_ok {s : State} {w : Nat} (hw : s.buf.wf = true) (hb : 9 ≤ s.cfg.bufCap) :
    finishHeader w s = .ok { s with buf := headerWritten w s, freeCount := drawnAfter w s } := by
  have h8 := Memory.wf_write hw 8 (responseInstanceId (s.buf.read 8))
  have h6 := Memory.wf_write h8 6 (responseFlags (s.buf.read 6))
  unfold finishHeader
  rw [readBuf_ok (by omega), except_bind_ok, writeBuf_ok (by omega), except_bind_ok, readBuf_ok (by simpa using by omega),
    except_bind_ok]
  simp only [Memory.read_write hw, show (6 : Nat) ≠ 8 by decide, if_false]
  rw [writeBuf_ok (by simpa using by omega), except_bind_ok, readBuf_ok (by simpa using by omega), except_bind_ok,
    readBuf_ok (by simpa using by omega), except_bind_ok]
  simp only [Memory.read_write hw, Memory.read_write h8, show (4 : Nat) ≠ 6 by decide, show (4 : Nat) ≠ 8 by decide,
    show (5 : Nat) ≠ 6 by decide, show (5 : Nat) ≠ 8 by decide, if_false]
  rw [writeBuf_ok (by simpa using by omega), except_bind_ok, writeBuf_ok (by simpa using by omega), except_bind_ok,
    writeBuf_ok (by simpa using by omega), except_bind_ok]
  rfl

theorem headerWritten_wf {s : State} {w : Nat} (hw : s.buf.wf = true) : (headerWritten w s).wf = true :=
  Memory.wf_write (Memory.wf_write (Memory.wf_write (Memory.wf_write (Memory.wf_write hw _ _) _ _) _ _) _ _) _ _

theorem headerWritten_within {s : State} {w size : Nat} (hw : s.buf.within size = true) (hb : 9 ≤ size) :
    (headerWritten w s).within size = true :=
  Memory.within_write (Memory.within_write (Memory.within_write (Memory.within_write (Memory.within_write hw
    (by omega) _) (by omega) _) (by omega) _) (by omega) _) (by omega) _

/-- The header of a response, byte by byte (R182). -/
theorem headerWritten_read {s : State} {w : Nat} (hw : s.buf.wf = true) (a : Nat) :
    (headerWritten w s).read a =
      if a = 2 then bodyLengthByte w s
      else if a = 5 then s.buf.read 4
      else if a = 4 then s.buf.read 5
      else if a = 6 then responseFlags (s.buf.read 6)
      else if a = 8 then responseInstanceId (s.buf.read 8)
      else s.buf.read a := by
  have h8 := Memory.wf_write hw 8 (responseInstanceId (s.buf.read 8))
  have h6 := Memory.wf_write h8 6 (responseFlags (s.buf.read 6))
  have h4 := Memory.wf_write h6 4 (s.buf.read 5)
  have h5 := Memory.wf_write h4 5 (s.buf.read 4)
  simp only [headerWritten, Memory.read_write h5, Memory.read_write h4, Memory.read_write h6, Memory.read_write h8,
    Memory.read_write hw]

/-- `BUF` after the trailer of a response of final write index `w` is written (R182). -/
def trailerWritten (w : Nat) (c : Half) (m : Memory) : Memory :=
  ((m.write w (hiByte c)).write (w + 1) (loByte c)).write (w + 2) 0x7E

theorem finishTrailer_ok {s : State} {w : Nat} (h1 : 1 ≤ w) (hb : w + 3 ≤ s.cfg.bufCap) :
    finishTrailer w s = .ok { s with
      buf := trailerWritten w (ck s.cfg s.cfg.ckSeed (bytesAt s.buf 1 (w - 1))) s.buf } := by
  unfold finishTrailer
  rw [bufChecksum_ok (by omega), except_bind_ok, writeBuf_ok (by omega), except_bind_ok,
    writeBuf_ok (by simpa using by omega), except_bind_ok, writeBuf_ok (by simpa using by omega)]
  rfl

theorem trailerWritten_wf {m : Memory} {w : Nat} {c : Half} (hw : m.wf = true) : (trailerWritten w c m).wf = true :=
  Memory.wf_write (Memory.wf_write (Memory.wf_write hw _ _) _ _) _ _

theorem trailerWritten_within {m : Memory} {w size : Nat} {c : Half} (hw : m.within size = true)
    (hb : w + 3 ≤ size) : (trailerWritten w c m).within size = true :=
  Memory.within_write (Memory.within_write (Memory.within_write hw (by omega) _) (by omega) _) (by omega) _

theorem trailerWritten_read {m : Memory} {w : Nat} {c : Half} (hw : m.wf = true) (a : Nat) :
    (trailerWritten w c m).read a =
      if a = w + 2 then 0x7E else if a = w + 1 then loByte c else if a = w then hiByte c else m.read a := by
  simp only [trailerWritten, Memory.read_write (Memory.wf_write (Memory.wf_write hw w (hiByte c)) (w + 1) (loByte c)),
    Memory.read_write (Memory.wf_write hw w (hiByte c)), Memory.read_write hw]

/-- The two checksum bytes hold the checksum (spec/40_checksum.md R123). -/
theorem half_hi_lo (c : Half) : half (hiByte c) (loByte c) = c := by
  apply BitVec.eq_of_getLsbD_eq
  intro i hi
  simp only [half, hiByte, loByte, BitVec.getLsbD_append, BitVec.getLsbD_extractLsb']
  by_cases h : i < 8 <;> simp [h, show i - 8 < 8 by omega]
  congr 1; omega

/-- `BUF` after a handler wrote `payload` and finished the response. -/
def responseWritten (payload : List Byte) (s : State) : Memory :=
  let w := 10 + payload.length
  let m := headerWritten w { s with buf := s.buf.writeAll 10 payload }
  trailerWritten w (ck s.cfg s.cfg.ckSeed (bytesAt m 1 (w - 1))) m

/-- Everything a handler does once its payload is fixed, when the response fits in `BUF`. -/
theorem respond_ok {s : State} {payload : List Byte} (hw : s.buf.wf = true)
    (hb : payload.length + 13 ≤ s.cfg.bufCap) :
    respond payload s = .ok { s with
      buf := responseWritten payload s, freeCount := drawnAfter (10 + payload.length) s
      fs := .sendingResponse } := by
  unfold respond finish
  rw [writeBufRange_ok (by omega), except_bind_ok,
    finishHeader_ok (s := { s with buf := s.buf.writeAll 10 payload }) (Memory.wf_writeAll hw 10 payload)
      (by simpa using by omega), except_bind_ok]
  rw [finishTrailer_ok (by omega) (by simpa using by omega), except_bind_ok]
  rfl

theorem responseWritten_wf {s : State} {payload : List Byte} (hw : s.buf.wf = true) :
    (responseWritten payload s).wf = true :=
  trailerWritten_wf (headerWritten_wf (s := { s with buf := s.buf.writeAll 10 payload }) (Memory.wf_writeAll hw 10 payload))

theorem responseWritten_within {s : State} {payload : List Byte} {size : Nat} (hw : s.buf.within size = true)
    (hb : payload.length + 13 ≤ size) : (responseWritten payload s).within size = true :=
  trailerWritten_within (headerWritten_within (s := { s with buf := s.buf.writeAll 10 payload })
    (Memory.within_writeAll hw (by omega)) (by omega)) (by omega)

/-- The response, byte by byte. -/
theorem responseWritten_read {s : State} {payload : List Byte} (hw : s.buf.wf = true) (a : Nat) :
    ∃ c, c = ck s.cfg s.cfg.ckSeed (bytesAt (headerWritten (10 + payload.length)
        { s with buf := s.buf.writeAll 10 payload }) 1 (9 + payload.length)) ∧
      (responseWritten payload s).read a =
        if a = 12 + payload.length then 0x7E
        else if a = 11 + payload.length then loByte c
        else if a = 10 + payload.length then hiByte c
        else (headerWritten (10 + payload.length) { s with buf := s.buf.writeAll 10 payload }).read a := by
  refine ⟨_, rfl, ?_⟩
  have hm := headerWritten_wf (w := 10 + payload.length) (s := { s with buf := s.buf.writeAll 10 payload })
    (Memory.wf_writeAll hw 10 payload)
  simp only [responseWritten, trailerWritten_read hm, show 10 + payload.length - 1 = 9 + payload.length by omega,
    show 10 + payload.length + 2 = 12 + payload.length by omega,
    show 10 + payload.length + 1 = 11 + payload.length by omega]

theorem responseWritten_read_header {s : State} {payload : List Byte} (hw : s.buf.wf = true) {a : Nat}
    (ha : a < 10) : (responseWritten payload s).read a =
      if a = 2 then bodyLengthByte (10 + payload.length) s
      else if a = 5 then s.buf.read 4
      else if a = 4 then s.buf.read 5
      else if a = 6 then responseFlags (s.buf.read 6)
      else if a = 8 then responseInstanceId (s.buf.read 8)
      else s.buf.read a := by
  obtain ⟨c, -, h⟩ := responseWritten_read (payload := payload) hw a
  have hr : ∀ b, b < 10 → (s.buf.writeAll 10 payload).read b = s.buf.read b := fun b hb => by
    rw [Memory.read_writeAll hw, if_neg (by omega)]
  rw [h, if_neg (by omega), if_neg (by omega), if_neg (by omega), headerWritten_read (Memory.wf_writeAll hw 10 payload)]
  simp only [hr 4 (by omega), hr 5 (by omega), hr 6 (by omega), hr 8 (by omega), hr a ha]
  rfl

/-- The response, stated as the contract of R182. -/
theorem responseWritten_isResponse {s : State} {payload : List Byte} (hw : s.buf.wf = true) {t : State}
    (ht : t.buf = responseWritten payload s) (hc : t.cfg = s.cfg) : IsResponse payload s t := by
  have hhead : ∀ a, a < 10 → _ := fun a ha => responseWritten_read_header (payload := payload) hw ha
  have hread := fun a => responseWritten_read (payload := payload) hw a
  have hfar : ∀ a, 10 ≤ a → a < 10 + payload.length →
      (responseWritten payload s).read a = payload.getD (a - 10) 0 := fun a h1 h2 => by
    obtain ⟨c, -, h⟩ := hread a
    rw [h, if_neg (by omega), if_neg (by omega), if_neg (by omega),
      headerWritten_read (Memory.wf_writeAll hw 10 payload)]
    rw [if_neg (by omega), if_neg (by omega), if_neg (by omega), if_neg (by omega), if_neg (by omega),
      Memory.read_writeAll hw, if_pos ⟨h1, h2⟩]
  refine ⟨?_, ?_, ?_, ?_, ?_, ?_, ?_, ?_, ?_, ?_⟩
  · rw [ht]
    refine List.ext_getElem (by simp) fun k h1 h2 => ?_
    simp only [bytesAt, List.getElem_map, List.getElem_range', Nat.one_mul]
    rw [hfar _ (by omega) (by omega), show 10 + k - 10 = k by omega, List.getD_eq_getElem _ _ h2]
  · rw [ht, hhead 8 (by omega)]; rfl
  · rw [ht, hhead 6 (by omega)]; rfl
  · rw [ht, hhead 4 (by omega)]; rfl
  · rw [ht, hhead 5 (by omega)]; rfl
  · intro hle
    rw [ht, hhead 2 (by omega)]
    simp only [if_true, bodyLengthByte]
    rw [if_pos (by omega), BitVec.toNat_ofNat]; omega
  · rw [ht, hc]
    obtain ⟨c, hcdef, h10⟩ := hread (10 + payload.length)
    obtain ⟨c', hc'def, h11⟩ := hread (11 + payload.length)
    obtain rfl : c' = c := hc'def.trans hcdef.symm
    rw [h10, h11, if_neg (by omega), if_neg (by omega), if_pos rfl, if_neg (by omega), if_pos rfl, half_hi_lo, hcdef]
    congr 1
    refine bytesAt_congr fun a h1 h2 => ?_
    obtain ⟨_, -, h⟩ := hread a
    rw [h, if_neg (by omega), if_neg (by omega), if_neg (by omega)]
  · rw [ht]
    obtain ⟨c, -, h⟩ := hread (12 + payload.length)
    rw [h, if_pos rfl]
  · rw [ht, hhead 0 (by omega), hhead 1 (by omega), hhead 3 (by omega), hhead 7 (by omega), hhead 9 (by omega)]
    exact ⟨rfl, rfl, rfl, rfl, rfl⟩
  · intro a ha
    rw [ht]
    obtain ⟨c, -, h⟩ := hread a
    rw [h, if_neg (by omega), if_neg (by omega), if_neg (by omega),
      headerWritten_read (Memory.wf_writeAll hw 10 payload), if_neg (by omega), if_neg (by omega), if_neg (by omega),
      if_neg (by omega), if_neg (by omega), Memory.read_writeAll hw, if_neg (by omega)]

/-! ### Payload lengths (R189) -/

theorem assignPayload_length (op : BitVec 4) (req : Byte) (s : State) : (assignPayload op req s).length ≤ 4 := by
  unfold assignPayload; split <;> simp

theorem getVersionPayload_length (t : Byte) (s : State) : (getVersionPayload t s).length ≤ 6 := by
  unfold getVersionPayload; split <;> simp

@[simp] theorem getTypesPayload_length (s : State) :
    (getTypesPayload s).length = s.cfg.supportedTypes.length + 2 := by simp [getTypesPayload]

/-! ### The handlers -/

theorem assignEid_ok {s : State} {op : BitVec 4} {req : Byte} (ha : configAdmitted s.cfg = true)
    (hw : s.buf.wf = true) : assignEid op req s = .ok { assignDeferred op req s with
      buf := responseWritten (assignPayload op req s) s, fs := .sendingResponse } := by
  have hl := assignPayload_length op req s
  have hb := (admitted_bounds ha).1
  unfold assignEid
  rw [respond_ok (by simpa using hw) (by simpa using by omega)]
  unfold responseWritten headerWritten bodyLengthByte drawnAfter
  simp only [show 10 + (assignPayload op req s).length - 3 ≤ 255 by omega, if_true, assignDeferred_buf, assignDeferred_cfg,
    assignDeferred_freeCount]

theorem getEid_ok {s : State} (ha : configAdmitted s.cfg = true) (hw : s.buf.wf = true) :
    getEid s = .ok { s with buf := responseWritten (getEidPayload s) s, fs := .sendingResponse } := by
  have hb := (admitted_bounds ha).1
  unfold getEid
  rw [respond_ok hw (by simpa [getEidPayload] using by omega)]
  simp [drawnAfter, getEidPayload]

theorem getVersion_ok {s : State} {t : Byte} (ha : configAdmitted s.cfg = true) (hw : s.buf.wf = true) :
    getVersion t s = .ok { s with buf := responseWritten (getVersionPayload t s) s, fs := .sendingResponse } := by
  have hl := getVersionPayload_length t s
  have hb := (admitted_bounds ha).1
  unfold getVersion
  rw [respond_ok hw (by omega)]
  simp only [drawnAfter, show 10 + (getVersionPayload t s).length - 3 ≤ 255 by omega, if_true]

theorem getTypes_ok {s : State} (ha : configAdmitted s.cfg = true) (hw : s.buf.wf = true) :
    getTypes s = .ok { s with
      buf := responseWritten (getTypesPayload s) s, fs := .sendingResponse
      freeCount := drawnAfter (12 + s.cfg.supportedTypes.length) s } := by
  have hb := (admitted_bounds ha).2.1
  unfold getTypes
  rw [respond_ok hw (by rw [getTypesPayload_length]; omega)]
  rw [getTypesPayload_length, show 10 + (s.cfg.supportedTypes.length + 2) = 12 + s.cfg.supportedTypes.length by omega]

theorem unsupported_ok {s : State} (ha : configAdmitted s.cfg = true) (hw : s.buf.wf = true) :
    unsupported s = .ok { s with buf := responseWritten (unsupportedPayload s) s, fs := .sendingResponse } := by
  have hb := (admitted_bounds ha).1
  unfold unsupported
  rw [respond_ok hw (by simpa [unsupportedPayload] using by omega)]
  simp [drawnAfter, unsupportedPayload]

end Sys2Proof.Machine
end

