-- ==== Sys2Proof/Laws/Framer.lean ====
section
/-! SUPPORT. What a receive step can do (spec/41_receive_framer.md R130 to R140). -/

namespace Sys2Proof.Machine

theorem storeRx_ok {s : State} (h : s.rxIdx < s.cfg.bufCap) (b : Byte) :
    storeRx b s = .ok { s with buf := s.buf.write s.rxIdx b, rxIdx := s.rxIdx + 1 } := by
  simp [storeRx, writeBuf_ok h]

/-- Everything a store of the framer can do. -/
theorem storeRx_eq_ok {s t : State} {b : Byte} :
    storeRx b s = .ok t ↔
      s.rxIdx < s.cfg.bufCap ∧ t = { s with buf := s.buf.write s.rxIdx b, rxIdx := s.rxIdx + 1 } := by
  unfold storeRx
  rw [except_bind_eq_ok]
  constructor
  · rintro ⟨u, hu, ht⟩
    obtain ⟨hi, rfl⟩ := writeBuf_eq_ok.1 hu
    exact ⟨hi, by simpa [eq_comm] using ht⟩
  · rintro ⟨hi, rfl⟩
    exact ⟨_, writeBuf_ok hi b, rfl⟩

theorem startFrame_ok {s : State} (h : 0 < s.cfg.bufCap) :
    startFrame s = .ok { s with buf := s.buf.write 0 0x7E, rxIdx := 1, fs := .hdr1 } := by
  simp [startFrame, storeRx_ok (s := { s with rxIdx := 0 }) h]

theorem startFrame_eq_ok {s t : State} (h : startFrame s = .ok t) :
    0 < s.cfg.bufCap ∧ t = { s with buf := s.buf.write 0 0x7E, rxIdx := 1, fs := .hdr1 } := by
  obtain ⟨u, hu, ht⟩ := except_bind_eq_ok.1 h
  obtain ⟨hi, rfl⟩ := storeRx_eq_ok.1 hu
  exact ⟨hi, by simpa [eq_comm] using ht⟩

theorem storeBodyByte_ok {s : State} (h : s.rxIdx < s.cfg.bufCap) (b : Byte) :
    storeBodyByte b s = .ok { s with
      buf := s.buf.write s.rxIdx b, rxIdx := s.rxIdx + 1, rxCnt := s.rxCnt - 1
      fs := if s.rxCnt - 1 = 0 then .fcs1 else .body } := by
  simp [storeBodyByte, storeRx_ok h, countBodyByte]

theorem storeBodyByte_eq_ok {s t : State} {b : Byte} (h : storeBodyByte b s = .ok t) :
    s.rxIdx < s.cfg.bufCap ∧ t = { s with
      buf := s.buf.write s.rxIdx b, rxIdx := s.rxIdx + 1, rxCnt := s.rxCnt - 1
      fs := if s.rxCnt - 1 = 0 then .fcs1 else .body } := by
  obtain ⟨u, hu, ht⟩ := except_bind_eq_ok.1 h
  obtain ⟨hi, rfl⟩ := storeRx_eq_ok.1 hu
  exact ⟨hi, by simpa [countBodyByte, eq_comm] using ht⟩

theorem rxHdr1_ok {s : State} (h : s.rxIdx < s.cfg.bufCap) (b : Byte) :
    rxHdr1 b s = .ok { s with buf := s.buf.write s.rxIdx b, rxIdx := s.rxIdx + 1, fs := .hdr2 } := by
  simp [rxHdr1, storeRx_ok h]

theorem rxHdr2_ok {s : State} (h : s.rxIdx < s.cfg.bufCap) (b : Byte) :
    rxHdr2 b s = .ok { s with
      buf := s.buf.write s.rxIdx b, rxIdx := s.rxIdx + 1, rxCnt := b
      fs := if b.toNat + (s.rxIdx + 1) + 5 > s.cfg.bufCap then .waitSync
        else if b = 0 then .fcs1 else .body } := by
  simp [rxHdr2, storeRx_ok h, afterLength]

theorem rxFcs1_ok {s : State} (h : s.rxIdx < s.cfg.bufCap) (b : Byte) :
    rxFcs1 b s = .ok { s with buf := s.buf.write s.rxIdx b, rxIdx := s.rxIdx + 1, fs := .fcs2 } := by
  simp [rxFcs1, storeRx_ok h]

theorem rxFcs2_ok {s : State} (h : s.rxIdx < s.cfg.bufCap) (b : Byte) :
    rxFcs2 b s = .ok { s with buf := s.buf.write s.rxIdx b, rxIdx := s.rxIdx + 1, fs := .fend } := by
  simp [rxFcs2, storeRx_ok h]

/-- The frame after its trailer is stored. -/
abbrev trailerStored (s : State) : State := { s with buf := s.buf.write s.rxIdx 0x7E, rxIdx := s.rxIdx + 1 }

/-- The trailer arrives: the frame is stored whole, then judged. -/
theorem rxEnd_ok {s : State} (h : s.rxIdx < s.cfg.bufCap) :
    ∃ ok, rxEnd 0x7E s = .ok { trailerStored s with fs := if ok = true then .awaitingResponse else .waitSync } ∧
      (ok = true ↔ valid (s.rxIdx + 1) (trailerStored s) = .ok true ∧
        addressed ((s.buf.write s.rxIdx 0x7E).read 4) s = true) := by
  obtain ⟨ok, hok, hiff⟩ := accepted_ok (s := trailerStored s) h
  refine ⟨ok, ?_, hiff⟩
  unfold rxEnd
  rw [if_neg (by simp), storeRx_ok h, except_bind_ok, hok]
  rfl

/-- Everything a receive step can write: the framer's own registers, and one byte of `BUF` at the offset it computes. -/
structure RxWrote (b : Byte) (s t : State) : Prop where
  rest : t = { s with fs := t.fs, rxIdx := t.rxIdx, rxCnt := t.rxCnt, buf := t.buf }
  silent : storesAt b s = none → t.buf = s.buf
  store : ∀ i, storesAt b s = some i → i < s.cfg.bufCap ∧ ∃ v, t.buf = s.buf.write i v

theorem RxWrote.ofSilent {b : Byte} {s : State} (h : storesAt b s = none) (fs : FramerState) :
    RxWrote b s { s with fs := fs } :=
  ⟨rfl, fun _ => rfl, fun i hi => by simp [h] at hi⟩

theorem RxWrote.ofStore {b v : Byte} {s : State} {i : Nat} (h : storesAt b s = some i) (hi : i < s.cfg.bufCap)
    (fs : FramerState) (idx : Nat) (cnt : BitVec 8) :
    RxWrote b s { s with fs := fs, rxIdx := idx, rxCnt := cnt, buf := s.buf.write i v } :=
  ⟨rfl, fun hn => by simp [h] at hn, fun j hj => by
    obtain rfl : i = j := by simpa [h] using hj
    exact ⟨hi, v, rfl⟩⟩

/-- A store of the framer followed by a change of its own registers. -/
theorem RxWrote.ofStoreRx {b v : Byte} {s t : State} {g : State → State} (hs : storesAt b s = some s.rxIdx)
    (hg : ∀ u, ∃ fs cnt, g u = { u with fs := fs, rxCnt := cnt })
    (h : (storeRx v s >>= fun u => (.ok (g u) : Except Fault State)) = .ok t) : RxWrote b s t := by
  obtain ⟨u, hu, ht⟩ := except_bind_eq_ok.1 h
  obtain ⟨hi, rfl⟩ := storeRx_eq_ok.1 hu
  obtain ⟨fs, cnt, hg⟩ := hg { s with buf := s.buf.write s.rxIdx v, rxIdx := s.rxIdx + 1 }
  obtain rfl : g _ = t := by simpa using ht
  rw [hg]
  exact RxWrote.ofStore hs hi _ _ _

theorem RxWrote.ofStartFrame {b : Byte} {s t : State} (hs : storesAt b s = some 0) (h : startFrame s = .ok t) :
    RxWrote b s t := by
  obtain ⟨hi, rfl⟩ := startFrame_eq_ok h
  exact RxWrote.ofStore hs hi _ _ _

theorem RxWrote.ofStoreBodyByte {b v : Byte} {s t : State} (hs : storesAt b s = some s.rxIdx)
    (h : storeBodyByte v s = .ok t) : RxWrote b s t := by
  obtain ⟨hi, rfl⟩ := storeBodyByte_eq_ok h
  exact RxWrote.ofStore hs hi _ _ _

theorem rxEnd_wrote {b : Byte} {s t : State} (hfs : s.fs = .fend) (h : rxEnd b s = .ok t) : RxWrote b s t := by
  unfold rxEnd at h
  by_cases hb : b = 0x7E
  · obtain ⟨u, hu, h⟩ := except_bind_eq_ok.1 (by simpa [hb] using h)
    obtain ⟨hi, rfl⟩ := storeRx_eq_ok.1 hu
    obtain ⟨ok, -, ht⟩ := except_bind_eq_ok.1 h
    obtain rfl := Except.ok.inj ht
    exact RxWrote.ofStore (by simp [storesAt, hfs, hb]) hi _ _ _
  · rw [if_pos hb] at h
    obtain rfl := Except.ok.inj h
    exact RxWrote.ofSilent (by simp only [storesAt, hfs, if_neg hb]) _

/-- Everything a receive step can do. -/
theorem rxStep_wrote {b : Byte} {s t : State} (h : rxStep b s = .ok t) : RxWrote b s t := by
  unfold rxStep at h
  cases hfs : s.fs <;> simp only [hfs] at h
  case waitSync =>
    unfold rxWaitSync at h
    by_cases hb : b = 0x7E
    · exact RxWrote.ofStartFrame (by simp only [storesAt, hfs, if_pos hb]) (by simpa [hb] using h)
    · rw [if_neg hb] at h
      obtain rfl := Except.ok.inj h
      exact RxWrote.ofSilent (by simp only [storesAt, hfs, if_neg hb]) s.fs
  case hdr1 => exact RxWrote.ofStoreRx (by simp only [storesAt, hfs]) (fun u => ⟨_, _, rfl⟩) h
  case hdr2 => exact RxWrote.ofStoreRx (by simp only [storesAt, hfs]) (fun u => ⟨_, _, rfl⟩) h
  case fcs1 => exact RxWrote.ofStoreRx (by simp only [storesAt, hfs]) (fun u => ⟨_, _, rfl⟩) h
  case fcs2 => exact RxWrote.ofStoreRx (by simp only [storesAt, hfs]) (fun u => ⟨_, _, rfl⟩) h
  case body =>
    unfold rxBody at h
    by_cases hd : b = 0x7D
    · rw [if_pos hd] at h
      obtain rfl := Except.ok.inj h
      exact RxWrote.ofSilent (by simp only [storesAt, hfs, if_pos hd]) _
    · by_cases hb : b = 0x7E
      · exact RxWrote.ofStartFrame (by simp only [storesAt, hfs, if_neg hd, if_pos hb]) (by simpa [hb] using h)
      · exact RxWrote.ofStoreBodyByte (by simp only [storesAt, hfs, if_neg hd, if_neg hb])
          (by simpa only [if_neg hd, if_neg hb] using h)
  case escape =>
    unfold rxEscape at h
    by_cases hb : b = 0x7E
    · exact RxWrote.ofStartFrame (by simp only [storesAt, hfs, if_pos hb]) (by simpa [hb] using h)
    · by_cases he : b = 0x5E ∨ b = 0x5D
      · exact RxWrote.ofStoreBodyByte (by simp only [storesAt, hfs, if_neg hb, if_pos he])
          (by simpa only [if_neg hb, if_pos he] using h)
      · obtain rfl : _ = t := by simpa only [if_neg hb, if_neg he, Except.ok.injEq] using h
        exact RxWrote.ofSilent (by simp only [storesAt, hfs, if_neg hb, if_neg he]) _
  case fend => exact rxEnd_wrote hfs h
  case awaitingResponse =>
    obtain rfl : s = t := by simpa using h
    exact RxWrote.ofSilent (by simp only [storesAt, hfs]) s.fs
  case sendingResponse =>
    obtain rfl : s = t := by simpa using h
    exact RxWrote.ofSilent (by simp only [storesAt, hfs]) s.fs

end Sys2Proof.Machine
end

