-- ==== Sys2Proof/Laws/Transmitter.lean ====
section
/-! SUPPORT. What a drain step can do (spec/44_transmitter.md R210 to R220): the loop sends exactly the next wire bytes
of the slot that the capacity lets through, and stops inside an escape sequence only with the continuation saved. -/

namespace Sys2Proof.Machine

/-! ### Capacity -/

theorem takeCap_cons {room : Cap} (h : canWrite room = true) (b : Byte) (bs : List Byte) :
    takeCap room (b :: bs) = b :: takeCap (roomAfterEmit room) bs := by
  cases room with
  | inf => rfl
  | fin n =>
    cases n with
    | zero => simp [canWrite] at h
    | succ n => rfl

theorem takeCap_none {room : Cap} (h : canWrite room = false) (bs : List Byte) : takeCap room bs = [] := by
  cases room with
  | inf => simp [canWrite] at h
  | fin n => simp [canWrite] at h; simp [takeCap, h]

@[simp] theorem takeCap_nil (room : Cap) : takeCap room [] = [] := by cases room <;> simp [takeCap]

/-! ### Wire bytes -/

theorem wireFrom_succ (m : Memory) (i n : Nat) : wireFrom m i (n + 1) = wireByte m i ++ wireFrom m (i + 1) n := by
  simp [wireFrom, List.range'_succ]

@[simp] theorem wireFrom_zero (m : Memory) (i : Nat) : wireFrom m i 0 = [] := rfl

theorem wireByte_ne_nil (m : Memory) (i : Nat) : wireByte m i ≠ [] := by
  unfold wireByte; split <;> simp

theorem remaining_eq_zero {slot : Slot} (h : slot.idx.toNat ≤ slot.len.toNat) :
    remaining slot = 0 ↔ slot.idx = slot.len := by
  rw [← BitVec.toNat_inj]; unfold remaining; omega

theorem idx_succ {slot : Slot} (h : slot.idx.toNat < slot.len.toNat) :
    (slot.idx + 1).toNat = slot.idx.toNat + 1 := by
  have := slot.len.isLt
  simp [BitVec.toNat_add]; omega

theorem SlotSends.advance {m : Memory} {slot : Slot} (h : SlotSends m slot) (he : slot.escp = false)
    (hi : slot.idx.toNat < slot.len.toNat) : SlotSends m slot.advance :=
  ⟨h.len, by simp only [Slot.advance_idx, idx_succ hi, Slot.advance_len]; omega, fun hc => by simp [he] at hc⟩

theorem SlotSends.continued {m : Memory} {slot : Slot} (h : SlotSends m slot)
    (hi : slot.idx.toNat < slot.len.toNat) : SlotSends m slot.continued :=
  ⟨h.len, by simp only [Slot.continued_idx, idx_succ hi, Slot.continued_len]; omega, fun hc => by simp at hc⟩

theorem SlotSends.cutOff {m : Memory} {slot : Slot} (h : SlotSends m slot) (hi : slot.idx.toNat < slot.len.toNat)
    (hs : isStuffed slot.idx.toNat (m.read 2) (m.read slot.idx.toNat) = true) :
    SlotSends m (slot.cutOff (m.read slot.idx.toNat)) :=
  ⟨h.len, h.idx, fun _ => ⟨hi, hs, rfl⟩⟩

theorem SlotSends.activated (m : Memory) : SlotSends m (Slot.activated (m.read 2)) :=
  ⟨rfl, by simp, fun h => by simp at h⟩

theorem remaining_advance {slot : Slot} {n : Nat} (hi : slot.idx.toNat < slot.len.toNat)
    (hn : remaining slot = n + 1) : remaining slot.advance = n := by
  unfold remaining at *
  simp only [Slot.advance_idx, Slot.advance_len, idx_succ hi]; omega

theorem remaining_continued {slot : Slot} {n : Nat} (hi : slot.idx.toNat < slot.len.toNat)
    (hn : remaining slot = n + 1) : remaining slot.continued = n := by
  unfold remaining at *
  simp only [Slot.continued_idx, Slot.continued_len, idx_succ hi]; omega

/-! ### The loop -/

/-- Everything the sending loop can do on a slot whose frame is inside its buffer. -/
structure LoopSent (m : Memory) (slot : Slot) (room : Cap) (r : Sent) : Prop where
  /-- The slot still sends the same frame. -/
  sends : SlotSends m r.slot
  /-- The bytes are the next wire bytes the capacity lets through. -/
  bytes : r.bytes = takeCap room (wireRest m slot)
  /-- The rest of the wire form is still to send. -/
  rest : wireRest m slot = r.bytes ++ wireRest m r.slot
  /-- The frame is complete exactly when nothing is left to send. -/
  done : r.done = true ↔ wireRest m r.slot = []

theorem wireRest_eq_nil {m : Memory} {slot : Slot} (h : SlotSends m slot) :
    wireRest m slot = [] ↔ slot.idx = slot.len := by
  unfold wireRest
  by_cases he : slot.escp = true
  · have := (h.pending he).1
    simp only [if_pos he, reduceCtorEq, false_iff]
    rw [← BitVec.toNat_inj]; omega
  · rw [if_neg he, ← remaining_eq_zero h.idx]
    cases hn : remaining slot with
    | zero => simp
    | succ n => simp [wireFrom_succ, wireByte_ne_nil]

theorem sendLoop_sent {size : Nat} {m : Memory} {rd : Nat → Except Fault Byte}
    (hrd : ∀ i, i < size → rd i = .ok (m.read i)) {n : Nat} {slot : Slot} (room : Cap) (h : SlotSends m slot)
    (hlen : slot.len.toNat ≤ size) (hn : remaining slot = n) :
    ∃ r, sendLoop rd n slot room = .ok r ∧ LoopSent m slot room r := by
  have h6 : 6 ≤ slot.len.toNat := by rw [h.len, slotLength_toNat]; omega
  induction n generalizing slot room with
  | zero =>
    have hz : wireRest m slot = [] := (wireRest_eq_nil h).2 ((remaining_eq_zero h.idx).1 hn)
    exact ⟨_, rfl, h, by simp [hz], by simp, by simp [hz]⟩
  | succ n ih =>
    have hi : slot.idx.toNat < slot.len.toNat := by unfold remaining at hn; omega
    have hne : wireRest m slot ≠ [] := by
      rw [ne_eq, wireRest_eq_nil h, ← BitVec.toNat_inj]; omega
    unfold sendLoop
    by_cases hc : canWrite room = false
    · rw [if_pos hc]
      exact ⟨_, rfl, h, by simp [takeCap_none hc], by simp, by simp [hne]⟩
    have hc' : canWrite room = true := by simpa using hc
    rw [if_neg hc]
    by_cases he : slot.escp = true
    · -- the continuation byte (R214)
      rw [if_pos he]
      obtain ⟨r, hr, hs⟩ := ih (roomAfterEmit room) (h.continued hi) hlen (remaining_continued hi hn) h6
      have hw : wireRest m slot = slot.pend :: wireRest m slot.continued := by
        conv_rhs => unfold wireRest
        unfold wireRest
        simp only [if_pos he, Slot.continued_escp, Slot.continued_idx, idx_succ hi, remaining_continued hi hn, hn]
        simp
      refine ⟨r.after [slot.pend], by rw [hr]; rfl, hs.sends, ?_, ?_, hs.done⟩
      · rw [hw, takeCap_cons hc', Sent.after_bytes, hs.bytes]; rfl
      · rw [hw, hs.rest]; simp
    have hef : slot.escp = false := by simpa using he
    rw [if_neg he, hrd _ (by omega), except_bind_ok, hrd 2 (by omega), except_bind_ok]
    have hw : wireRest m slot = wireByte m slot.idx.toNat ++ wireRest m slot.advance := by
      conv_rhs => unfold wireRest
      unfold wireRest
      simp only [if_neg he, Slot.advance_escp, Slot.advance_idx, idx_succ hi, remaining_advance hi hn, hn]
      exact wireFrom_succ m _ n
    by_cases hst : isStuffed slot.idx.toNat (m.read 2) (m.read slot.idx.toNat) = true
    · -- an escape sequence (R216)
      have hwb : wireByte m slot.idx.toNat = [0x7D, escapeCode (m.read slot.idx.toNat)] := by simp [wireByte, hst]
      rw [if_pos hst]
      by_cases hc2 : canWrite (roomAfterEmit room) = false
      · rw [if_pos hc2]
        have hcut : wireRest m (slot.cutOff (m.read slot.idx.toNat)) =
            escapeCode (m.read slot.idx.toNat) :: wireRest m slot.advance := by
          conv_rhs => unfold wireRest
          unfold wireRest
          simp only [Slot.cutOff_escp, if_true, Slot.advance_escp, if_neg he, Slot.cutOff_pend, Slot.cutOff_idx,
            Slot.advance_idx, idx_succ hi, remaining_advance hi hn]
          have : remaining (slot.cutOff (m.read slot.idx.toNat)) = n + 1 := hn
          rw [this]; simp
        refine ⟨_, rfl, h.cutOff hi hst, ?_, ?_, ?_⟩
        · rw [hw, hwb, List.cons_append, takeCap_cons hc', takeCap_none hc2]
        · rw [hw, hwb, hcut]; rfl
        · simp [hcut]
      · rw [if_neg hc2]
        obtain ⟨r, hr, hs⟩ := ih (roomAfterEmit (roomAfterEmit room)) (h.advance hef hi) hlen (remaining_advance hi hn) h6
        refine ⟨r.after [0x7D, escapeCode (m.read slot.idx.toNat)], by rw [hr]; rfl, hs.sends, ?_, ?_, hs.done⟩
        · rw [hw, hwb, List.cons_append, takeCap_cons hc', List.cons_append, takeCap_cons (by simpa using hc2),
            Sent.after_bytes, hs.bytes]; rfl
        · rw [hw, hwb, hs.rest]; simp
    · -- a raw byte (R215)
      have hwb : wireByte m slot.idx.toNat = [m.read slot.idx.toNat] := by simp [wireByte, hst]
      rw [if_neg hst]
      obtain ⟨r, hr, hs⟩ := ih (roomAfterEmit room) (h.advance hef hi) hlen (remaining_advance hi hn) h6
      refine ⟨r.after [m.read slot.idx.toNat], by rw [hr]; rfl, hs.sends, ?_, ?_, hs.done⟩
      · rw [hw, hwb, List.cons_append, takeCap_cons hc', Sent.after_bytes, hs.bytes]; rfl
      · rw [hw, hwb, hs.rest]; simp

/-! ### The drain step -/

/-- Everything a drain step can write, whatever the state: not `BUF`, `EBUF`, the receive registers, the configuration
or the bookkeeping of the host; `TXOUT` only grows. -/
structure DrainWrote (s t : State) (n : Nat) : Prop where
  rest : t = { s with
    fs := t.fs, eid := t.eid, eidUpd := t.eidUpd, eidNext := t.eidNext, act := t.act, ps := t.ps, es := t.es
    evtPend := t.evtPend, txout := t.txout }
  appended : ∃ bytes, t.txout = s.txout ++ bytes ∧ bytes.length = n

theorem drainPrimary_wrote {cap : Cap} {s t : State} {n : Nat} (h : drainPrimary cap s = .ok (t, n)) :
    DrainWrote s t n := by
  obtain ⟨r, -, h⟩ := except_bind_eq_ok.1 h
  obtain ⟨rfl, rfl⟩ := Prod.mk.inj (Except.ok.inj h)
  cases r.done <;> exact ⟨by simp [completePrimary_eq], r.bytes, by simp, rfl⟩

theorem drainEvent_wrote {cap : Cap} {s t : State} {n : Nat} (h : drainEvent cap s = .ok (t, n)) :
    DrainWrote s t n := by
  obtain ⟨r, -, h⟩ := except_bind_eq_ok.1 h
  obtain ⟨rfl, rfl⟩ := Prod.mk.inj (Except.ok.inj h)
  cases r.done <;> exact ⟨rfl, r.bytes, by simp, rfl⟩

theorem drainActive_wrote {cap : Cap} {s t : State} {n : Nat} (h : drainActive cap s = .ok (t, n)) :
    DrainWrote s t n := by
  unfold drainActive at h
  cases ha : s.act <;> simp only [ha] at h
  · obtain ⟨rfl, rfl⟩ := Prod.mk.inj (Except.ok.inj h)
    exact ⟨rfl, [], by simp, rfl⟩
  · exact drainPrimary_wrote h
  · exact drainEvent_wrote h

/-- Everything the selection of a slot can do (R211 to R213). -/
theorem selectSlot_cases {s t : State} (h : selectSlot s = .ok t) :
    (s.cfg.eventEnabled = true ∧ s.evtPend = true ∧ 2 < s.cfg.evtCap ∧
      t = { s with act := .event, es := Slot.activated (s.ebuf.read 2) }) ∨
    ((s.cfg.eventEnabled && s.evtPend) = false ∧ s.fs = .sendingResponse ∧ 2 < s.cfg.bufCap ∧
      t = { s with act := .primary, ps := Slot.activated (s.buf.read 2) }) ∨
    ((s.cfg.eventEnabled && s.evtPend) = false ∧ s.fs ≠ .sendingResponse ∧ t = s) := by
  unfold selectSlot at h
  by_cases he : (s.cfg.eventEnabled && s.evtPend) = true
  · rw [if_pos he] at h
    obtain ⟨b, hb, ht⟩ := except_bind_eq_ok.1 h
    obtain ⟨hi, rfl⟩ := readEbuf_eq_ok.1 hb
    simp only [Bool.and_eq_true] at he
    exact .inl ⟨he.1, he.2, hi, (Except.ok.inj ht).symm⟩
  · rw [if_neg he] at h
    have he' : (s.cfg.eventEnabled && s.evtPend) = false := by simpa using he
    by_cases hf : s.fs = .sendingResponse
    · rw [if_pos hf] at h
      obtain ⟨b, hb, ht⟩ := except_bind_eq_ok.1 h
      obtain ⟨hi, rfl⟩ := readBuf_eq_ok.1 hb
      exact .inr (.inl ⟨he', hf, hi, (Except.ok.inj ht).symm⟩)
    · rw [if_neg hf] at h
      exact .inr (.inr ⟨he', hf, (Except.ok.inj h).symm⟩)

theorem drainStep_wrote {cap : Cap} {s t : State} {n : Nat} (h : drainStep cap s = .ok (t, n)) :
    DrainWrote s t n := by
  unfold drainStep at h
  by_cases ha : s.act = .none
  · rw [if_pos ha] at h
    obtain ⟨u, hu, h⟩ := except_bind_eq_ok.1 h
    have hw := drainActive_wrote h
    rcases selectSlot_cases hu with ⟨-, -, -, rfl⟩ | ⟨-, -, -, rfl⟩ | ⟨-, -, rfl⟩
    · exact ⟨hw.rest, hw.appended⟩
    · exact ⟨hw.rest, hw.appended⟩
    · exact hw
  · rw [if_neg ha] at h
    exact drainActive_wrote h

/-- What the primary slot sends when its frame is inside `BUF`. -/
theorem drainPrimary_ok {cap : Cap} {s : State} (h : SlotSends s.buf s.ps) (hb : bodyLength s.buf + 6 ≤ s.cfg.bufCap) :
    ∃ r, LoopSent s.buf s.ps cap r ∧ drainPrimary cap s = .ok
      (if r.done = true then completePrimary { s with ps := r.slot, txout := s.txout ++ r.bytes }
        else { s with ps := r.slot, txout := s.txout ++ r.bytes }, r.bytes.length) := by
  obtain ⟨r, hr, hs⟩ := sendLoop_sent (m := s.buf) (rd := readBuf s) (fun i hi => readBuf_ok hi) cap h
    (by rw [h.len, slotLength_toNat]; exact hb) rfl
  exact ⟨r, hs, by unfold drainPrimary; rw [hr]; rfl⟩

/-- What the event slot sends when its frame is inside `EBUF`. -/
theorem drainEvent_ok {cap : Cap} {s : State} (h : SlotSends s.ebuf s.es) (hb : bodyLength s.ebuf + 6 ≤ s.cfg.evtCap) :
    ∃ r, LoopSent s.ebuf s.es cap r ∧ drainEvent cap s = .ok
      (if r.done = true then completeEvent { s with es := r.slot, txout := s.txout ++ r.bytes }
        else { s with es := r.slot, txout := s.txout ++ r.bytes }, r.bytes.length) := by
  obtain ⟨r, hr, hs⟩ := sendLoop_sent (m := s.ebuf) (rd := readEbuf s) (fun i hi => readEbuf_ok hi) cap h
    (by rw [h.len, slotLength_toNat]; exact hb) rfl
  exact ⟨r, hs, by unfold drainEvent; rw [hr]; rfl⟩

end Sys2Proof.Machine
end

