-- ==== Sys2Proof/Laws/Invariant.lean ====
section
/-! SUPPORT. Each effect, from a state that meets the invariant, is defined and keeps it. -/

namespace Sys2Proof.Machine

theorem Inv.caps {s : State} (h : Inv s) : 19 ≤ s.cfg.bufCap := (admitted_bounds h.running.admitted).1

theorem Inv.framer {s : State} (h : Inv s) (hs : s.fs ≠ .sendingResponse) {fs : FramerState} {idx : Nat} {cnt : BitVec 8} {m : Memory}
    (hw : m.wf = true) (hin : m.within s.cfg.bufCap = true)
    (hp : FramerPlaced { s with fs := fs, rxIdx := idx, rxCnt := cnt, buf := m }) :
    Inv { s with fs := fs, rxIdx := idx, rxCnt := cnt, buf := m } := by
  have hact : s.act ≠ .primary := fun hc => hs (h.primarySending hc)
  have hupd : s.eidUpd = false := by
    by_contra hc; exact hs (h.updateSending (by simpa using hc))
  exact {
          running := ⟨h.running.admitted, h.running.notFaulted, h.running.initDone⟩
          bufWf := hw
          bufWithin := hin
          ebufWf := h.ebufWf
          ebufWithin := h.ebufWithin
          idlePrimary := h.idlePrimary, idleEvent := h.idleEvent, primarySending := fun hc => absurd hc hact,
          featureOff := h.featureOff, eventPending := h.eventPending, updateSending := fun hc => by simp [hupd] at hc,
          eidNotBroadcast := h.eidNotBroadcast, nextValid := h.nextValid, placed := hp, eventFits := h.eventFits,
          primarySlot := fun hc => absurd hc hact, eventSlot := h.eventSlot }

theorem Inv.startFrame {s : State} (h : Inv s) (hs : s.fs ≠ .sendingResponse) :
    ∃ t, startFrame s = .ok t ∧ Inv t := by
  have := h.caps
  refine ⟨_, startFrame_ok (by omega), ?_⟩
  exact h.framer hs (Memory.wf_write h.bufWf _ _) (Memory.within_write h.bufWithin (by omega) _) rfl

theorem bodyLength_write {m : Memory} (h : m.wf = true) {i : Nat} (hi : i ≠ 2) (v : Byte) :
    bodyLength (m.write i v) = bodyLength m := by
  unfold bodyLength; rw [Memory.read_write h, if_neg (by omega)]

theorem Inv.storeBody {s : State} (h : Inv s) (hfs : s.fs = .body ∨ s.fs = .escape) (b : Byte) :
    ∃ t, storeBodyByte b s = .ok t ∧ Inv t := by
  have hc := h.caps
  have hp := h.placed
  have hp' : 1 ≤ s.rxCnt.toNat ∧ 3 ≤ s.rxIdx ∧ s.rxIdx + s.rxCnt.toNat = bodyLength s.buf + 3 ∧
      bodyLength s.buf + 8 ≤ s.cfg.bufCap := by
    unfold FramerPlaced at hp; rcases hfs with hfs | hfs <;> simpa [hfs] using hp
  obtain ⟨h1, h2, h3, h4⟩ := hp'
  refine ⟨_, storeBodyByte_ok (by omega) b, ?_⟩
  have hs : s.fs ≠ .sendingResponse := by rcases hfs with hfs | hfs <;> simp [hfs]
  refine h.framer hs (Memory.wf_write h.bufWf _ _) (Memory.within_write h.bufWithin (by omega) _) ?_
  have hsub : (s.rxCnt - 1).toNat = s.rxCnt.toNat - 1 := by
    have := s.rxCnt.isLt
    rw [BitVec.toNat_sub]; simp; omega
  by_cases hz : s.rxCnt - 1 = 0
  · have : s.rxCnt.toNat = 1 := by
      have := congrArg BitVec.toNat hz; rw [hsub] at this; simp at this; omega
    simp only [hz, if_true]; unfold FramerPlaced; simp only [bodyLength_write h.bufWf (show s.rxIdx ≠ 2 by omega)]
    omega
  · have : s.rxCnt.toNat ≠ 1 := by
      intro hc; apply hz; apply BitVec.eq_of_toNat_eq; rw [hsub, hc]; rfl
    simp only [hz, if_false]; unfold FramerPlaced
    simp only [bodyLength_write h.bufWf (show s.rxIdx ≠ 2 by omega), hsub]
    omega

theorem Inv.rxStep {s : State} (h : Inv s) (b : Byte) : ∃ t, rxStep b s = .ok t ∧ Inv t := by
  have hc := h.caps
  have hp := h.placed
  unfold Machine.rxStep
  cases hfs : s.fs <;> simp only
  case waitSync =>
    unfold rxWaitSync; split
    · exact h.startFrame (by simp [hfs])
    · exact ⟨s, rfl, h⟩
  case hdr1 =>
    have hi : s.rxIdx = 1 := by unfold FramerPlaced at hp; simpa [hfs] using hp
    refine ⟨_, rxHdr1_ok (by omega) b, h.framer (by simp [hfs])
      (Memory.wf_write h.bufWf _ _) (Memory.within_write h.bufWithin (by omega) _) ?_⟩
    simp [FramerPlaced, hi]
  case hdr2 =>
    have hi : s.rxIdx = 2 := by unfold FramerPlaced at hp; simpa [hfs] using hp
    refine ⟨_, rxHdr2_ok (by omega) b, h.framer (by simp [hfs])
      (Memory.wf_write h.bufWf _ _) (Memory.within_write h.bufWithin (by omega) _) ?_⟩
    have hl : bodyLength (s.buf.write 2 b) = b.toNat
      := by unfold bodyLength; rw [Memory.read_write h.bufWf, if_pos rfl]
    rw [hi]
    by_cases hbig : b.toNat + (2+1) + 5 > s.cfg.bufCap
    · simp only [if_pos hbig]; unfold FramerPlaced; trivial
    · rw [if_neg hbig]
      by_cases hz : b = 0
      · simp only [hz, if_true]; unfold FramerPlaced; simp only; subst hz; rw [hl]; simp at *; omega
      · have : b.toNat ≠ 0 := by intro hc; apply hz; apply BitVec.eq_of_toNat_eq; simpa using hc
        simp only [if_neg hz]; unfold FramerPlaced; simp only [hl]; omega
  case body =>
    unfold rxBody
    split
    · refine ⟨_, rfl, h.framer (by simp [hfs]) h.bufWf h.bufWithin ?_⟩
      unfold FramerPlaced at hp ⊢; simpa [hfs] using hp
    · split
      · exact h.startFrame (by simp [hfs])
      · exact h.storeBody (.inl hfs) b
  case escape =>
    unfold rxEscape
    split
    · exact h.startFrame (by simp [hfs])
    · split
      · exact h.storeBody (.inr hfs) _
      · exact ⟨_, rfl, h.framer (by simp [hfs]) h.bufWf h.bufWithin (by unfold FramerPlaced; trivial)⟩
  case fcs1 =>
    have hi : s.rxIdx = bodyLength s.buf + 3 ∧ bodyLength s.buf + 8 ≤ s.cfg.bufCap
      := by unfold FramerPlaced at hp; simpa [hfs] using hp
    refine ⟨_, rxFcs1_ok (by omega) b, h.framer (by simp [hfs])
      (Memory.wf_write h.bufWf _ _) (Memory.within_write h.bufWithin (by omega) _) ?_⟩
    unfold FramerPlaced; simp only [bodyLength_write h.bufWf (show s.rxIdx ≠ 2 by omega)]; omega
  case fcs2 =>
    have hi : s.rxIdx = bodyLength s.buf + 4 ∧ bodyLength s.buf + 8 ≤ s.cfg.bufCap
      := by unfold FramerPlaced at hp; simpa [hfs] using hp
    refine ⟨_, rxFcs2_ok (by omega) b, h.framer (by simp [hfs])
      (Memory.wf_write h.bufWf _ _) (Memory.within_write h.bufWithin (by omega) _) ?_⟩
    unfold FramerPlaced; simp only [bodyLength_write h.bufWf (show s.rxIdx ≠ 2 by omega)]; omega
  case fend =>
    have hi : s.rxIdx = bodyLength s.buf + 5 ∧ bodyLength s.buf + 8 ≤ s.cfg.bufCap
      := by unfold FramerPlaced at hp; simpa [hfs] using hp
    by_cases hb : b = 0x7E
    · subst hb
      obtain ⟨ok, hok, hv⟩ := rxEnd_ok (s := s) (by omega)
      refine ⟨_, hok, h.framer (by simp [hfs])
        (Memory.wf_write h.bufWf _ _) (Memory.within_write h.bufWithin (by omega) _) ?_⟩
      cases ok
      · simp [FramerPlaced]
      · have := valid_true (s := trailerStored s) (n := s.rxIdx + 1) (by simp; omega) (hv.1 rfl).1
        simp only [FramerPlaced, if_true, bodyLength_write h.bufWf (show s.rxIdx ≠ 2 by omega)]
        omega
    · unfold rxEnd; rw [if_pos hb]
      exact ⟨_, rfl, h.framer (by simp [hfs]) h.bufWf h.bufWithin (by unfold FramerPlaced; trivial)⟩
  case awaitingResponse => exact ⟨s, rfl, h⟩
  case sendingResponse => exact ⟨s, rfl, h⟩

theorem Inv.selectSlot {s : State} (h : Inv s) (ha : s.act = .none) : ∃ t, selectSlot s = .ok t ∧ Inv t := by
  have hc := h.caps
  have hps : s.ps = Slot.zero := h.idlePrimary (by simp [ha])
  have hes : s.es = Slot.zero := h.idleEvent (by simp [ha])
  unfold Machine.selectSlot
  by_cases he : (s.cfg.eventEnabled && s.evtPend) = true
  · simp only [Bool.and_eq_true] at he
    have := h.eventFits he.2
    simp only [he.1, he.2, Bool.and_self, if_true]
    unfold activateEvent
    rw [readEbuf_ok (by omega), except_bind_ok]
    refine ⟨_, rfl, ?_⟩
    exact { h with
        running := ⟨h.running.admitted, h.running.notFaulted, h.running.initDone⟩
        idlePrimary := fun _ => hps
        idleEvent := fun hc => absurd rfl hc
        primarySending := fun hc => (by simp at hc)
        eventPending := fun _ => he.2
        primarySlot := fun hc => (by simp at hc)
        eventSlot := fun _ => SlotSends.activated _
        placed := h.placed }
  · rw [if_neg he]
    by_cases hf : s.fs = .sendingResponse
    · rw [if_pos hf]
      unfold activatePrimary
      rw [readBuf_ok (by omega), except_bind_ok]
      refine ⟨_, rfl, ?_⟩
      exact { h with
        running := ⟨h.running.admitted, h.running.notFaulted, h.running.initDone⟩
        idlePrimary := fun hc => absurd rfl hc
        idleEvent := fun _ => hes
        primarySending := fun hc => hf
        eventPending := fun hc => (by simp at hc)
        primarySlot := fun _ => SlotSends.activated _
        eventSlot := fun hc => (by simp at hc)
        placed := h.placed }
    · rw [if_neg hf]; exact ⟨s, rfl, h⟩

theorem Inv.drainActive {s : State} (h : Inv s) (cap : Cap) : ∃ t n, drainActive cap s = .ok (t, n) ∧ Inv t := by
  unfold Machine.drainActive
  cases ha : s.act <;> simp only
  · exact ⟨s, 0, rfl, h⟩
  · have hf := h.primarySending ha
    have hb : bodyLength s.buf + 6 ≤ s.cfg.bufCap := by
      have := h.placed; unfold FramerPlaced at this; simpa [hf] using this
    have hes : s.es = Slot.zero := h.idleEvent (by simp [ha])
    obtain ⟨r, hr, hok⟩ := drainPrimary_ok (cap := cap) (h.primarySlot ha) hb
    refine ⟨_, _, hok, ?_⟩
    cases hd : r.done
    · simp only [Bool.false_eq_true, if_false]
      exact { h with
        running := ⟨h.running.admitted, h.running.notFaulted, h.running.initDone⟩
        placed := h.placed
        idlePrimary := fun hc => absurd ha hc
        primarySlot := fun _ => hr.sends
        eventSlot := fun hc => by simp [ha] at hc }
    · simp only [if_true, completePrimary_eq]
      exact {
          running := ⟨h.running.admitted, h.running.notFaulted, h.running.initDone⟩
          bufWf := h.bufWf
          bufWithin := h.bufWithin
          ebufWf := h.ebufWf
          ebufWithin := h.ebufWithin
          idlePrimary := fun _ => rfl, idleEvent := fun _ => hes, primarySending := fun hc => (by simp at hc),
          featureOff := h.featureOff
          eventPending := fun hc => (by simp at hc)
          updateSending := fun hc => (by simp at hc)
          eidNotBroadcast := by
            simp only; split
            · rename_i hu; exact (h.nextValid hu).2
            · exact h.eidNotBroadcast
          nextValid := fun hc => (by simp at hc), placed := trivial, eventFits := h.eventFits,
          primarySlot := fun hc => (by simp at hc), eventSlot := fun hc => by simp at hc }
  · have he := h.eventPending ha
    have hps : s.ps = Slot.zero := h.idlePrimary (by simp [ha])
    obtain ⟨r, hr, hok⟩ := drainEvent_ok (cap := cap) (h.eventSlot ha) (h.eventFits he)
    refine ⟨_, _, hok, ?_⟩
    cases hd : r.done
    · simp only [Bool.false_eq_true, if_false]
      exact { h with
        running := ⟨h.running.admitted, h.running.notFaulted, h.running.initDone⟩
        placed := h.placed
        idleEvent := fun hc => absurd ha hc
        eventSlot := fun _ => hr.sends
        primarySlot := fun hc => by simp [ha] at hc }
    · simp only [if_true, completeEvent]
      exact { h with
        running := ⟨h.running.admitted, h.running.notFaulted, h.running.initDone⟩
        placed := h.placed
        idlePrimary := fun _ => hps
        idleEvent := fun _ => rfl
        primarySending := fun hc => (by simp at hc)
        featureOff := fun _ => rfl
        eventPending := fun hc => (by simp at hc)
        eventFits := fun hc => (by simp at hc)
        primarySlot := fun hc => (by simp at hc)
        eventSlot := fun hc => by simp at hc }

theorem Inv.drainStep {s : State} (h : Inv s) (cap : Cap) : ∃ t n, drainStep cap s = .ok (t, n) ∧ Inv t := by
  unfold Machine.drainStep
  by_cases ha : s.act = .none
  · rw [if_pos ha]
    obtain ⟨t, ht, hi⟩ := h.selectSlot ha
    rw [ht, except_bind_ok]; exact hi.drainActive cap
  · rw [if_neg ha]; exact h.drainActive cap

/-- A response built from `AWAITING_RESPONSE` keeps the invariant, with a deferred address or none. -/
theorem Inv.response {s : State} (h : Inv s) (hf : s.fs = .awaitingResponse) {payload : List Byte} (hl : payload.length + 13 ≤ s.cfg.bufCap)
    (hk : payload.length + 7 ≤ 255 ∨ 262 ≤ s.cfg.bufCap) {upd : Bool} {next : Byte}
    (hn : upd = true → next ≠ 0 ∧ next ≠ 0xFF) (fc : Nat) :
    Inv { s with
      buf := responseWritten payload s, fs := .sendingResponse, eidUpd := upd, eidNext := next
      freeCount := fc } := by
  have hact : s.act ≠ .primary := fun hc => by have := h.primarySending hc; simp [hf] at this
  exact {
          running := ⟨h.running.admitted, h.running.notFaulted, h.running.initDone⟩
          bufWf := responseWritten_wf h.bufWf
          bufWithin := responseWritten_within h.bufWithin hl
          ebufWf := h.ebufWf
          ebufWithin := h.ebufWithin
          idlePrimary := h.idlePrimary, idleEvent := h.idleEvent, primarySending := fun hc => rfl,
          featureOff := h.featureOff, eventPending := h.eventPending, updateSending := fun hc => rfl,
          eidNotBroadcast := h.eidNotBroadcast, nextValid := hn
          placed := by
            have hr := responseWritten_isResponse (payload := payload) h.bufWf
              (t := { s with buf := responseWritten payload s }) rfl rfl
            simp only [FramerPlaced, bodyLength]
            rcases hk with hk | hk
            · have := hr.lengthByte hk; simp only at this; omega
            · have := ((responseWritten payload s).read 2).isLt; omega
          eventFits := h.eventFits, primarySlot := fun hc => absurd hc hact, eventSlot := h.eventSlot }

theorem Inv.assign {s : State} (h : Inv s) (hf : s.fs = .awaitingResponse) (op : BitVec 4) (req : Byte) :
    ∃ t, assignEid op req s = .ok t ∧ Inv t := by
  have hl := assignPayload_length op req s
  have hc := h.caps
  refine ⟨_, assignEid_ok h.running.admitted h.bufWf, ?_⟩
  unfold assignDeferred
  have hu : s.eidUpd = false := by by_contra hc; have := h.updateSending (by simpa using hc); simp [hf] at this
  split
  · exact h.response hf (payload := assignPayload op req s) (by omega) (.inl (by omega)) 
      (fun hc => by simp [hu] at hc) _
  · rename_i hr
    exact h.response hf (payload := assignPayload op req s) (by omega) (.inl (by omega)) (fun _ => by
      have hr := Bool.eq_false_of_not_eq_true hr
      simp only [assignRejected, Bool.or_eq_false_iff, beq_eq_false_iff_ne] at hr
      exact ⟨hr.1.2, hr.2⟩) _

theorem Inv.responds {s : State} (h : Inv s) (hf : s.fs = .awaitingResponse) {payload : List Byte} (hl : payload.length + 13 ≤ s.cfg.bufCap)
    (hk : payload.length + 7 ≤ 255 ∨ 262 ≤ s.cfg.bufCap) : ∃ t, respond payload s = .ok t ∧ Inv t := by
  refine ⟨_, respond_ok h.bufWf hl, ?_⟩
  have hu : s.eidUpd = false := by by_contra hc; have := h.updateSending (by simpa using hc); simp [hf] at this
  exact h.response hf hl hk (fun hc => by simp [hu] at hc) _

theorem Inv.getEid {s : State} (h : Inv s) (hf : s.fs = .awaitingResponse) : ∃ t, getEid s = .ok t ∧ Inv t := by
  have := h.caps
  exact h.responds hf (by simp [getEidPayload]; omega) (.inl (by simp [getEidPayload]))

theorem Inv.unsupported {s : State} (h : Inv s) (hf : s.fs = .awaitingResponse) :
    ∃ t, unsupported s = .ok t ∧ Inv t := by
  have := h.caps
  exact h.responds hf (by simp [unsupportedPayload]; omega) (.inl (by simp [unsupportedPayload]))

theorem Inv.getVersion {s : State} (h : Inv s) (hf : s.fs = .awaitingResponse) (t : Byte) :
    ∃ u, getVersion t s = .ok u ∧ Inv u := by
  have := h.caps
  have := getVersionPayload_length t s
  exact h.responds hf (by omega) (.inl (by omega))

theorem Inv.getTypes {s : State} (h : Inv s) (hf : s.fs = .awaitingResponse) :
    ∃ u, getTypes s = .ok u ∧ Inv u := by
  have := (admitted_bounds h.running.admitted).2.1
  exact h.responds hf (by simp; omega) (by simp; omega)

theorem Inv.dispatch {s : State} (h : Inv s) (hf : s.fs = .awaitingResponse) :
    ∃ u, dispatchCommand s = .ok u ∧ Inv u := by
  have := h.caps
  unfold dispatchCommand
  rw [readBuf_ok (by omega), except_bind_ok]
  split
  · rw [readBuf_ok (by omega), except_bind_ok, readBuf_ok (by omega), except_bind_ok]; exact h.assign hf _ _
  · split
    · exact h.getEid hf
    · split
      · rw [readBuf_ok (by omega), except_bind_ok]; exact h.getVersion hf _
      · split
        · exact h.getTypes hf
        · exact h.unsupported hf

theorem Inv.returning {s : State} (h : Inv s) (r : Result) : Inv (returning r s) :=
  { h with running := ⟨h.running.admitted, h.running.notFaulted, h.running.initDone⟩, placed := h.placed }

theorem Inv.classify {s : State} (h : Inv s) (f : Byte → Bool) : ∃ u, classify f s = .ok u ∧ Inv u := by
  have := h.caps
  unfold Machine.classify
  split
  · rw [readBuf_ok (by omega), except_bind_ok]; exact ⟨_, rfl, h.returning _⟩
  · exact ⟨_, rfl, h.returning _⟩

theorem Inv.drainDiscarding {s : State} (h : Inv s) (cap : Cap) : ∃ u, drainDiscarding cap s = .ok u ∧ Inv u := by
  obtain ⟨t, n, ht, hi⟩ := h.drainStep cap
  unfold Machine.drainDiscarding; rw [ht]; exact ⟨t, rfl, hi⟩

theorem Inv.drainReturning {s : State} (h : Inv s) (cap : Cap) : ∃ u, drainReturning cap s = .ok u ∧ Inv u := by
  obtain ⟨t, n, ht, hi⟩ := h.drainStep cap
  unfold Machine.drainReturning; rw [ht]; exact ⟨_, rfl, hi.returning _⟩

theorem Inv.initialise {s : State} (h : Inv s) : Inv (initialise s) :=
  {       running := ⟨h.running.admitted, h.running.notFaulted, rfl⟩
          bufWf := h.bufWf
          bufWithin := h.bufWithin
          ebufWf := h.ebufWf
          ebufWithin := h.ebufWithin
          idlePrimary := fun _ => rfl
          idleEvent := fun _ => rfl
          primarySending := fun hc => (by simp at hc)
          featureOff := fun _ => rfl
          eventPending := fun hc => (by simp at hc)
          updateSending := fun hc => (by simp at hc)
          eidNotBroadcast := by simp
          nextValid := fun hc => (by simp at hc)
          placed := trivial
          eventFits := fun hc => (by simp at hc)
          primarySlot := fun hc => (by simp at hc), eventSlot := fun hc => by simp at hc }

theorem Inv.update {s : State} (h : Inv s) (rx : Option Byte) (cap : Cap) :
    ∃ u, updateEffect rx cap s = .ok u ∧ Inv u := by
  unfold updateEffect receive
  cases rx with
  | none => exact h.drainDiscarding cap
  | some b => obtain ⟨t, ht, hi⟩ := h.rxStep b; simp only [ht, except_bind_ok]; exact hi.drainDiscarding cap

theorem Inv.ignore {s : State} (h : Inv s) : Inv (ignorePacket s) := by
  unfold ignorePacket
  split
  · rename_i hp
    have hp : s.fs = .awaitingResponse := by simpa [packetAvailable] using hp
    exact h.framer (by simp [hp]) h.bufWf h.bufWithin trivial
  · exact h

theorem Inv.enq {s : State} (h : Inv s) (bytes : List Byte) : (enqueue bytes s = .error .malformedEvent ∧
      s.cfg.eventEnabled = true ∧ s.evtPend = false ∧ bytes.length ≤ s.cfg.evtCap ∧ eventWellFormed bytes = false) ∨
      ∃ u, enqueue bytes s = .ok u ∧ Inv u := by
  unfold enqueue
  split
  · exact .inr ⟨_, rfl, h.returning _⟩
  · rename_i h1
    split
    · exact .inr ⟨_, rfl, h.returning _⟩
    · rename_i h2
      split
      · exact .inr ⟨_, rfl, h.returning _⟩
      · rename_i h3
        split
        · rename_i h4; exact .inl ⟨rfl, by simpa using h1, by simpa using h2, by omega, h4⟩
        · rename_i h4
          have hact : s.act ≠ .event := fun hc => by have := h.eventPending hc; simp_all
          rw [writeEbufRange_ok (by omega), except_bind_ok]
          refine .inr ⟨_, rfl, Inv.returning ?_ _⟩
          simp [eventWellFormed, slotLength_toNat] at h4
          exact { h with
        running := ⟨h.running.admitted, h.running.notFaulted, h.running.initDone⟩
        placed := h.placed
        ebufWf := Memory.wf_writeAll h.ebufWf _ _
        ebufWithin := Memory.within_writeAll h.ebufWithin (by omega)
        featureOff := fun hc => (by simp_all)
        eventPending := fun _ => rfl
        eventFits := fun _ => by
          simp only [bodyLength, Memory.read_writeAll h.ebufWf, Nat.zero_le, true_and, Nat.zero_add]
          rw [if_pos (by omega)]; simp; omega
        eventSlot := fun hc => absurd hc hact }

theorem Inv.awaiting {s : State} (h : Inv s) {e : Except Fault State} (he : s.fs = .awaitingResponse → ∃ u, e = .ok u ∧ Inv u) :
    ∃ u, whenAwaiting s e = .ok u ∧ Inv u := by
  unfold whenAwaiting; split
  · rename_i hf; exact he hf
  · exact ⟨s, rfl, h⟩

end Sys2Proof.Machine
end

