-- ==== Sys2Proof/Laws/PerInstr.lean ====
section
/-! SUPPORT. The statement made of every instruction, one lemma per constructor. -/

namespace Sys2Proof.Laws.RoundTrip

/-- Decoding the encoding of a well-formed instruction gives it back, for every distinct choice of command codes
(spec/30_encoding.md R80, R89, R91, R93, R95). -/
def Statement (i : Instr) : Prop :=
  ∀ codes : CommandCodes, codes.distinct = true → i.wf codes = true → decode codes (encode codes i) = .ok i

theorem init : Statement .init := fun _ _ _ => rfl
theorem update (rx : Option Byte) (cap : Cap) : Statement (.update rx cap) := fun _ _ _ => rfl
theorem drain (cap : Cap) : Statement (.drain cap) := fun _ _ _ => rfl
theorem pktavail : Statement .pktavail := fun _ _ _ => rfl
theorem isctrl : Statement .isctrl := fun _ _ _ => rfl
theorem isalt : Statement .isalt := fun _ _ _ => rfl
theorem process (cap : Cap) : Statement (.process cap) := fun _ _ _ => rfl
theorem ignore : Statement .ignore := fun _ _ _ => rfl
theorem enq (bytes : List Byte) : Statement (.enq bytes) := fun _ _ _ => rfl
theorem evqempty : Statement .evqempty := fun _ _ _ => rfl

theorem cmdAssignEid (op : BitVec 4) (req : Byte) : Statement (.cmdAssignEid op req) := by
  intro codes _ _
  have h : (op.setWidth 8).extractLsb' 0 4 = op := by
    apply BitVec.eq_of_toNat_eq
    have := op.isLt
    simp [Nat.mod_eq_of_lt (show op.toNat < 256 by omega)]
    omega
  simp [encode, decode, decodeCommand, h]

theorem cmdGetEid : Statement .cmdGetEid := by
  intro codes hd _
  simp only [CommandCodes.distinct, Bool.and_eq_true, bne_iff_ne, ne_eq] at hd
  simp [encode, decode, decodeCommand, Ne.symm hd.1.1.1.1.1]

theorem cmdGetVersion (t : Byte) : Statement (.cmdGetVersion t) := by
  intro codes hd _
  simp only [CommandCodes.distinct, Bool.and_eq_true, bne_iff_ne, ne_eq] at hd
  simp [encode, decode, decodeCommand, Ne.symm hd.1.1.1.1.2, Ne.symm hd.1.1.2]

theorem cmdGetTypes : Statement .cmdGetTypes := by
  intro codes hd _
  simp only [CommandCodes.distinct, Bool.and_eq_true, bne_iff_ne, ne_eq] at hd
  simp [encode, decode, decodeCommand, Ne.symm hd.1.1.1.2, Ne.symm hd.1.2, Ne.symm hd.2]

theorem cmdUnsupported (code : Byte) : Statement (.cmdUnsupported code) := by
  intro codes _ hw
  simp only [Instr.wf, CommandCodes.names, Bool.not_eq_true', Bool.or_eq_false_iff, beq_eq_false_iff_ne, ne_eq] at hw
  simp [encode, decode, decodeCommand, hw]

theorem sof : Statement .sof := fun _ _ _ => rfl
theorem esc7e : Statement .esc7e := fun _ _ _ => rfl
theorem esc7d : Statement .esc7d := fun _ _ _ => rfl

theorem reservedHostAB (s : BitVec 1) : Statement (.reservedHostAB s) := by
  have h : ∀ s : BitVec 1, decodeHost { sel := 0b101#3 ++ s } = .reservedHostAB s := by decide
  exact fun _ _ _ => congrArg Except.ok (h s)

theorem reservedHostCF (ss : BitVec 2) : Statement (.reservedHostCF ss) := by
  have h : ∀ ss : BitVec 2, decodeHost { sel := 0b11#2 ++ ss } = .reservedHostCF ss := by decide
  exact fun _ _ _ => congrArg Except.ok (h ss)

end Sys2Proof.Laws.RoundTrip
end

