-- ==== Sys2Proof/Laws/Step.lean ====
section
/-! SUPPORT. What a run of receive steps answers, which words the decoder rejects, and everything a step can do. -/

namespace Sys2Proof

theorem decode_error {codes : CommandCodes} {w : Word} {e : DecodeReject} (h : decode codes w = .error e) :
    w = .wire (linkBytes w) := by
  cases w with
  | host r => simp [decode] at h
  | command code p0 p1 => simp [decode] at h
  | wire bytes => rfl

end Sys2Proof

namespace Sys2Proof.Machine

@[simp] theorem rxSteps_nil (s : State) : rxSteps [] s = .ok s := rfl
@[simp] theorem rxSteps_cons (b : Byte) (bs : List Byte) (s : State) :
    rxSteps (b :: bs) s = (rxStep b s >>= rxSteps bs) := rfl

/-- Receiving bytes is receiving the first of them and then the rest, for every cut. -/
theorem rxSteps_append (xs ys : List Byte) (s : State) : rxSteps (xs ++ ys) s = (rxSteps xs s >>= rxSteps ys) := by
  induction xs generalizing s with
  | nil => rfl
  | cons b bs ih =>
    rw [List.cons_append, rxSteps_cons, rxSteps_cons, bind_assoc]
    exact congrArg _ (funext ih)

/-- The invariant says nothing of the words yet to be presented. -/
theorem Inv.withPending {s : State} (h : Inv s) (words : List Word) : Inv { s with pending := words } :=
  { h with running := ⟨h.running.admitted, h.running.notFaulted, h.running.initDone⟩, placed := h.placed }

/-- Any bytes are received from a state that meets the invariant, and keep it. -/
theorem Inv.rxSteps {s : State} (h : Inv s) (bytes : List Byte) : ∃ t, Machine.rxSteps bytes s = .ok t ∧ Inv t := by
  induction bytes generalizing s with
  | nil => exact ⟨s, rfl, h⟩
  | cons b bs ih =>
    obtain ⟨u, hu, hi⟩ := h.rxStep b
    obtain ⟨t, ht, hj⟩ := ih hi
    exact ⟨t, by rw [rxSteps_cons, hu, except_bind_ok, ht], hj⟩

/-- A property of every receive step from states that meet the invariant is one of a run of them. -/
theorem Inv.rxSteps_induction {P : State → Prop} (hP : ∀ b s t, Inv s → P s → Machine.rxStep b s = .ok t → P t)
    {s t : State} {bytes : List Byte} (h : Inv s) (hs : P s) (ht : Machine.rxSteps bytes s = .ok t) : P t := by
  induction bytes generalizing s with
  | nil => exact Except.ok.inj ht ▸ hs
  | cons b bs ih =>
    obtain ⟨u, hu, hi⟩ := h.rxStep b
    rw [rxSteps_cons, hu, except_bind_ok] at ht
    exact ih hi (hP b s u h hs hu) ht

/-- Everything a step that answers a next state can do. -/
theorem step_cases {s t : State} (h : step s = .next t) :
    (s.pending = [] ∧ t = s) ∨
    (∃ w rest i, s.pending = w :: rest ∧ decode s.cfg.codes w = .ok i ∧ exec i { s with pending := rest } = .next t) ∨
    (∃ bytes rest, s.pending = .wire bytes :: rest ∧ Running s ∧
      rxSteps bytes { s with pending := rest } = .ok t) := by
  unfold step fetch at h
  cases hp : s.pending with
  | nil => simp only [hp] at h; exact .inl ⟨rfl, (Host.Outcome.next.inj h).symm⟩
  | cons w rest =>
    simp only [hp] at h
    cases hd : decode s.cfg.codes w with
    | ok i => exact .inr (.inl ⟨w, rest, i, rfl, hd, by simpa only [hd] using h⟩)
    | error e =>
      simp only [hd] at h
      obtain ⟨hr, he⟩ := execute_eq_next h
      exact .inr (.inr ⟨linkBytes w, rest, congrArg (· :: rest) (decode_error hd),
        ⟨hr.admitted, hr.notFaulted, hr.initDone⟩, he⟩)

end Sys2Proof.Machine
end

