-- ==== Sys2Proof/Tests/Slice0.lean ====
section
/-! SUPPORT. Tests of the model, with expected values from spec/, and a witness for the hypotheses of each statement. -/

namespace Sys2Proof.Tests

open Sys2Proof Sys2Proof.Machine

/-! ### Small states -/

/-- A memory that holds these bytes from offset 0. -/
def mem (bytes : List Byte) : Memory := Memory.writeAll [] 0 bytes

/-- An endpoint with address 0x09 whose framer is in `fs` and whose `BUF` holds these bytes. -/
def framer (fs : FramerState) (rxIdx : Nat) (rxCnt : BitVec 8) (bytes : List Byte) : State :=
  { State.s0 Config.tc (mem bytes) [] with fs := fs, rxIdx := rxIdx, rxCnt := rxCnt, eid := 0x09 }

/-- `s` with the event frame pending. -/
def pendingEvent (bytes : List Byte) (s : State) : State := { s with ebuf := mem bytes, evtPend := true }

/-- `s` sending from the primary slot. -/
def primary (slot : Slot) (s : State) : State := { s with act := .primary, ps := slot }

/-- `s` sending from the event slot. -/
def event (slot : Slot) (s : State) : State := { s with act := .event, es := slot }

/-- `Q_GETEID` (spec/95_test_vectors.md section 1). -/
def qGetEid : List Byte := [0x7E, 0x01, 0x07, 0x01, 0x00, 0x10, 0xC8, 0x00, 0x80, 0x02, 0xC5, 0xA1, 0x7E]

/-- `A_GETEID0`. -/
def aGetEid0 : List Byte :=
  [0x7E, 0x01, 0x0A, 0x01, 0x10, 0x00, 0xC0, 0x00, 0x00, 0x02, 0x00, 0x00, 0x00, 0xA6, 0x22, 0x7E]

/-- `Q_ASSIGN09`. -/
def qAssign09 : List Byte :=
  [0x7E, 0x01, 0x09, 0x01, 0x00, 0x10, 0xC8, 0x00, 0x80, 0x01, 0x01, 0x09, 0xCD, 0x00, 0x7E]

/-- `EVT1`. -/
def evt1 : List Byte := [0x7E, 0x01, 0x07, 0x01, 0x00, 0x09, 0xC0, 0x00, 0x00, 0x7F, 0xE1, 0xF3, 0x7E]

/-- The response of P5, whose body has 0x7D at offsets 5 and 11. -/
def aGetEid7D : List Byte :=
  [0x7E, 0x01, 0x0A, 0x01, 0x10, 0x7D, 0xC0, 0x00, 0x00, 0x02, 0x00, 0x7D, 0x00, 0xD4, 0x3A, 0x7E]

/-- An outcome is a next state that passes. -/
def nextWith (o : Host.Outcome State Fault Refusal) (p : State → Bool) : Bool :=
  match o with
  | .next t => p t
  | .fault _ => false
  | .refused _ => false

/-! ### The invariant of a concrete state, as a computation -/

/-- `SlotSends`, computed. -/
def slotCheck (m : Memory) (slot : Slot) : Bool :=
  slot.len == slotLength (m.read 2) && decide (slot.idx.toNat ≤ slot.len.toNat) &&
    (!slot.escp || (decide (slot.idx.toNat < slot.len.toNat) &&
      isStuffed slot.idx.toNat (m.read 2) (m.read slot.idx.toNat) && slot.pend == escapeCode (m.read slot.idx.toNat)))

theorem slot_of {m : Memory} {slot : Slot} (h : slotCheck m slot = true) : SlotSends m slot := by
  simp only [slotCheck, Bool.and_eq_true, Bool.or_eq_true, Bool.not_eq_true', beq_iff_eq, decide_eq_true_eq] at h
  exact ⟨h.1.1, h.1.2, fun he => by simpa [he, and_assoc] using h.2⟩

/-- `FramerPlaced`, computed. -/
def placedCheck (s : State) : Bool :=
  let l := bodyLength s.buf
  match s.fs with
  | .waitSync => true
  | .hdr1 => s.rxIdx == 1
  | .hdr2 => s.rxIdx == 2
  | .body => decide (1 ≤ s.rxCnt.toNat ∧ 3 ≤ s.rxIdx ∧ s.rxIdx + s.rxCnt.toNat = l + 3 ∧ l + 8 ≤ s.cfg.bufCap)
  | .escape => decide (1 ≤ s.rxCnt.toNat ∧ 3 ≤ s.rxIdx ∧ s.rxIdx + s.rxCnt.toNat = l + 3 ∧ l + 8 ≤ s.cfg.bufCap)
  | .fcs1 => decide (s.rxIdx = l + 3 ∧ l + 8 ≤ s.cfg.bufCap)
  | .fcs2 => decide (s.rxIdx = l + 4 ∧ l + 8 ≤ s.cfg.bufCap)
  | .fend => decide (s.rxIdx = l + 5 ∧ l + 8 ≤ s.cfg.bufCap)
  | .awaitingResponse => decide (s.rxIdx = l + 6 ∧ 11 ≤ s.rxIdx ∧ s.rxIdx + 2 ≤ s.cfg.bufCap)
  | .sendingResponse => decide (l + 6 ≤ s.cfg.bufCap)

theorem placed_of {s : State} (h : placedCheck s = true) : FramerPlaced s := by
  unfold placedCheck at h
  unfold FramerPlaced
  cases hf : s.fs <;> simp_all
  omega

/-- `Inv` of a state that sends no event, computed but for the active slot. -/
def idleCheck (s : State) : Bool :=
  configAdmitted s.cfg && s.faulted == none && s.initDone && s.buf.wf && s.buf.within s.cfg.bufCap && s.ebuf.wf &&
    s.ebuf.within s.cfg.evtCap && placedCheck s && s.eid != 0xFF &&
    (!s.evtPend || (s.cfg.eventEnabled && decide (bodyLength s.ebuf + 6 ≤ s.cfg.evtCap))) &&
    (!s.eidUpd || (s.fs == .sendingResponse && s.eidNext != 0x00 && s.eidNext != 0xFF)) &&
    match s.act with
    | .none => s.ps == Slot.zero && s.es == Slot.zero
    | .primary => s.es == Slot.zero && s.fs == .sendingResponse && slotCheck s.buf s.ps
    | .event => s.ps == Slot.zero && s.evtPend && slotCheck s.ebuf s.es

theorem inv_of {s : State} (h : idleCheck s = true) : Inv s := by
  simp only [idleCheck, Bool.and_eq_true, Bool.or_eq_true, Bool.not_eq_true', beq_iff_eq, bne_iff_ne, ne_eq,
    decide_eq_true_eq] at h
  obtain ⟨⟨⟨⟨⟨⟨⟨⟨⟨⟨⟨h1, h2⟩, h3⟩, h4⟩, h5⟩, h6⟩, h7⟩, h8⟩, h9⟩, h10⟩, h11⟩, h12⟩ := h
  refine ⟨⟨h1, h2, h3⟩, h4, h5, h6, h7, ?_, ?_, ?_, ?_, ?_, ?_, h9, ?_, placed_of h8, ?_, ?_, ?_⟩
  all_goals cases ha : s.act <;> simp only [ha, Bool.and_eq_true, beq_iff_eq] at h12 <;> intro hc
  all_goals first
    | exact absurd rfl hc
    | cases hc; done
    | exact h12.1
    | exact h12.2
    | exact h12.1.1
    | exact h12.1.2
    | exact slot_of h12.2
    | (rcases h10 with h10 | h10 <;> simp_all)

/-- `FrameHeld` of a concrete state, computed. -/
theorem held_of {s : State} (h0 : s.buf.read 0 = 0x7E)
    (h1 : s.fs = .awaitingResponse →
      (valid s.rxIdx s == .ok true && addressed (s.buf.read 4) s && s.buf.read (s.rxIdx - 1) == 0x7E) = true)
    (h2 : s.fs = .sendingResponse →
      (valid (bodyLength s.buf + 6) s == .ok true && s.buf.read (bodyLength s.buf + 5) == 0x7E) = true) :
    FrameHeld s := by
  refine ⟨fun _ => h0, fun hf => ?_, fun hf => ?_⟩
  · have := h1 hf
    simp only [Bool.and_eq_true, beq_iff_eq] at this
    exact ⟨this.1.1, this.1.2, this.2⟩
  · have := h2 hf
    simpa only [Bool.and_eq_true, beq_iff_eq] using this

/-! ### Well-formedness: the one check refuses a command code that is one of the four -/

theorem test_wf_refuses_a_named_code : (Instr.cmdUnsupported 0x02).wf CommandCodes.default = false := by decide
theorem test_wf_accepts_another_code : (Instr.cmdUnsupported 0x03).wf CommandCodes.default = true := by decide

/-! ### Decoding: words written out from spec/30_encoding.md -/

/-- Selectors of R93 and R95, bit by bit, with operands no other operation reads. -/
def hostWord (sel : BitVec 4) : Word := .host { sel := sel, rx := some 0x7E, cap := .fin 4, bytes := [0x01] }

theorem test_decode_init : decode CommandCodes.default (hostWord 0b0000) = .ok .init := by decide
theorem test_decode_update : decode CommandCodes.default (hostWord 0b0001) = .ok (.update (some 0x7E) (.fin 4)) := by
  decide
theorem test_decode_drain : decode CommandCodes.default (hostWord 0b0010) = .ok (.drain (.fin 4)) := by decide
theorem test_decode_pktavail : decode CommandCodes.default (hostWord 0b0011) = .ok .pktavail := by decide
theorem test_decode_isctrl : decode CommandCodes.default (hostWord 0b0100) = .ok .isctrl := by decide
theorem test_decode_isalt : decode CommandCodes.default (hostWord 0b0101) = .ok .isalt := by decide
theorem test_decode_process : decode CommandCodes.default (hostWord 0b0110) = .ok (.process (.fin 4)) := by decide
theorem test_decode_ignore : decode CommandCodes.default (hostWord 0b0111) = .ok .ignore := by decide
theorem test_decode_enq : decode CommandCodes.default (hostWord 0b1000) = .ok (.enq [0x01]) := by decide
theorem test_decode_evqempty : decode CommandCodes.default (hostWord 0b1001) = .ok .evqempty := by decide
theorem test_decode_reserved_ab : decode CommandCodes.default (hostWord 0b1010) = .ok (.reservedHostAB 0b0) := by decide
theorem test_decode_reserved_cf : decode CommandCodes.default (hostWord 0b1110) = .ok (.reservedHostCF 0b10) := by
  decide
/-- R89: op byte F1, high nibble ignored; requested address 22 (V-CMD-18). -/
theorem test_decode_assign :
    decode CommandCodes.default (.command 0b00000001 0xF1 0x22) = .ok (.cmdAssignEid 0x1 0x22) := by decide
theorem test_decode_get_eid : decode CommandCodes.default (.command 0b00000010 0xC5 0xA1) = .ok .cmdGetEid := by decide
theorem test_decode_get_version :
    decode CommandCodes.default (.command 0b00000100 0xFF 0x5B) = .ok (.cmdGetVersion 0xFF) := by decide
theorem test_decode_get_types : decode CommandCodes.default (.command 0b00000101 0xAC 0x0D) = .ok .cmdGetTypes := by
  decide
theorem test_decode_unsupported : decode CommandCodes.default (.command 0x03 0xC9 0x3B) = .ok (.cmdUnsupported 0x03) := by
  decide
theorem test_decode_sof : decode CommandCodes.default (.wire [0b01111110]) = .ok .sof := by decide
theorem test_decode_esc7e : decode CommandCodes.default (.wire [0b01111101, 0b01011110]) = .ok .esc7e := by decide
theorem test_decode_esc7d : decode CommandCodes.default (.wire [0b01111101, 0b01011101]) = .ok .esc7d := by decide
/-- R95: `7D 7D` is an invalid escape. -/
theorem test_decode_invalid_escape : decode CommandCodes.default (.wire [0x7D, 0x7D]) = .error (.invalidEscape 0x7D) := by
  decide
/-- R91: the codes are parameters. -/
theorem test_decode_other_codes :
    decode { CommandCodes.default with getEid := 0x33 } (.command 0x02 0x00 0x00) = .ok (.cmdUnsupported 0x02) := by
  decide

/-! ### The checksum (V-CK-3, V-CK-5, V-CK-6) -/

theorem test_ck_v3 : ck Config.tc 0xFFFF [0x01, 0x05, 0x10, 0x00, 0x30, 0x40, 0x50] = 0xDED0 := by decide
theorem test_ck_v5 : ck Config.tc 0xFFFF [0x31, 0x32, 0x33, 0x34, 0x35, 0x36, 0x37, 0x38, 0x39] = 0x6F91 := by decide
/-- The example of spec/42_frame_validator.md R160, and its last checksum byte changed (R163). -/
theorem test_valid : valid 13 (framer .fend 13 0 qGetEid) = .ok true := by decide
theorem test_invalid : valid 13 (framer .fend 13 0 (qGetEid.set 11 0xA0)) = .ok false := by decide

/-! ### One step of each instruction -/

/-- V-HOST-1. -/
theorem test_init : nextWith (exec .init (primary ⟨16, 4, false, 0⟩ (framer .sendingResponse 13 0 aGetEid0)))
    (fun t => t.fs == .waitSync && t.act == .none && t.eid == 0x00 && t.ps == Slot.zero && bytesAt t.buf 0 16 == aGetEid0)
    = true := by decide
/-- V-HOST-2. -/
theorem test_not_initialised :
    (match exec (.update (some 0x7E) (.fin 0)) (State.powerOn Config.tc [] []) with
      | .refused r => r == .notInitialised | .next _ => false | .fault _ => false) = true := by decide
/-- The example of spec/41_receive_framer.md R135. -/
theorem test_update_body : nextWith (exec (.update (some 0x02) (.fin 0)) (framer .body 9 1 [0x7E, 0x01, 0x07]))
    (fun t => t.buf.read 9 == 0x02 && t.rxIdx == 10 && t.rxCnt == 0 && t.fs == .fcs1) = true := by decide
/-- V-RX-1, the trailer. -/
theorem test_update_trailer :
    nextWith (exec (.update (some 0x7E) .inf) (framer .fend 12 0 (qGetEid.take 12)))
      (fun t => t.fs == .awaitingResponse && t.rxIdx == 13 && t.txout == []) = true := by decide
/-- The example of spec/44_transmitter.md R210. -/
theorem test_drain : nextWith (exec (.drain (.fin 3)) (primary ⟨16, 4, false, 0⟩ (framer .sendingResponse 13 0 aGetEid0)))
    (fun t => t.txout == [0x10, 0x00, 0xC0] && t.results == [.nat 3] && t.ps == ⟨16, 7, false, 0x00⟩) = true := by decide
/-- V-TX-6, the third call: the escape sequence is cut off. -/
theorem test_drain_cut_off :
    nextWith (exec (.drain (.fin 2)) (primary ⟨16, 4, false, 0⟩ (framer .sendingResponse 13 0 aGetEid7D)))
      (fun t => t.txout == [0x10, 0x7D] && t.ps == ⟨16, 5, true, 0x5D⟩) = true := by decide
/-- The example of spec/43_control_commands.md R180. -/
theorem test_process : nextWith (exec (.process (.fin 4)) { framer .awaitingResponse 13 0 qGetEid with eid := 0x00 })
    (fun t => t.fs == .sendingResponse && t.act == .primary && t.ps == ⟨16, 4, false, 0x00⟩ &&
      t.txout == [0x7E, 0x01, 0x0A, 0x01]) = true := by decide
/-- V-CMD-15: the address is installed after the trailer. -/
theorem test_process_assign : nextWith (exec (.process .inf) { framer .awaitingResponse 15 0 qAssign09 with eid := 0x00 })
    (fun t => t.eid == 0x09 && t.fs == .waitSync && t.txout ==
      [0x7E, 0x01, 0x0B, 0x01, 0x10, 0x00, 0xC0, 0x00, 0x00, 0x01, 0x00, 0x00, 0x00, 0x00, 0x9A, 0x2F, 0x7E]) = true := by
  decide +kernel
/-- The example of spec/43_control_commands.md R183, and V-SRC-8. -/
theorem test_assign : nextWith (exec (.cmdAssignEid 0x1 0x09) { framer .awaitingResponse 15 0 qAssign09 with eid := 0x00 })
    (fun t => t.eid == 0x00 && t.eidUpd && t.eidNext == 0x09 && bytesAt t.buf 10 7 ==
      [0x00, 0x00, 0x00, 0x00, 0x9A, 0x2F, 0x7E]) = true := by decide
theorem test_assign_rejected :
    nextWith (exec (.cmdAssignEid 0x2 0x09) { framer .awaitingResponse 15 0 qAssign09 with eid := 0x00 })
      (fun t => !t.eidUpd && bytesAt t.buf 0 14 ==
        [0x7E, 0x01, 0x08, 0x01, 0x10, 0x00, 0xC0, 0x00, 0x00, 0x01, 0x02, 0x8A, 0xA1, 0x7E]) = true := by decide
/-- The example of spec/43_control_commands.md R184. -/
theorem test_get_eid : nextWith (exec .cmdGetEid { framer .awaitingResponse 13 0 qGetEid with eid := 0x00 })
    (fun t => bytesAt t.buf 0 16 == aGetEid0 && t.fs == .sendingResponse) = true := by decide
/-- V-CMD-1 and V-CMD-5. -/
theorem test_get_version : nextWith (exec (.cmdGetVersion 0x00) (framer .awaitingResponse 14 0
      [0x7E, 0x01, 0x08, 0x01, 0x00, 0x10, 0xCB, 0x00, 0xC5, 0x04, 0x00, 0x54, 0xB9, 0x7E]))
    (fun t => bytesAt t.buf 0 19 == [0x7E, 0x01, 0x0D, 0x01, 0x10, 0x00, 0xC3, 0x00, 0x45, 0x04, 0x00, 0x01, 0xF1, 0xF3,
      0xF1, 0x00, 0x85, 0x4B, 0x7E]) = true := by decide +kernel
theorem test_get_version_unsupported : nextWith (exec (.cmdGetVersion 0x07) (framer .awaitingResponse 14 0
      [0x7E, 0x01, 0x08, 0x01, 0x00, 0x10, 0xCB, 0x00, 0xC5, 0x04, 0x07, 0x20, 0x06, 0x7E]))
    (fun t => bytesAt t.buf 0 15 == [0x7E, 0x01, 0x09, 0x01, 0x10, 0x00, 0xC3, 0x00, 0x45, 0x04, 0x80, 0x00, 0x6A, 0x72,
      0x7E]) = true := by decide
/-- V-CMD-6. -/
theorem test_get_types : nextWith (exec .cmdGetTypes (framer .awaitingResponse 13 0
      [0x7E, 0x01, 0x07, 0x01, 0x00, 0x10, 0xCB, 0x00, 0xC5, 0x05, 0xAC, 0x0D, 0x7E]))
    (fun t => bytesAt t.buf 0 16 == [0x7E, 0x01, 0x0A, 0x01, 0x10, 0x00, 0xC3, 0x00, 0x45, 0x05, 0x00, 0x01, 0x00, 0xA7,
      0xC3, 0x7E]) = true := by decide
/-- V-CMD-9. -/
theorem test_unsupported : nextWith (exec (.cmdUnsupported 0x03) (framer .awaitingResponse 13 0
      [0x7E, 0x01, 0x07, 0x01, 0x00, 0x10, 0xCB, 0x00, 0xC5, 0x03, 0xC9, 0x3B, 0x7E]))
    (fun t => bytesAt t.buf 0 14 == [0x7E, 0x01, 0x08, 0x01, 0x10, 0x00, 0xC3, 0x00, 0x45, 0x03, 0x05, 0xEF, 0xA9, 0x7E])
    = true := by decide
/-- V-HOST-4 and V-HOST-5: MessageType 01, then 02. -/
theorem test_queries : (nextWith (exec .pktavail (framer .awaitingResponse 13 0 (qGetEid.set 7 0x01)))
      (fun t => t.results == [.bool true]) &&
    nextWith (exec .isctrl (framer .awaitingResponse 13 0 (qGetEid.set 7 0x01))) (fun t => t.results == [.bool false]) &&
    nextWith (exec .isalt (framer .awaitingResponse 13 0 (qGetEid.set 7 0x01))) (fun t => t.results == [.bool true]) &&
    nextWith (exec .isalt (framer .awaitingResponse 13 0 (qGetEid.set 7 0x02))) (fun t => t.results == [.bool false]))
    = true := by decide
/-- V-HOST-4 and V-HOST-7. -/
theorem test_ignore : (nextWith (exec .ignore (framer .awaitingResponse 13 0 qGetEid)) (fun t => t.fs == .waitSync) &&
    nextWith (exec .ignore (framer .sendingResponse 13 0 aGetEid0)) (fun t => t.fs == .sendingResponse)) = true := by
  decide
/-- V-TX-11 and V-TX-10: 13 bytes into a buffer of 13, and of 12. -/
theorem test_enq : nextWith (exec (.enq evt1) { framer .waitSync 0 0 [] with cfg := { Config.tc with evtCap := 13 } })
    (fun t => t.evtPend && bytesAt t.ebuf 0 13 == evt1 && t.results == [.bool true]) = true := by decide
theorem test_enq_too_long : nextWith (exec (.enq evt1)
      { framer .waitSync 0 0 [] with cfg := { Config.tc with evtCap := 12 } })
    (fun t => !t.evtPend && t.ebuf == [] && t.results == [.bool false]) = true := by decide
/-- V-TX-12. -/
theorem test_enq_malformed : (match exec (.enq [0x7E, 0x01, 0x07, 0x01]) (framer .waitSync 0 0 []) with
    | .fault f => f == .malformedEvent | .next _ => false | .refused _ => false) = true := by decide
/-- V-TX-13. -/
theorem test_evqempty : nextWith (exec .evqempty (pendingEvent evt1 (framer .waitSync 0 0 [])))
    (fun t => t.results == [.bool false]) = true := by decide
/-- V-RX-14: the sentinel in the body. -/
theorem test_sof : nextWith (exec .sof (framer .body 5 5 [0x7E, 0x01, 0x07, 0x01, 0x00]))
    (fun t => t.fs == .hdr1 && t.rxIdx == 1) = true := by decide
/-- The pairs of spec/30_encoding.md R80. -/
theorem test_esc7e : nextWith (exec .esc7e (framer .body 4 6 [0x7E, 0x01, 0x07, 0x01]))
    (fun t => t.buf.read 4 == 0x7E && t.rxIdx == 5 && t.rxCnt == 5 && t.fs == .body) = true := by decide
/-- The example of spec/41_receive_framer.md R136. -/
theorem test_esc7d : nextWith (exec .esc7d (framer .body 4 6 [0x7E, 0x01, 0x07, 0x01]))
    (fun t => t.buf.read 4 == 0x7D && t.rxIdx == 5 && t.rxCnt == 5 && t.fs == .body) = true := by decide
/-- V-HOST-3. -/
theorem test_reserved : (match exec (.reservedHostCF 0) (framer .waitSync 0 0 []) with
    | .refused r => r == .reserved | .next _ => false | .fault _ => false) = true := by decide
/-- A table word is fetched and run from reset: `EVQEMPTY`, selector 9. -/
theorem test_step_from_reset : nextWith (step (State.reset.withFetchWord 4 0x9)) (fun t => t.results == [.bool true])
    = true := by decide

/-- Bytes that are no symbol are received: a data byte ends the body (R135), an invalid escape drops the frame (R136),
and bytes outside a frame are discarded (R132). -/
theorem test_step_receives_a_data_byte :
    nextWith (step (present (.wire [0x02]) (framer .body 9 1 [0x7E, 0x01, 0x07])))
      (fun t => t.buf.read 9 == 0x02 && t.rxIdx == 10 && t.rxCnt == 0 && t.fs == .fcs1 && t.pending == []) = true := by
  decide
theorem test_step_receives_an_invalid_escape :
    nextWith (step (present (.wire [0x7D, 0x7D]) (framer .body 9 1 [0x7E, 0x01, 0x07])))
      (fun t => t.rxIdx == 9 && t.rxCnt == 1 && t.fs == .waitSync) = true := by decide
theorem test_step_discards_outside_a_frame :
    nextWith (step (present (.wire [0x55, 0x7D]) (framer .waitSync 0 0 []))) (fun t => t == framer .waitSync 0 0 []) = true
    := by decide

/-! ### Witnesses: states that meet the hypotheses of the statements -/

theorem inv_idle : Inv (framer .waitSync 0 0 []) := inv_of (by decide)
theorem inv_hdr1 : Inv (framer .hdr1 1 0 [0x7E]) := inv_of (by decide)
theorem inv_hdr2 : Inv (framer .hdr2 2 0 [0x7E, 0x01]) := inv_of (by decide)
/-- The largest body of a buffer of 32 bytes, and the last byte of a body. -/
theorem inv_body : Inv (framer .body 3 24 [0x7E, 0x01, 0x18]) ∧ Inv (framer .body 9 1 [0x7E, 0x01, 0x07]) :=
  ⟨inv_of (by decide), inv_of (by decide)⟩
theorem inv_escape : Inv (framer .escape 3 24 [0x7E, 0x01, 0x18]) ∧ Inv (framer .escape 9 1 [0x7E, 0x01, 0x07]) :=
  ⟨inv_of (by decide), inv_of (by decide)⟩
/-- An empty body. -/
theorem inv_fcs1 : Inv (framer .fcs1 3 0 [0x7E, 0x01, 0x00]) := inv_of (by decide)
theorem inv_fcs2 : Inv (framer .fcs2 11 0 (qGetEid.take 11)) := inv_of (by decide)
theorem inv_end : Inv (framer .fend 12 0 (qGetEid.take 12)) := inv_of (by decide)
theorem inv_awaiting : Inv (framer .awaitingResponse 13 0 qGetEid) := inv_of (by decide)
theorem inv_assign : Inv (framer .awaitingResponse 15 0 qAssign09) := inv_of (by decide)
theorem inv_sending : Inv (framer .sendingResponse 13 0 aGetEid0) := inv_of (by decide)
theorem inv_primary : Inv (primary ⟨16, 4, false, 0⟩ (framer .sendingResponse 13 0 aGetEid7D)) := inv_of (by decide)
/-- At the byte 0x7D of offset 5, before and inside its escape sequence. -/
theorem inv_primary_escape : Inv (primary ⟨16, 5, false, 0⟩ (framer .sendingResponse 13 0 aGetEid7D)) ∧
    Inv (primary ⟨16, 5, true, 0x5D⟩ (framer .sendingResponse 13 0 aGetEid7D)) :=
  ⟨inv_of (by decide), inv_of (by decide)⟩
theorem inv_pending : Inv (pendingEvent evt1 (framer .waitSync 0 0 [])) := inv_of (by decide)
theorem inv_event : Inv (event ⟨13, 0, false, 0⟩ (pendingEvent evt1 (framer .waitSync 0 0 []))) := inv_of (by decide)
theorem held_awaiting : FrameHeld (framer .awaitingResponse 13 0 qGetEid) :=
  held_of (by decide) (fun _ => by decide) (fun h => by cases h)

/-- `Q_GETEID` is a logical frame with its checksum. -/
theorem frame_qGetEid : IsFrame qGetEid ∧ checksumRight Config.tc qGetEid ∧ 13 ≤ qGetEid.length ∧
    (qGetEid.getD 2 0).toNat + 8 ≤ Config.tc.bufCap :=
  ⟨⟨by decide, by decide, by decide⟩, by unfold checksumRight; decide, by decide, by decide⟩

theorem witness_OnlyAdmittedConfigurationsRun :
    configAdmitted { Config.tc with bufCap := 19 } = true ∧ configAdmitted { Config.tc with bufCap := 18 } = false := by
  decide

theorem witness_InitWritesTheResetValues : configAdmitted (State.powerOn Config.tc [] []).cfg = true ∧
    (State.powerOn Config.tc [] []).faulted = none := by decide

theorem witness_InitEstablishesTheInvariant :
    let s := State.powerOn Config.tc (mem aGetEid0) (mem evt1)
    configAdmitted s.cfg = true ∧ s.faulted = none ∧ s.buf.wf = true ∧ s.buf.within s.cfg.bufCap = true ∧
      s.ebuf.wf = true ∧ s.ebuf.within s.cfg.evtCap = true := by decide

theorem witness_RefusalsComeInOrder :
    let s := State.powerOn Config.tc [] []
    configAdmitted s.cfg = true ∧ (some Fault.malformedEvent ≠ none) ∧ s.faulted = none ∧
      isReserved (.reservedHostAB 0) ∧ ¬ isReserved .pktavail ∧ s.initDone = false ∧ Instr.pktavail ≠ .init ∧
      exec .pktavail s = .refused .notInitialised :=
  ⟨by decide, by decide, by decide, .inl ⟨0, rfl⟩, by simp [isReserved], by decide, by decide, rfl⟩

theorem witness_ReservedSelectorsAreRefused : configAdmitted (framer .waitSync 0 0 []).cfg = true ∧
    (framer .waitSync 0 0 []).faulted = none := by decide

theorem witness_FaultIsSticky : exec (.enq [0x7E, 0x01, 0x07, 0x01]) (framer .waitSync 0 0 []) =
    .fault .malformedEvent := rfl

/-- The shortest frames that fault, and one that does not. -/
theorem witness_OnlyAMalformedEventFaults : Inv (framer .waitSync 0 0 []) ∧
    exec (.enq []) (framer .waitSync 0 0 []) = .fault .malformedEvent ∧
    exec (.enq [0x7E, 0x01]) (framer .waitSync 0 0 []) = .fault .malformedEvent ∧
    nextWith (exec (.enq [0x7E, 0x01, 0x00, 0xE9, 0x60, 0x7E]) (framer .waitSync 0 0 [])) (·.evtPend) = true :=
  ⟨inv_idle, rfl, rfl, by decide⟩

theorem witness_EveryOperationCompletes : Inv (framer .waitSync 0 0 []) ∧ ¬ isReserved (.drain .inf) :=
  ⟨inv_idle, by simp [isReserved]⟩

theorem witness_StorageKeepsWhatIsWritten : (mem evt1).wf = true ∧ (mem evt1).within 13 = true ∧ 13 ≤ 13 ∧ 12 < 13 := by
  decide

theorem witness_OneWriterOfEachBuffer :
    nextWith (exec (.update (some 0x02) (.fin 0)) (framer .body 9 1 [0x7E, 0x01, 0x07])) (fun t => t.buf != mem []) = true ∧
    nextWith (exec .cmdGetEid (framer .awaitingResponse 13 0 qGetEid)) (fun t => t.buf != mem qGetEid) = true ∧
    nextWith (exec (.drain .inf) (framer .sendingResponse 13 0 aGetEid0)) (fun t => t.buf == mem aGetEid0) = true ∧
    nextWith (exec (.enq evt1) (framer .waitSync 0 0 [])) (fun t => t.ebuf != []) = true := by decide +kernel

theorem witness_ValidatorDecidesTheThreeChecks : 32 ≤ (framer .fend 13 0 qGetEid).cfg.bufCap ∧
    10 ≤ (framer .fend 13 0 qGetEid).cfg.bufCap := by decide

theorem witness_WaitSyncArm : Inv (framer .waitSync 0 0 []) ∧ (framer .waitSync 0 0 []).fs = .waitSync ∧
    (0x7D : Byte) ≠ 0x7E := ⟨inv_idle, rfl, by decide⟩

theorem witness_VerbatimArms : Inv (framer .hdr1 1 0 [0x7E]) ∧ Inv (framer .hdr2 2 0 [0x7E, 0x01]) ∧
    Inv (framer .fcs1 3 0 [0x7E, 0x01, 0x00]) ∧ Inv (framer .fcs2 11 0 (qGetEid.take 11)) :=
  ⟨inv_hdr1, inv_hdr2, inv_fcs1, inv_fcs2⟩

/-- The boundary lengths of `HDR2` in a buffer of 32 bytes: 0, 24 and 25 (spec/41_receive_framer.md R134). -/
theorem witness_VerbatimArms_lengths :
    nextWith (exec (.update (some 0x00) (.fin 0)) (framer .hdr2 2 0 [0x7E, 0x01])) (fun t => t.fs == .fcs1) = true ∧
    nextWith (exec (.update (some 0x18) (.fin 0)) (framer .hdr2 2 0 [0x7E, 0x01])) (fun t => t.fs == .body) = true ∧
    nextWith (exec (.update (some 0x19) (.fin 0)) (framer .hdr2 2 0 [0x7E, 0x01])) (fun t => t.fs == .waitSync) = true := by
  decide

theorem witness_BodyArm : Inv (framer .body 3 24 [0x7E, 0x01, 0x18]) ∧ Inv (framer .body 9 1 [0x7E, 0x01, 0x07]) ∧
    (0x5E : Byte) ≠ 0x7D ∧ (0x5E : Byte) ≠ 0x7E := ⟨inv_body.1, inv_body.2, by decide, by decide⟩

theorem witness_EscapeArm : Inv (framer .escape 3 24 [0x7E, 0x01, 0x18]) ∧ Inv (framer .escape 9 1 [0x7E, 0x01, 0x07]) ∧
    (0x7D : Byte) ≠ 0x7E ∧ (0x7D : Byte) ≠ 0x5E ∧ (0x7D : Byte) ≠ 0x5D :=
  ⟨inv_escape.1, inv_escape.2, by decide, by decide, by decide⟩

/-- The trailer of an accepted frame and of a corrupted one. -/
theorem witness_EndArm : Inv (framer .fend 12 0 (qGetEid.take 12)) ∧ (0x00 : Byte) ≠ 0x7E ∧
    FrameAccepted (framer .fend 13 0 qGetEid) ∧ ¬ FrameAccepted (framer .fend 13 0 (qGetEid.set 11 0xA0)) :=
  ⟨inv_end, by decide, ⟨by decide, by decide, by decide, .inl (by decide)⟩, fun h => absurd h.checksum (by decide)⟩

theorem witness_BusyArmDiscards : (framer .awaitingResponse 13 0 qGetEid).fs = .awaitingResponse ∧
    (framer .sendingResponse 13 0 aGetEid0).fs = .sendingResponse := by decide

theorem witness_UpdateReceivesThenDrains : Inv (primary ⟨16, 4, false, 0⟩ (framer .sendingResponse 13 0 aGetEid7D)) :=
  inv_primary

theorem witness_FrameOfUpdate : (framer .body 9 1 [0x7E, 0x01, 0x07]).buf.wf = true ∧
    nextWith (exec (.update (some 0x02) .inf) (framer .body 9 1 [0x7E, 0x01, 0x07])) (fun _ => true) = true ∧
    storesAt 0x02 (framer .body 9 1 [0x7E, 0x01, 0x07]) ≠ some 8 := by decide

theorem witness_SofStartsAFrame : Inv (framer .waitSync 0 0 []) ∧ Inv (framer .body 9 1 [0x7E, 0x01, 0x07]) ∧
    Inv (framer .escape 9 1 [0x7E, 0x01, 0x07]) := ⟨inv_idle, inv_body.2, inv_escape.2⟩

theorem witness_EscapePairsStoreTheByteTheyStandFor : Inv (framer .body 9 1 [0x7E, 0x01, 0x07]) ∧
    (framer .body 9 1 [0x7E, 0x01, 0x07]).fs = .body := ⟨inv_body.2, rfl⟩

theorem witness_ReceivedWireFormIsTheFrame : Inv (framer .waitSync 0 0 []) ∧ (framer .waitSync 0 0 []).fs = .waitSync ∧
    IsFrame qGetEid ∧ (qGetEid.getD 2 0).toNat + 8 ≤ (framer .waitSync 0 0 []).cfg.bufCap :=
  ⟨inv_idle, rfl, frame_qGetEid.1, by decide⟩

theorem witness_AdmittedExactlyWhenAddressed : Inv (framer .waitSync 0 0 []) ∧ IsFrame qGetEid ∧ 11 ≤ qGetEid.length ∧
    (qGetEid.getD 2 0).toNat + 8 ≤ (framer .waitSync 0 0 []).cfg.bufCap ∧
    checksumRight (framer .waitSync 0 0 []).cfg qGetEid :=
  ⟨inv_idle, frame_qGetEid.1, by decide, by decide, frame_qGetEid.2.1⟩

/-- Empty, and cut before the trailer; V-RX-4; V-RX-11; V-RX-8's length; V-RX-5; V-RX-7. -/
theorem witness_MalformedFramesGiveNoPacket : Inv (framer .waitSync 0 0 []) ∧
    Malformed Config.tc ((wireForm qGetEid).take 0) ∧ Malformed Config.tc ((wireForm qGetEid).take 12) ∧
    Malformed Config.tc (wireForm (qGetEid.set 11 0xA0)) ∧
    Malformed Config.tc (wireForm [0x7E, 0x01, 0x00, 0xE9, 0x60, 0x7E]) ∧
    Malformed Config.tc (wireForm ([0x7E, 0x01, 0x19] ++ List.replicate 25 0x11 ++ [0xAD, 0x33, 0x7E])) ∧
    Malformed Config.tc ((wireForm qGetEid).dropLast ++ [0x00]) ∧
    Malformed Config.tc (qGetEid.take 3 ++ ((qGetEid.drop 3).take 2).flatMap stuff ++ [0x7D, 0x11] ++ [0xC8] ++ [0x7E]) :=
  ⟨inv_idle, .truncated _ 0 frame_qGetEid.1 (by decide), .truncated _ 12 frame_qGetEid.1 (by decide),
    .corruptedChecksum _ ⟨by decide, by decide, by decide⟩ (by unfold checksumRight; decide),
    .undersized _ ⟨by decide, by decide, by decide⟩ (by decide),
    .oversized _ ⟨by decide, by decide, by decide⟩ (by decide), .missingTrailer _ 0x00 frame_qGetEid.1 (by decide),
    .invalidEscape _ 2 0x11 [0xC8] frame_qGetEid.1 (by decide) (by decide) (by decide) (by decide) (by decide)⟩

theorem witness_AssignAccepted : Inv (framer .awaitingResponse 15 0 qAssign09) ∧ (0x1 : BitVec 4) ≠ 0x2 ∧
    (0x1 : BitVec 4) ≠ 0x3 ∧ (0xFE : Byte) ≠ 0x00 ∧ (0xFE : Byte) ≠ 0xFF :=
  ⟨inv_assign, by decide, by decide, by decide, by decide⟩

theorem witness_AssignRejected : Inv (framer .awaitingResponse 15 0 qAssign09) ∧
    (framer .awaitingResponse 15 0 qAssign09).fs = .awaitingResponse := ⟨inv_assign, rfl⟩

/-- For GetEidAnswersTheAddress, GetVersionAnswersTheTuple, GetTypesAnswersTheList, UnsupportedCommandIsAnswered,
CompletionCodesAreFour and both cases of ProcessRunsTheSelectedHandlerThenDrains. -/
theorem witness_commands : Inv (framer .awaitingResponse 13 0 qGetEid) ∧
    (framer .awaitingResponse 13 0 qGetEid).fs = .awaitingResponse ∧
    (framer .awaitingResponse 13 0 qGetEid).cfg.supportedTypes.length ≤ 246 ∧
    Inv (framer .sendingResponse 13 0 aGetEid0) ∧ (framer .sendingResponse 13 0 aGetEid0).fs ≠ .awaitingResponse :=
  ⟨inv_awaiting, rfl, by decide, inv_sending, by decide⟩

/-- GetVersionAnswersTheTuple with the alternate type registered, and GetTypesAnswersTheList with the most types whose
length fits a byte and one more. -/
theorem witness_commands_configured :
    Inv { framer .awaitingResponse 13 0 qGetEid with cfg := { Config.tc with altVersion := some ⟨1, 2, 3, 4⟩ } } ∧
    Inv { framer .awaitingResponse 13 0 qGetEid with
      cfg := { Config.tc with bufCap := 261, supportedTypes := List.replicate 246 0x00 } } ∧
    Inv { framer .awaitingResponse 13 0 qGetEid with
      cfg := { Config.tc with bufCap := 262, supportedTypes := List.replicate 247 0x00 } } :=
  ⟨inv_of (by decide), inv_of (by decide +kernel), inv_of (by decide +kernel)⟩

theorem witness_ResponsePassesTheValidator : Inv (framer .awaitingResponse 13 0 qGetEid) ∧
    FrameHeld (framer .awaitingResponse 13 0 qGetEid) ∧ isCommand .cmdGetEid = true ∧
    (framer .awaitingResponse 13 0 qGetEid).cfg.supportedTypes.length ≤ 246 :=
  ⟨inv_awaiting, held_awaiting, rfl, by decide⟩

theorem witness_AssignmentTakesEffectAfterItsResponse :
    let s := framer .awaitingResponse 15 0 qAssign09
    Inv s ∧ s.fs = .awaitingResponse ∧ s.act = .none ∧ s.evtPend = false ∧ s.buf.read 9 = s.cfg.codes.assignEid ∧
      (s.buf.read 10).extractLsb' 0 4 ≠ (0x2 : BitVec 4) ∧ (s.buf.read 10).extractLsb' 0 4 ≠ (0x3 : BitVec 4) ∧
      s.buf.read 11 ≠ 0x00 ∧ s.buf.read 11 ≠ 0xFF := ⟨inv_assign, by decide⟩

theorem witness_AddressRequestIsAnswered :
    let s := framer .waitSync 0 0 []
    Inv s ∧ s.fs = .waitSync ∧ s.act = .none ∧ s.evtPend = false ∧ IsFrame qGetEid ∧ 13 ≤ qGetEid.length ∧
      (qGetEid.getD 2 0).toNat + 8 ≤ s.cfg.bufCap ∧ checksumRight s.cfg qGetEid ∧ qGetEid.getD 4 0 = 0x00 ∧
      qGetEid.getD 9 0 = s.cfg.codes.getEid :=
  ⟨inv_idle, rfl, rfl, rfl, frame_qGetEid.1, by decide, by decide, frame_qGetEid.2.1, by decide, by decide⟩

theorem witness_DrainSelectsTheSlot : Inv (pendingEvent evt1 (framer .waitSync 0 0 [])) ∧
    Inv (framer .sendingResponse 13 0 aGetEid0) ∧ Inv (framer .waitSync 0 0 []) ∧
    (pendingEvent evt1 (framer .waitSync 0 0 [])).cfg.eventEnabled = true :=
  ⟨inv_pending, inv_sending, inv_idle, rfl⟩

/-- DrainSendsTheNextWireBytes: a capacity that leaves bytes, and one that does not. -/
theorem witness_DrainSendsTheNextWireBytes :
    let s := primary ⟨16, 4, false, 0⟩ (framer .sendingResponse 13 0 aGetEid7D)
    Inv s ∧ s.act ≠ .none ∧ takeCap (.fin 13) (activeWire s) ≠ activeWire s ∧
      takeCap (.fin 14) (activeWire s) = activeWire s := ⟨inv_primary, by decide⟩

/-- DrainOfOneByte: a raw byte, a byte that is stuffed, and a continuation; and the event slot. -/
theorem witness_DrainOfOneByte : Inv (primary ⟨16, 4, false, 0⟩ (framer .sendingResponse 13 0 aGetEid7D)) ∧
    Inv (primary ⟨16, 5, false, 0⟩ (framer .sendingResponse 13 0 aGetEid7D)) ∧
    Inv (primary ⟨16, 5, true, 0x5D⟩ (framer .sendingResponse 13 0 aGetEid7D)) ∧
    (framer .sendingResponse 13 0 aGetEid7D).buf.read 4 ≠ 0x7D ∧
    (framer .sendingResponse 13 0 aGetEid7D).buf.read 5 = 0x7D ∧
    Inv (event ⟨13, 0, false, 0⟩ (pendingEvent evt1 (framer .waitSync 0 0 []))) :=
  ⟨inv_primary, inv_primary_escape.1, inv_primary_escape.2, by decide, by decide, inv_event⟩

theorem witness_PrimaryCompletion :
    let s := primary ⟨16, 4, false, 0⟩ (framer .sendingResponse 13 0 aGetEid7D)
    Inv s ∧ s.act = .primary ∧ takeCap .inf (activeWire s) = activeWire s := ⟨inv_primary, rfl, rfl⟩

theorem witness_EventCompletion :
    let s := event ⟨13, 0, false, 0⟩ (pendingEvent evt1 (framer .waitSync 0 0 []))
    Inv s ∧ s.act = .event ∧ takeCap (.fin 13) (activeWire s) = activeWire s := ⟨inv_event, rfl, by decide⟩

/-- PartialSendsEqualOneSend and FramesAreNeverInterleaved: two drains of one byte and one of none, then the rest. -/
theorem witness_PartialSendsEqualOneSend :
    let s := primary ⟨16, 4, false, 0⟩ (framer .sendingResponse 13 0 aGetEid7D)
    Inv s ∧ s.act ≠ .none ∧
      (match runWhileActive ([.fin 1, .fin 1, .fin 0].map .drain) s with
        | some u => u.act != .none && nextWith (exec (.drain .inf) u) (fun t => t.act == .none)
        | none => false) = true := ⟨inv_primary, by decide, by decide +kernel⟩

/-- PartialSendsEqualOneSend from activation, under an inbound byte, a no-op PROCESS and an UPDATE that completes. -/
theorem witness_PartialSendsEqualOneSend_fresh :
    let s := primary ⟨16, 0, false, 0⟩ (framer .sendingResponse 13 0 aGetEid7D)
    Inv s ∧ s.act ≠ .none ∧ activeSlot s = Slot.activated ((activeBuffer s).read 2) ∧
      (match runWhileActive [.update (some 0x7E) (.fin 3), .process (.fin 2), .drain (.fin 1)] s with
        | some u => u.act != .none && nextWith (exec (.update none .inf) u) (fun t => t.act == .none)
        | none => false) = true := ⟨inv_of (by decide), by decide, by decide, by decide +kernel⟩

/-- FramesAreNeverInterleaved with an event enqueued and a byte received meanwhile. -/
theorem witness_FramesAreNeverInterleaved :
    let s := primary ⟨16, 4, false, 0⟩ (framer .sendingResponse 13 0 aGetEid7D)
    Inv s ∧ s.act ≠ .none ∧
      (match runWhileActive [.enq evt1, .update (some 0x7E) (.fin 2), .pktavail] s with
        | some u => u.act != .none && nextWith (exec (.update none .inf) u) (fun t => t.act == .none)
        | none => false) = true := ⟨inv_primary, by decide, by decide +kernel⟩

/-- OutputOnlyGrows and FrameOfDrainAndProcess. -/
theorem witness_OutputOnlyGrows :
    nextWith (exec (.drain .inf) (primary ⟨16, 4, false, 0⟩ (framer .sendingResponse 13 0 aGetEid7D)))
      (fun t => t.txout.length == 14) = true ∧
    nextWith (exec (.process (.fin 2)) (framer .awaitingResponse 13 0 qGetEid)) (fun t => t.txout.length == 2) = true := by
  decide +kernel

theorem witness_DrainingEndsTheResponse : Inv (framer .sendingResponse 13 0 aGetEid0) ∧
    (∀ i ∈ List.replicate 1044 (Instr.update (some 0x7E) (.fin 1)),
      ∃ cap, cap ≠ Cap.fin 0 ∧ (i = .drain cap ∨ ∃ rx, i = .update rx cap)) ∧
    1044 ≤ (List.replicate 1044 (Instr.update (some 0x7E) (.fin 1))).length :=
  ⟨inv_sending, fun i hi => ⟨.fin 1, by decide, .inr ⟨some 0x7E, List.eq_of_mem_replicate hi⟩⟩,
    (List.length_replicate ..).ge⟩

/-- Each clause of EnqueueCopiesTheFrame: off; occupied; one byte too long; 2 bytes; the smallest frame. -/
theorem witness_EnqueueCopiesTheFrame : Running (framer .waitSync 0 0 []) ∧ (framer .waitSync 0 0 []).ebuf.wf = true ∧
    Running { framer .waitSync 0 0 [] with cfg := { Config.tc with eventEnabled := false } } ∧
    (pendingEvent evt1 (framer .waitSync 0 0 [])).evtPend = true ∧
    (framer .waitSync 0 0 []).cfg.evtCap < (List.replicate 33 (0x00 : Byte)).length ∧
    ([0x7E, 0x01] : List Byte).length < 3 ∧ 3 ≤ ([0x7E, 0x01, 0x00, 0xE9, 0x60, 0x7E] : List Byte).length ∧
    (([0x7E, 0x01, 0x00, 0xE9, 0x60, 0x7E] : List Byte).getD 2 0).toNat + 6 = 6 :=
  ⟨inv_idle.running, by decide, ⟨by decide, rfl, rfl⟩, rfl, by decide, by decide, by decide, by decide⟩

/-- QueriesAnswer and IgnoreDropsThePacket. -/
theorem witness_QueriesAnswer : Running (framer .awaitingResponse 13 0 qGetEid) ∧ Running (framer .waitSync 0 0 []) ∧
    Inv { framer .waitSync 0 0 [] with cfg := { Config.tc with eventEnabled := false } } :=
  ⟨inv_awaiting.running, inv_idle.running, inv_of (by decide)⟩

/-- StepKeepsTheInvariant and StepKeepsTheHeldFrame. -/
theorem witness_StepKeepsTheInvariant :
    let s := present (.host { sel := 0x6, cap := .fin 4 }) (framer .awaitingResponse 13 0 qGetEid)
    Inv s ∧ FrameHeld s ∧ s.cfg.supportedTypes.length ≤ 246 ∧ nextWith (step s) (fun t => t.fs == .sendingResponse) = true :=
  ⟨inv_of (by decide), held_of (by decide) (fun _ => by decide) (fun h => by cases h), by decide, by decide⟩

/-- OnlyInitAndTheCommitWriteTheAddress: an address is committed. -/
theorem witness_OnlyInitAndTheCommitWriteTheAddress :
    let s := { primary ⟨16, 4, false, 0⟩ (framer .sendingResponse 13 0 aGetEid7D) with eidUpd := true, eidNext := 0x0A }
    Inv s ∧ nextWith (exec (.drain .inf) s) (fun t => t.eid != s.eid) = true := ⟨inv_of (by decide), by decide +kernel⟩

theorem witness_DecodeOfEncodeIsTheInstruction : CommandCodes.default.distinct = true ∧
    (Instr.cmdUnsupported 0x00).wf CommandCodes.default = true := by decide

theorem witness_StepRunsTheDecodedInstruction :
    let s := present (.host { sel := 0x9 }) State.reset
    State.reset.pending = [] ∧ s.pending = [.host { sel := 0x9 }] ∧
      decode s.cfg.codes (.host { sel := 0x9 }) = .ok .evqempty ∧
      decode s.cfg.codes (.wire [0x55]) = .error (.dataByte 0x55) ∧
      decode s.cfg.codes (tableWord 4 0x9) = .ok .evqempty := by decide

/-- StepRunsTheDecodedInstruction: presented bytes, one that is no symbol, several and none. -/
theorem witness_StepRunsTheDecodedInstruction_bytes :
    let s := framer .body 9 1 [0x7E, 0x01, 0x07]
    (Inv (present (.wire [0x55]) s) ∧ Inv (present (.wire [0x7E, 0x01, 0x07]) s) ∧ Inv (present (.wire []) s)) ∧
      (present (.wire [0x55]) s).pending = [.wire [0x55]] :=
  ⟨⟨inv_of (by decide), inv_of (by decide), inv_of (by decide)⟩, rfl⟩

end Sys2Proof.Tests
end

section
/-! PROOFS. The statements of spec/00_scope.md: every checksum step has a table (R11), the completion codes (R18), the
admitted configurations (R14); with the rules on guards, refusals and command rows they need. -/

namespace Sys2Proof.Machine

/-! ### Checksum tables (spec/00_scope.md R11) -/

/-- The words of width `n`. -/
def allWords (n : Nat) : List (BitVec n) := (List.finRange (2 ^ n)).map BitVec.ofFin

theorem mem_allWords {n : Nat} (x : BitVec n) : x ∈ allWords n :=
  List.mem_map.2 ⟨x.toFin, List.mem_finRange _, rfl⟩

/-- The row by which a table gives `f` at one point. -/
def ckRowOf (f : Half → Byte → Half) (p : Half × Byte) : CkRow := ⟨p.1, p.2, f p.1 p.2⟩

/-- A table of rows of `f` steps as `f` at every point it lists. -/
theorem ckStep_map_ckRowOf {f : Half → Byte → Half} {points : List (Half × Byte)} {s : Half} {b : Byte}
    (h : (s, b) ∈ points) : ckStep (points.map (ckRowOf f)) s b = f s b := by
  induction points with
  | nil => cases h
  | cons p rest ih =>
    simp only [List.map_cons, ckStep, ckRowOf]
    by_cases hp : p.1 = s ∧ p.2 = b
    · rw [if_pos hp, hp.1, hp.2]
    · rw [if_neg hp]
      have hne : (s, b) ≠ p := fun he => hp ⟨(congrArg Prod.fst he).symm, (congrArg Prod.snd he).symm⟩
      exact ih ((List.mem_cons.1 h).resolve_left hne)

/-! ### The guard of an instruction (spec/45_host_interface.md R247) -/

/-- Every instruction runs under one of the three guards: `INIT`'s, a reserved selector's, or the common one. -/
theorem exec_guard_cases (i : Instr) (s : State) :
    (i = .init ∧ exec i s = execInit s) ∨ (isReserved i ∧ exec i s = executeReserved s) ∨
      (i ≠ .init ∧ ¬ isReserved i ∧ ∃ effect, exec i s = execute s effect) := by
  cases i
  case init => exact .inl ⟨rfl, rfl⟩
  case reservedHostAB a => exact .inr (.inl ⟨.inl ⟨a, rfl⟩, rfl⟩)
  case reservedHostCF c => exact .inr (.inl ⟨.inr ⟨c, rfl⟩, rfl⟩)
  all_goals exact .inr (.inr ⟨nofun, by simp [isReserved], _, rfl⟩)

theorem completed_ne_refused (e : Except Fault State) (r : Refusal) : completed e ≠ .refused r := by
  cases e <;> exact nofun

/-- The refusals of an operation are those of its guard. -/
theorem execute_eq_refused {s : State} {e : Except Fault State} {r : Refusal} :
    execute s e = .refused r ↔ refusalOfOperation s = some r := by
  unfold execute
  cases refusalOfOperation s <;> simp [completed_ne_refused]

/-- The refusals of `INIT` are those that come before the selector is looked at. -/
theorem executeInit_eq_refused {s : State} {e : Except Fault State} {r : Refusal} :
    executeInit s e = .refused r ↔ refusalBeforeSelector s = some r := by
  unfold executeInit
  cases refusalBeforeSelector s <;> simp [completed_ne_refused]

theorem executeReserved_eq_refused {s : State} {r : Refusal} :
    executeReserved s = .refused r ↔
      refusalBeforeSelector s = some r ∨ refusalBeforeSelector s = none ∧ r = .reserved := by
  unfold executeReserved
  cases refusalBeforeSelector s <;> simp [eq_comm]

theorem refusalBeforeSelector_eq_badConfig {s : State} :
    refusalBeforeSelector s = some .badConfig ↔ configAdmitted s.cfg = false := by
  unfold refusalBeforeSelector
  by_cases ha : configAdmitted s.cfg = false
  · simp [ha]
  · cases s.faulted <;> simp [ha]

theorem refusalOfOperation_eq_badConfig {s : State} :
    refusalOfOperation s = some .badConfig ↔ configAdmitted s.cfg = false := by
  rw [← refusalBeforeSelector_eq_badConfig]
  unfold refusalOfOperation
  cases refusalBeforeSelector s with
  | some r => exact Iff.rfl
  | none => cases s.initDone <;> simp

/-- `BadConfig` is the refusal of every instruction under a configuration that is not admitted, and of no other. -/
theorem exec_eq_badConfig {s : State} {i : Instr} :
    exec i s = .refused .badConfig ↔ configAdmitted s.cfg = false := by
  rcases exec_guard_cases i s with ⟨-, h⟩ | ⟨-, h⟩ | ⟨-, -, e, h⟩ <;> rw [h]
  · exact executeInit_eq_refused.trans refusalBeforeSelector_eq_badConfig
  · rw [executeReserved_eq_refused, refusalBeforeSelector_eq_badConfig]
    simp
  · exact execute_eq_refused.trans refusalOfOperation_eq_badConfig

theorem distinct_iff {codes : CommandCodes} :
    codes.distinct = true ↔ codes.assignEid ≠ codes.getEid ∧ codes.assignEid ≠ codes.getVersion ∧
      codes.assignEid ≠ codes.getTypes ∧ codes.getEid ≠ codes.getVersion ∧ codes.getEid ≠ codes.getTypes ∧
      codes.getVersion ≠ codes.getTypes := by
  simp only [CommandCodes.distinct, Bool.and_eq_true, bne_iff_ne, and_assoc]

/-- The constraints of spec/00_scope.md R14, one by one. -/
theorem configAdmitted_iff {c : Config} :
    configAdmitted c = true ↔ 19 ≤ c.bufCap ∧ 15 + c.supportedTypes.length ≤ c.bufCap ∧
      (c.eventEnabled = true → 6 ≤ c.evtCap) ∧ c.codes.distinct = true ∧ c.supportedTypes.length ≤ 255 := by
  refine ⟨admitted_bounds, fun ⟨hcap, hroom, hevt, hcodes, htypes⟩ => ?_⟩
  simp only [configAdmitted, hcap, hroom, hcodes, htypes, decide_true, Bool.true_and, Bool.and_true, Bool.or_eq_true,
    Bool.not_eq_true', decide_eq_true_eq]
  exact (Bool.eq_false_or_eq_true c.eventEnabled).symm.imp_right hevt

/-! ### The completion code of a command row (spec/00_scope.md R18) -/

theorem isCommand_cases {i : Instr} (h : isCommand i = true) :
    (∃ op req, i = .cmdAssignEid op req) ∨ i = .cmdGetEid ∨ (∃ t, i = .cmdGetVersion t) ∨ i = .cmdGetTypes ∨
      ∃ code, i = .cmdUnsupported code := by
  cases i
  case cmdAssignEid op req => exact .inl ⟨op, req, rfl⟩
  case cmdGetEid => exact .inr (.inl rfl)
  case cmdGetVersion t => exact .inr (.inr (.inl ⟨t, rfl⟩))
  case cmdGetTypes => exact .inr (.inr (.inr (.inl rfl)))
  case cmdUnsupported code => exact .inr (.inr (.inr (.inr ⟨code, rfl⟩)))
  all_goals cases h

/-- In `AWAITING_RESPONSE` a handler is run, and its outcome is the operation's. -/
theorem execute_whenAwaiting {s : State} (h : Running s) (hf : s.fs = .awaitingResponse) (e : Except Fault State) :
    execute s (whenAwaiting s e) = completed e := by
  rw [execute_running h, whenAwaiting, if_pos hf]

section
variable {s : State} (h : Inv s) (hf : s.fs = .awaitingResponse)
include h hf

theorem exec_cmdAssignEid_awaiting (op : BitVec 4) (req : Byte) :
    exec (.cmdAssignEid op req) s = .next { assignDeferred op req s with
      buf := responseWritten (assignPayload op req s) s, fs := .sendingResponse } :=
  (execute_whenAwaiting h.running hf _).trans (congrArg completed (assignEid_ok h.running.admitted h.bufWf))

theorem exec_cmdGetEid_awaiting : exec .cmdGetEid s = .next { s with
    buf := responseWritten (getEidPayload s) s, fs := .sendingResponse } :=
  (execute_whenAwaiting h.running hf _).trans (congrArg completed (getEid_ok h.running.admitted h.bufWf))

theorem exec_cmdGetVersion_awaiting (t : Byte) : exec (.cmdGetVersion t) s = .next { s with
    buf := responseWritten (getVersionPayload t s) s, fs := .sendingResponse } :=
  (execute_whenAwaiting h.running hf _).trans (congrArg completed (getVersion_ok h.running.admitted h.bufWf))

theorem exec_cmdGetTypes_awaiting : exec .cmdGetTypes s = .next { s with
    buf := responseWritten (getTypesPayload s) s, fs := .sendingResponse
    freeCount := drawnAfter (12 + s.cfg.supportedTypes.length) s } :=
  (execute_whenAwaiting h.running hf _).trans (congrArg completed (getTypes_ok h.running.admitted h.bufWf))

theorem exec_cmdUnsupported_awaiting (code : Byte) : exec (.cmdUnsupported code) s = .next { s with
    buf := responseWritten (unsupportedPayload s) s, fs := .sendingResponse } :=
  (execute_whenAwaiting h.running hf _).trans (congrArg completed (unsupported_ok h.running.admitted h.bufWf))

end

/-- The byte at offset 10 of a response is the first of its payload. -/
theorem responseWritten_read_ten {s : State} (hw : s.buf.wf = true) (c : Byte) (rest : List Byte) :
    (responseWritten (c :: rest) s).read 10 = c := by
  have hr := responseWritten_isResponse (payload := c :: rest) hw
    (t := { s with buf := responseWritten (c :: rest) s }) rfl rfl
  have hp := hr.payloadBytes
  rw [List.length_cons, bytesAt_succ] at hp
  exact (List.cons.inj hp).1

/-- The completion code a command row answers with (spec/43_control_commands.md R183 to R187);
Get Endpoint ID and Get Message Type Support always answer success. -/
def completionCode (cfg : Config) : Instr → Byte
  | .cmdAssignEid op req => if assignRejected op req then 0x02 else 0x00
  | .cmdGetVersion t => if (versionOf cfg t).isSome then 0x00 else 0x80
  | .cmdUnsupported _ => cfg.ccUnsupported
  | _ => 0x00

theorem assignPayload_eq_cons (op : BitVec 4) (req : Byte) (s : State) :
    ∃ rest, assignPayload op req s = completionCode s.cfg (.cmdAssignEid op req) :: rest := by
  simp only [assignPayload, completionCode]
  cases assignRejected op req <;> simp

theorem getVersionPayload_eq_cons (t : Byte) (s : State) :
    ∃ rest, getVersionPayload t s = completionCode s.cfg (.cmdGetVersion t) :: rest := by
  simp only [getVersionPayload, completionCode]
  cases versionOf s.cfg t <;> simp

/-- A command row run in `AWAITING_RESPONSE` completes, with its completion code at offset 10. -/
theorem exec_command_completionCode {s : State} {i : Instr} (h : Inv s) (hf : s.fs = .awaitingResponse)
    (hc : isCommand i = true) : ∃ t, exec i s = .next t ∧ t.buf.read 10 = completionCode s.cfg i := by
  have hten := responseWritten_read_ten h.bufWf
  rcases isCommand_cases hc with ⟨op, req, rfl⟩ | rfl | ⟨t, rfl⟩ | rfl | ⟨code, rfl⟩
  · obtain ⟨rest, hp⟩ := assignPayload_eq_cons op req s
    exact ⟨_, exec_cmdAssignEid_awaiting h hf op req, by simpa only [hp] using hten _ rest⟩
  · exact ⟨_, exec_cmdGetEid_awaiting h hf, hten _ _⟩
  · obtain ⟨rest, hp⟩ := getVersionPayload_eq_cons t s
    exact ⟨_, exec_cmdGetVersion_awaiting h hf t, by simpa only [hp] using hten _ rest⟩
  · exact ⟨_, exec_cmdGetTypes_awaiting h hf, hten _ _⟩
  · exact ⟨_, exec_cmdUnsupported_awaiting h hf code, hten _ _⟩

theorem completionCode_mem (cfg : Config) (i : Instr) :
    completionCode cfg i = 0x00 ∨ completionCode cfg i = 0x02 ∨ completionCode cfg i = 0x80 ∨
      completionCode cfg i = cfg.ccUnsupported := by
  unfold completionCode
  split
  · split <;> simp
  · split <;> simp
  · simp
  · simp

/-- Each of the four codes is some command's: an accepted address, an operation that is rejected, a message type with
no version, and a code that is no command. -/
theorem exists_command_of_completionCode {cfg : Config} {c : Byte}
    (h : c = 0x00 ∨ c = 0x02 ∨ c = 0x80 ∨ c = cfg.ccUnsupported) :
    ∃ i, isCommand i = true ∧ completionCode cfg i = c := by
  rcases h with rfl | rfl | rfl | rfl
  · exact ⟨.cmdGetEid, rfl, rfl⟩
  · exact ⟨.cmdAssignEid 0x2 0x00, rfl, rfl⟩
  · exact ⟨.cmdGetVersion 0x02, rfl, rfl⟩
  · exact ⟨.cmdUnsupported 0x00, rfl, rfl⟩

/-! ### The obligations -/

/-- Settles O14, by the table that lists a row of `f` for every state and byte. -/
theorem everyChecksumStepHasATable : Obligations.EveryChecksumStepHasATable := by
  intro f
  refine ⟨(allWords 16 ×ˢ allWords 8).map (ckRowOf f), fun s b => ckStep_map_ckRowOf ?_⟩
  exact List.mem_product.2 ⟨mem_allWords s, mem_allWords b⟩

/-- Settles O37, by the completion code of each command row. -/
theorem completionCodesAreFour : Obligations.CompletionCodesAreFour := by
  intro s h hf
  refine ⟨fun i t hc ht => ?_, fun c hc => ?_⟩
  · obtain ⟨t', ht', hcode⟩ := exec_command_completionCode h hf hc
    obtain rfl : t = t' := Host.Outcome.next.inj (ht.symm.trans ht')
    exact hcode ▸ completionCode_mem s.cfg i
  · obtain ⟨i, hi, rfl⟩ := exists_command_of_completionCode hc
    obtain ⟨t, ht, hcode⟩ := exec_command_completionCode h hf hi
    exact ⟨i, t, hi, ht, hcode⟩

/-- Settles O1: only the guard answers `BadConfig`, exactly when the configuration is not admitted. -/
theorem onlyAdmittedConfigurationsRun : Obligations.OnlyAdmittedConfigurationsRun := by
  intro s i
  rw [exec_eq_badConfig, ← Bool.not_eq_true, configAdmitted_iff, distinct_iff]

end Sys2Proof.Machine
end

section
/-! PROOFS. The statements of spec/10_state.md: `INIT` and the reset state meet the invariants (R38 to R45), every
instruction and every step keep them, and who writes `EID` (R25). -/

namespace Sys2Proof.Machine

/-! ### `INIT` and the reset state -/

/-- `INIT` needs of the state before it only what it does not write: the configuration, the fault flag, the buffers. -/
theorem initialise_inv {s : State} (ha : configAdmitted s.cfg = true) (hf : s.faulted = none)
    (hb : s.buf.wf = true) (hbin : s.buf.within s.cfg.bufCap = true) (he : s.ebuf.wf = true)
    (hein : s.ebuf.within s.cfg.evtCap = true) : Inv (initialise s) where
  running := ⟨ha, hf, rfl⟩
  bufWf := hb
  bufWithin := hbin
  ebufWf := he
  ebufWithin := hein
  idlePrimary _ := rfl
  idleEvent _ := rfl
  primarySending hc := by simp at hc
  featureOff _ := rfl
  eventPending hc := by simp at hc
  updateSending hc := by simp at hc
  eidNotBroadcast := by simp
  nextValid hc := by simp at hc
  placed := trivial
  eventFits hc := by simp at hc
  primarySlot hc := by simp at hc
  eventSlot hc := by simp at hc

/-- Nothing is asked of what `BUF` holds while no frame is being received, available or sent. -/
theorem FrameHeld.of_waitSync {s : State} (h : s.fs = .waitSync) : FrameHeld s :=
  ⟨fun hc => absurd h hc, fun hc => by simp [h] at hc, fun hc => by simp [h] at hc⟩

theorem exec_init_admitted {s : State} (ha : configAdmitted s.cfg = true) (hf : s.faulted = none) :
    exec .init s = .next (initialise s) :=
  executeInit_admitted ha hf _

/-- The reset state is the one `INIT` leaves on a machine just built (log 18). -/
theorem reset_eq_initialise_powerOn : State.reset = initialise (State.powerOn Config.tc [] []) := rfl

/-! ### Every instruction keeps the invariant -/

/-- An operation keeps the invariant when its effect answers a state that meets it. -/
theorem execute_keeps_inv {s t : State} {e : Except Fault State} (he : ∃ u, e = .ok u ∧ Inv u)
    (h : execute s e = .next t) : Inv t := by
  obtain ⟨u, rfl, hu⟩ := he
  obtain rfl := Except.ok.inj (execute_eq_next h).2
  exact hu

theorem exec_init_eq_next {s t : State} (h : exec .init s = .next t) : t = initialise s :=
  (Except.ok.inj (executeInit_eq_next h).2.2).symm

/-- No reserved selector answers a next state. -/
theorem not_isReserved_of_exec_next {i : Instr} {s t : State} (h : exec i s = .next t) : ¬ isReserved i := by
  rintro (⟨a, rfl⟩ | ⟨c, rfl⟩) <;> exact executeReserved_ne_next s t h

theorem exec_enq_keeps_inv {s t : State} {bytes : List Byte} (h : Inv s) (ht : exec (.enq bytes) s = .next t) :
    Inv t := by
  rcases h.enq bytes with ⟨herr, -⟩ | hok
  · exact nomatch herr.symm.trans (execute_eq_next ht).2
  · exact execute_keeps_inv hok ht

/-- Every instruction that completes keeps the invariant: the law of its effect, one instruction at a time. -/
theorem exec_keeps_inv {s t : State} {i : Instr} (h : Inv s) (ht : exec i s = .next t) : Inv t := by
  cases i with
  | init => exact exec_init_eq_next ht ▸ h.initialise
  | update rx cap => exact execute_keeps_inv (h.update rx cap) ht
  | drain cap => exact execute_keeps_inv (h.drainReturning cap) ht
  | pktavail => exact execute_keeps_inv ⟨_, rfl, h.returning _⟩ ht
  | isctrl => exact execute_keeps_inv (h.classify _) ht
  | isalt => exact execute_keeps_inv (h.classify _) ht
  | process cap =>
    refine execute_keeps_inv (h.awaiting fun hf => ?_) ht
    obtain ⟨u, hu, hi⟩ := h.dispatch hf
    obtain ⟨v, hv, hj⟩ := hi.drainDiscarding cap
    exact ⟨v, by rw [processAwaiting, hu, except_bind_ok, hv], hj⟩
  | ignore => exact execute_keeps_inv ⟨_, rfl, h.ignore⟩ ht
  | enq bytes => exact exec_enq_keeps_inv h ht
  | evqempty => exact execute_keeps_inv ⟨_, rfl, h.returning _⟩ ht
  | cmdAssignEid op req => exact execute_keeps_inv (h.awaiting fun hf => h.assign hf op req) ht
  | cmdGetEid => exact execute_keeps_inv (h.awaiting h.getEid) ht
  | cmdGetVersion v => exact execute_keeps_inv (h.awaiting fun hf => h.getVersion hf v) ht
  | cmdGetTypes => exact execute_keeps_inv (h.awaiting h.getTypes) ht
  | cmdUnsupported code => exact execute_keeps_inv (h.awaiting h.unsupported) ht
  | sof => exact execute_keeps_inv (h.rxStep 0x7E) ht
  | esc7e => exact execute_keeps_inv (h.rxSteps [0x7D, 0x5E]) ht
  | esc7d => exact execute_keeps_inv (h.rxSteps [0x7D, 0x5D]) ht
  | reservedHostAB a => exact absurd (.inl ⟨a, rfl⟩) (not_isReserved_of_exec_next ht)
  | reservedHostCF c => exact absurd (.inr ⟨c, rfl⟩) (not_isReserved_of_exec_next ht)

/-! ### Who writes `EID` -/

/-- Between `s` and `t` the three address registers are as before (spec/10_state.md R25, R26). -/
structure SameAddress (s t : State) : Prop where
  eid : t.eid = s.eid
  upd : t.eidUpd = s.eidUpd
  next : t.eidNext = s.eidNext

theorem SameAddress.refl (s : State) : SameAddress s s := ⟨rfl, rfl, rfl⟩

theorem SameAddress.trans {s t u : State} (h : SameAddress s t) (h' : SameAddress t u) : SameAddress s u :=
  ⟨h'.eid.trans h.eid, h'.upd.trans h.upd, h'.next.trans h.next⟩

/-- The primary slot completed between `s` and `t`, and its completion installed the address held in `s`
(spec/44_transmitter.md R218). -/
structure AddressCommitted (s t : State) : Prop where
  act : t.act = .none
  fs : t.fs = .waitSync
  updDone : t.eidUpd = false
  upd : s.eidUpd = true
  eid : t.eid = s.eidNext

theorem AddressCommitted.of_sameAddress {s t u : State} (h : SameAddress s u) (hc : AddressCommitted u t) :
    AddressCommitted s t :=
  ⟨hc.act, hc.fs, hc.updDone, h.upd ▸ hc.upd, hc.eid.trans h.next⟩

theorem drainPrimary_eid {cap : Cap} {s t : State} {n : Nat} (h : drainPrimary cap s = .ok (t, n)) :
    t.eid = s.eid ∨ AddressCommitted s t := by
  obtain ⟨r, -, h⟩ := except_bind_eq_ok.1 h
  obtain ⟨rfl, -⟩ := Prod.mk.inj (Except.ok.inj h)
  cases r.done with
  | false => exact .inl rfl
  | true =>
    cases hu : s.eidUpd with
    | false => exact .inl (by simp)
    | true => exact .inr ⟨by simp, by simp, by simp, hu, by simp⟩

theorem drainEvent_eid {cap : Cap} {s t : State} {n : Nat} (h : drainEvent cap s = .ok (t, n)) : t.eid = s.eid := by
  obtain ⟨r, -, h⟩ := except_bind_eq_ok.1 h
  obtain ⟨rfl, -⟩ := Prod.mk.inj (Except.ok.inj h)
  cases r.done <;> rfl

theorem drainActive_eid {cap : Cap} {s t : State} {n : Nat} (h : drainActive cap s = .ok (t, n)) :
    t.eid = s.eid ∨ AddressCommitted s t := by
  unfold drainActive at h
  cases ha : s.act <;> simp only [ha] at h
  case none => exact .inl (congrArg State.eid (Prod.mk.inj (Except.ok.inj h)).1.symm)
  case primary => exact drainPrimary_eid h
  case event => exact .inl (drainEvent_eid h)

theorem selectSlot_sameAddress {s t : State} (h : selectSlot s = .ok t) : SameAddress s t := by
  rcases selectSlot_cases h with ⟨-, -, -, rfl⟩ | ⟨-, -, -, rfl⟩ | ⟨-, -, rfl⟩ <;> exact ⟨rfl, rfl, rfl⟩

/-- A drain step writes `EID` only by the deferred commit. -/
theorem drainStep_eid {cap : Cap} {s t : State} {n : Nat} (h : drainStep cap s = .ok (t, n)) :
    t.eid = s.eid ∨ AddressCommitted s t := by
  unfold drainStep at h
  by_cases ha : s.act = .none
  · rw [if_pos ha] at h
    obtain ⟨u, hu, h⟩ := except_bind_eq_ok.1 h
    have hs := selectSlot_sameAddress hu
    exact (drainActive_eid h).imp hs.eid.symm.substr (.of_sameAddress hs)
  · rw [if_neg ha] at h
    exact drainActive_eid h

theorem drainDiscarding_eid {cap : Cap} {s t : State} (h : drainDiscarding cap s = .ok t) :
    t.eid = s.eid ∨ AddressCommitted s t := by
  obtain ⟨⟨u, n⟩, hu, h⟩ := except_bind_eq_ok.1 h
  obtain rfl := Except.ok.inj h
  exact drainStep_eid hu

theorem drainReturning_eid {cap : Cap} {s t : State} (h : drainReturning cap s = .ok t) :
    t.eid = s.eid ∨ AddressCommitted s t := by
  obtain ⟨⟨u, n⟩, hu, h⟩ := except_bind_eq_ok.1 h
  obtain rfl := Except.ok.inj h
  exact (drainStep_eid hu).imp_right fun hc => ⟨hc.act, hc.fs, hc.updDone, hc.upd, hc.eid⟩

theorem rxStep_sameAddress {b : Byte} {s t : State} (h : rxStep b s = .ok t) : SameAddress s t := by
  rw [(rxStep_wrote h).rest]
  exact ⟨rfl, rfl, rfl⟩

theorem rxSteps_sameAddress {bytes : List Byte} {s t : State} (h : rxSteps bytes s = .ok t) : SameAddress s t := by
  induction bytes generalizing s with
  | nil => exact Except.ok.inj h ▸ .refl s
  | cons b bs ih =>
    obtain ⟨u, hu, h⟩ := except_bind_eq_ok.1 h
    exact (rxStep_sameAddress hu).trans (ih h)

theorem receive_sameAddress {rx : Option Byte} {s t : State} (h : receive rx s = .ok t) : SameAddress s t := by
  cases rx with
  | none => exact Except.ok.inj h ▸ .refl s
  | some b => exact rxStep_sameAddress h

/-- What is written without the address registers keeps them. -/
theorem sameAddress_of_ok {s t : State} {e : Except Fault State} {fs : FramerState} {m : Memory} {drawn : Nat}
    (he : e = .ok { s with fs := fs, buf := m, freeCount := drawn }) (h : e = .ok t) : SameAddress s t := by
  obtain rfl := Except.ok.inj (he.symm.trans h)
  exact ⟨rfl, rfl, rfl⟩

/-- An address is held for the commit only while a response is being sent (spec/10_state.md R45). -/
theorem Inv.eidUpd_eq_false {s : State} (h : Inv s) (hf : s.fs ≠ .sendingResponse) : s.eidUpd = false :=
  Bool.eq_false_of_not_eq_true fun hu => hf (h.updateSending hu)

/-- The Assign Endpoint ID handler leaves `EID`, and holds no address but the requested one (R183). -/
theorem assignEid_address {s t : State} {op : BitVec 4} {req : Byte} (h : Inv s) (hf : s.fs = .awaitingResponse)
    (ht : assignEid op req s = .ok t) : t.eid = s.eid ∧ (t.eidUpd = true → t.eidNext = req) := by
  obtain rfl := Except.ok.inj ((assignEid_ok h.running.admitted h.bufWf).symm.trans ht)
  refine ⟨assignDeferred_eid op req s, fun hu => ?_⟩
  cases hr : assignRejected op req with
  | true => simp [assignDeferred, hr, h.eidUpd_eq_false (s := s) (by simp [hf])] at hu
  | false => simp [assignDeferred, hr]

/-- The handler a request selects is Assign Endpoint ID's, on the operands `BUF` holds, or leaves the address registers
(spec/43_control_commands.md R181). -/
theorem dispatchCommand_cases {s t : State} (h : Inv s) (ht : dispatchCommand s = .ok t) :
    (s.buf.read 9 = s.cfg.codes.assignEid ∧ assignEid (lowNibble (s.buf.read 10)) (s.buf.read 11) s = .ok t) ∨
      SameAddress s t := by
  have hc := h.caps
  have ha := h.running.admitted
  simp only [dispatchCommand, readBuf_ok (s := s) (i := 9) (by omega), readBuf_ok (s := s) (i := 10) (by omega),
    readBuf_ok (s := s) (i := 11) (by omega), except_bind_ok] at ht
  split at ht
  case isTrue hassign => exact .inl ⟨hassign, ht⟩
  split at ht
  · exact .inr (sameAddress_of_ok (getEid_ok ha h.bufWf) ht)
  split at ht
  · exact .inr (sameAddress_of_ok (getVersion_ok ha h.bufWf) ht)
  split at ht
  · exact .inr (sameAddress_of_ok (getTypes_ok ha h.bufWf) ht)
  · exact .inr (sameAddress_of_ok (unsupported_ok ha h.bufWf) ht)

/-- The handler a request selects leaves `EID`, and only an Assign Endpoint ID request holds an address: its own
(spec/43_control_commands.md R183). -/
theorem dispatchCommand_address {s t : State} (h : Inv s) (hf : s.fs = .awaitingResponse)
    (ht : dispatchCommand s = .ok t) : t.eid = s.eid ∧
      (t.eidUpd = true → s.buf.read 9 = s.cfg.codes.assignEid ∧ t.eidNext = s.buf.read 11) := by
  rcases dispatchCommand_cases h ht with ⟨hcode, hassign⟩ | hs
  · exact (assignEid_address h hf hassign).imp_right fun hnext hu => ⟨hcode, hnext hu⟩
  · exact ⟨hs.eid, fun hu => by simp [hs.upd, h.eidUpd_eq_false (s := s) (by simp [hf])] at hu⟩

/-- What the guard of R180 can do: nothing, or run the handler in `AWAITING_RESPONSE`. -/
theorem whenAwaiting_cases {s t : State} {e : Except Fault State} (h : whenAwaiting s e = .ok t) :
    t = s ∨ (s.fs = .awaitingResponse ∧ e = .ok t) := by
  unfold whenAwaiting at h
  by_cases hf : s.fs = .awaitingResponse
  · exact .inr ⟨hf, by rwa [if_pos hf] at h⟩
  · rw [if_neg hf] at h
    exact .inl (Except.ok.inj h).symm

theorem execute_whenAwaiting_eid {s t : State} {e : Except Fault State}
    (he : s.fs = .awaitingResponse → e = .ok t → t.eid = s.eid) (h : execute s (whenAwaiting s e) = .next t) :
    t.eid = s.eid :=
  (whenAwaiting_cases (execute_eq_next h).2).elim (congrArg State.eid) fun ⟨hf, hok⟩ => he hf hok

theorem enqueue_eid {s t : State} {bytes : List Byte} (h : enqueue bytes s = .ok t) : t.eid = s.eid := by
  unfold enqueue at h
  split at h
  · exact Except.ok.inj h ▸ rfl
  split at h
  · exact Except.ok.inj h ▸ rfl
  split at h
  · exact Except.ok.inj h ▸ rfl
  split at h
  · cases h
  obtain ⟨u, hu, h⟩ := except_bind_eq_ok.1 h
  rw [← Except.ok.inj h, writeEbufRange_eq_ok hu, returning_eid]

theorem classify_eid {s t : State} {isType : Byte → Bool} (h : classify isType s = .ok t) : t.eid = s.eid := by
  unfold classify at h
  split at h
  · obtain ⟨b, -, h⟩ := except_bind_eq_ok.1 h
    exact Except.ok.inj h ▸ rfl
  · exact Except.ok.inj h ▸ rfl

/-- Everything an instruction that answers `t` from `s` can do to `EID`. -/
inductive AddressWrite (i : Instr) (s t : State) : Prop
  | kept (eid : t.eid = s.eid)
  | reset (isInit : i = .init) (eid : t.eid = 0x00)
  /-- The response to an earlier Assign Endpoint ID was sent whole. -/
  | deferred (committed : AddressCommitted s t)
  /-- One `PROCESS` built the response to an Assign Endpoint ID, in the state `u`, and sent it whole. -/
  | whole (u : State) (cap : Cap) (isProcess : i = .process cap) (awaiting : s.fs = .awaitingResponse)
      (assign : s.buf.read 9 = s.cfg.codes.assignEid) (inv : Inv u) (next : u.eidNext = s.buf.read 11)
      (committed : AddressCommitted u t)

theorem AddressWrite.ofCases {i : Instr} {s t : State} (h : t.eid = s.eid ∨ AddressCommitted s t) :
    AddressWrite i s t :=
  h.elim .kept .deferred

theorem updateEffect_eid {s t : State} {rx : Option Byte} {cap : Cap} (h : updateEffect rx cap s = .ok t) :
    t.eid = s.eid ∨ AddressCommitted s t := by
  obtain ⟨u, hu, h⟩ := except_bind_eq_ok.1 h
  have hs := receive_sameAddress hu
  exact (drainDiscarding_eid h).imp hs.eid.symm.substr (.of_sameAddress hs)

theorem exec_process_addressWrite {s t : State} {cap : Cap} (h : Inv s) (ht : exec (.process cap) s = .next t) :
    AddressWrite (.process cap) s t := by
  rcases whenAwaiting_cases (execute_eq_next ht).2 with rfl | ⟨hf, hok⟩
  · exact .kept rfl
  obtain ⟨u, hu, hi⟩ := h.dispatch hf
  rw [processAwaiting, hu, except_bind_ok] at hok
  obtain ⟨heid, hnext⟩ := dispatchCommand_address h hf hu
  rcases drainDiscarding_eid hok with hkept | hc
  · exact .kept (hkept.trans heid)
  · obtain ⟨hassign, hreq⟩ := hnext hc.upd
    exact .whole u cap rfl hf hassign hi hreq hc

/-- What each instruction can do to `EID`. -/
theorem exec_addressWrite {i : Instr} {s t : State} (h : Inv s) (ht : exec i s = .next t) : AddressWrite i s t := by
  have ha := h.running.admitted
  cases i with
  | init => exact .reset rfl (exec_init_eq_next ht ▸ rfl)
  | update rx cap => exact .ofCases (updateEffect_eid (execute_eq_next ht).2)
  | drain cap => exact .ofCases (drainReturning_eid (execute_eq_next ht).2)
  | pktavail => exact .kept (Except.ok.inj (execute_eq_next ht).2 ▸ rfl)
  | isctrl => exact .kept (classify_eid (execute_eq_next ht).2)
  | isalt => exact .kept (classify_eid (execute_eq_next ht).2)
  | process cap => exact exec_process_addressWrite h ht
  | ignore => exact .kept (Except.ok.inj (execute_eq_next ht).2 ▸ ignorePacket_eid s)
  | enq bytes => exact .kept (enqueue_eid (execute_eq_next ht).2)
  | evqempty => exact .kept (Except.ok.inj (execute_eq_next ht).2 ▸ rfl)
  | cmdAssignEid op req => exact .kept (execute_whenAwaiting_eid (fun hf hok => (assignEid_address h hf hok).1) ht)
  | cmdGetEid =>
    exact .kept (execute_whenAwaiting_eid (fun _ hok => (sameAddress_of_ok (getEid_ok ha h.bufWf) hok).eid) ht)
  | cmdGetVersion v =>
    exact .kept (execute_whenAwaiting_eid (fun _ hok => (sameAddress_of_ok (getVersion_ok ha h.bufWf) hok).eid) ht)
  | cmdGetTypes =>
    exact .kept (execute_whenAwaiting_eid (fun _ hok => (sameAddress_of_ok (getTypes_ok ha h.bufWf) hok).eid) ht)
  | cmdUnsupported code =>
    exact .kept (execute_whenAwaiting_eid (fun _ hok => (sameAddress_of_ok (unsupported_ok ha h.bufWf) hok).eid) ht)
  | sof => exact .kept (rxStep_sameAddress (execute_eq_next ht).2).eid
  | esc7e => exact .kept (rxSteps_sameAddress (execute_eq_next ht).2).eid
  | esc7d => exact .kept (rxSteps_sameAddress (execute_eq_next ht).2).eid
  | reservedHostAB a => exact absurd (.inl ⟨a, rfl⟩) (not_isReserved_of_exec_next ht)
  | reservedHostCF c => exact absurd (.inr ⟨c, rfl⟩) (not_isReserved_of_exec_next ht)

/-- An installed address is the one held, and that is a valid one (R183). -/
theorem AddressCommitted.eid_valid {s t : State} (h : Inv s) (hc : AddressCommitted s t) :
    t.eid ≠ 0x00 ∧ t.eid ≠ 0xFF :=
  hc.eid ▸ h.nextValid hc.upd

/-! ### The obligations -/

/-- Settles O54, by what a step can do: hold the state, run an instruction, or receive bytes. -/
theorem stepKeepsTheInvariant : Obligations.StepKeepsTheInvariant := by
  intro s t h ht
  rcases step_cases ht with ⟨-, rfl⟩ | ⟨w, rest, i, -, -, hexec⟩ | ⟨bytes, rest, -, -, hrx⟩
  · exact h
  · exact exec_keeps_inv (h.withPending rest) hexec
  · obtain ⟨u, hu, hi⟩ := (h.withPending rest).rxSteps bytes
    obtain rfl := Except.ok.inj (hu.symm.trans hrx)
    exact hi

/-- Settles O3: `INIT` completes, and every register it writes is at its idle value. -/
theorem initEstablishesTheInvariant : Obligations.InitEstablishesTheInvariant :=
  fun s ha hf hb hbin he hein =>
    ⟨initialise s, exec_init_admitted ha hf, initialise_inv ha hf hb hbin he hein, .of_waitSync rfl⟩

/-- Settles O4, as the case of O3 whose buffers list nothing. -/
theorem resetMeetsTheInvariants : Obligations.ResetMeetsTheInvariants :=
  ⟨reset_eq_initialise_powerOn ▸ initialise_inv (by decide) rfl rfl rfl rfl rfl, .of_waitSync rfl⟩

/-- Settles O56: of the writes to `EID`, `INIT`'s is 0x00 and a commit's is the valid address that was held. -/
theorem onlyInitAndTheCommitWriteTheAddress : Obligations.OnlyInitAndTheCommitWriteTheAddress := by
  intro s t i h ht hne
  cases exec_addressWrite h ht with
  | kept heid => exact absurd heid hne
  | reset hi heid => exact ⟨by simp [heid], fun _ => hi, .inl hi⟩
  | deferred hc =>
    obtain ⟨hzero, hbroadcast⟩ := hc.eid_valid h
    exact ⟨hbroadcast, fun h0 => absurd h0 hzero, .inr ⟨hc.act, hc.fs, hc.updDone, .inl ⟨hc.upd, hc.eid⟩⟩⟩
  | whole u cap hi hf hassign hu hnext hc =>
    obtain ⟨hzero, hbroadcast⟩ := hc.eid_valid hu
    exact ⟨hbroadcast, fun h0 => absurd h0 hzero,
      .inr ⟨hc.act, hc.fs, hc.updDone, .inr ⟨hf, hassign, hc.eid.trans hnext, cap, hi⟩⟩⟩

end Sys2Proof.Machine
end

section
/-! PROOFS. The statements of spec/20_memory.md: what the two storage spaces keep (R60, R65), who writes `BUF` and
`EBUF` (R71) and how `TXOUT` grows (R72); with the rules, from every state, on what an instruction writes there. -/

namespace Sys2Proof.Machine

/-! ### The canonical form (log 8) -/

theorem Memory.wfAbove_cons {low a : Nat} {v : Byte} {rest : Memory} :
    Memory.wfAbove low ((a, v) :: rest) = true ↔
      low ≤ a ∧ v ≠ unlistedByte ∧ Memory.wfAbove (a + 1) rest = true := by
  simp [Memory.wfAbove, and_assoc]

@[simp] theorem Memory.read_cons_same (a : Nat) (v : Byte) (rest : Memory) :
    Memory.read ((a, v) :: rest) a = v := if_pos rfl

theorem Memory.read_cons_other {a i : Nat} (h : a ≠ i) (v : Byte) (rest : Memory) :
    Memory.read ((a, v) :: rest) i = rest.read i := if_neg h

/-- The first cell of a canonical memory is the lowest offset that reads as anything but the unlisted byte. -/
theorem Memory.head_le_of_read_ne {low a i : Nat} {v : Byte} {rest : Memory}
    (h : Memory.wfAbove low ((a, v) :: rest) = true) (hi : Memory.read ((a, v) :: rest) i ≠ unlistedByte) : a ≤ i := by
  obtain ⟨-, hv, hrest⟩ := Memory.wfAbove_cons.1 h
  by_contra hlt
  exact hi (Memory.read_of_wfAbove (Memory.wfAbove_cons.2 ⟨le_rfl, hv, hrest⟩) (by omega))

/-- Canonical memories that read alike are equal: they have the same first cell, and the rests read alike. -/
theorem Memory.ext_above {low : Nat} {m m' : Memory} (h : Memory.wfAbove low m = true)
    (h' : Memory.wfAbove low m' = true) (hread : ∀ i, m.read i = m'.read i) : m = m' := by
  induction m generalizing low m' with
  | nil =>
    cases m' with
    | nil => rfl
    | cons c' rest' =>
      have hc := hread c'.1
      rw [Memory.read_nil, Memory.read_cons_same] at hc
      exact absurd hc.symm (Memory.wfAbove_cons.1 h').2.1
  | cons c rest ih =>
    obtain ⟨a, v⟩ := c
    obtain ⟨-, hv, hrest⟩ := Memory.wfAbove_cons.1 h
    cases m' with
    | nil => exact absurd ((Memory.read_cons_same a v rest).symm.trans (hread a)) hv
    | cons c' rest' =>
      obtain ⟨a', v'⟩ := c'
      obtain ⟨-, hv', hrest'⟩ := Memory.wfAbove_cons.1 h'
      have hle : a ≤ a' := Memory.head_le_of_read_ne h (by rwa [hread, Memory.read_cons_same])
      have hge : a' ≤ a := Memory.head_le_of_read_ne h' (by rwa [← hread, Memory.read_cons_same])
      obtain rfl : a = a' := le_antisymm hle hge
      obtain rfl : v = v' := by simpa using hread a
      have htail : ∀ i, Memory.read rest i = Memory.read rest' i := fun i => by
        by_cases hi : a = i
        · rw [Memory.read_of_wfAbove hrest (by omega), Memory.read_of_wfAbove hrest' (by omega)]
        · rw [← Memory.read_cons_other hi v, hread, Memory.read_cons_other hi]
      rw [ih hrest hrest' htail]

/-! ### Accesses of one byte (R60) -/

theorem memRead_error {size i : Nat} (m : Memory) (h : size ≤ i) : memRead size m i = .error .bufferBounds :=
  if_neg (by omega)

theorem memWrite_error {size i : Nat} (m : Memory) (v : Byte) (h : size ≤ i) :
    memWrite size m i v = .error .bufferBounds :=
  if_neg (by omega)

theorem memWrite_ok {size i : Nat} (m : Memory) (v : Byte) (h : i < size) :
    memWrite size m i v = .ok (m.write i v) :=
  if_pos h

/-- A store is the byte it writes, and every other byte as before. -/
theorem Memory.write_stores {m : Memory} (h : m.wf = true) (i : Nat) (v : Byte) : Stores m (m.write i v) i v :=
  fun a => Memory.read_write h i a v

/-! ### What building a response writes, from every state -/

/-- Everything building a response can write: `BUF`, `FS`, the address held for the commit, and the free values drawn
(spec/43_control_commands.md R182, R183). -/
def ResponseWrote (s t : State) : Prop :=
  t = { s with buf := t.buf, fs := t.fs, eidUpd := t.eidUpd, eidNext := t.eidNext, freeCount := t.freeCount }

theorem ResponseWrote.trans {s t u : State} (h : ResponseWrote s t) (h' : ResponseWrote t u) : ResponseWrote s u := by
  unfold ResponseWrote at h h' ⊢
  rw [h] at h'
  exact h'

/-- A value is read, and the rest of the effect writes. -/
theorem ResponseWrote.afterValue {α : Type} {s t : State} {x : Except Fault α} {f : α → Except Fault State}
    (h : (x >>= f) = .ok t) (hf : ∀ a, f a = .ok t → ResponseWrote s t) : ResponseWrote s t := by
  obtain ⟨a, -, h⟩ := except_bind_eq_ok.1 h
  exact hf a h

/-- One part of the effect writes, and then the rest of it does. -/
theorem ResponseWrote.after {s t : State} {x : Except Fault State} {f : State → Except Fault State}
    (hx : ∀ {u}, x = .ok u → ResponseWrote s u) (h : (x >>= f) = .ok t)
    (hf : ∀ u, f u = .ok t → ResponseWrote u t) : ResponseWrote s t := by
  obtain ⟨u, hu, h⟩ := except_bind_eq_ok.1 h
  exact (hx hu).trans (hf u h)

theorem ResponseWrote.ebuf {s t : State} (h : ResponseWrote s t) : t.ebuf = s.ebuf := (congrArg State.ebuf h :)

theorem ResponseWrote.txout {s t : State} (h : ResponseWrote s t) : t.txout = s.txout := (congrArg State.txout h :)

theorem writeBuf_wrote {i : Nat} {v : Byte} {s t : State} (h : writeBuf i v s = .ok t) : ResponseWrote s t := by
  obtain ⟨-, rfl⟩ := writeBuf_eq_ok.1 h
  rfl

theorem writeBufRange_wrote {i : Nat} {bytes : List Byte} {s t : State} (h : writeBufRange i bytes s = .ok t) :
    ResponseWrote s t := by
  obtain rfl := writeBufRange_eq_ok h
  rfl

theorem finishHeader_wrote {w : Nat} {s t : State} (h : finishHeader w s = .ok t) : ResponseWrote s t :=
  .afterValue h fun _ h => .after writeBuf_wrote h fun _ h =>
  .afterValue h fun _ h => .after writeBuf_wrote h fun _ h =>
  .afterValue h fun _ h => .afterValue h fun _ h => .after writeBuf_wrote h fun _ h =>
  .after writeBuf_wrote h fun _ h => .after writeBuf_wrote h fun _ h => Except.ok.inj h ▸ rfl

theorem finishTrailer_wrote {w : Nat} {s t : State} (h : finishTrailer w s = .ok t) : ResponseWrote s t :=
  .afterValue h fun _ h => .after writeBuf_wrote h fun _ h => .after writeBuf_wrote h fun _ h => writeBuf_wrote h

theorem finish_wrote {w : Nat} {s t : State} (h : finish w s = .ok t) : ResponseWrote s t :=
  .after finishHeader_wrote h fun _ h => finishTrailer_wrote h

theorem respond_wrote {payload : List Byte} {s t : State} (h : respond payload s = .ok t) : ResponseWrote s t :=
  .after writeBufRange_wrote h fun _ h => .after finish_wrote h fun _ h => Except.ok.inj h ▸ rfl

theorem assignDeferred_wrote (op : BitVec 4) (req : Byte) (s : State) : ResponseWrote s (assignDeferred op req s) := by
  unfold assignDeferred
  split <;> rfl

theorem assignEid_wrote {op : BitVec 4} {req : Byte} {s t : State} (h : assignEid op req s = .ok t) :
    ResponseWrote s t :=
  (assignDeferred_wrote op req s).trans (respond_wrote h)

/-- Whichever handler a request selects, it writes what a response writes (R181). -/
theorem dispatchCommand_wrote {s t : State} (h : dispatchCommand s = .ok t) : ResponseWrote s t := by
  refine .afterValue h fun cc h => ?_
  split at h
  · exact .afterValue h fun _ h => .afterValue h fun _ h => assignEid_wrote h
  split at h
  · exact respond_wrote h
  split at h
  · exact .afterValue h fun _ h => respond_wrote h
  split at h
  · exact respond_wrote h
  · exact respond_wrote h

/-! ### What reception writes, from every state -/

/-- Busy states discard every byte (spec/41_receive_framer.md R140). -/
theorem rxSteps_busy {s : State} (h : s.fs = .awaitingResponse ∨ s.fs = .sendingResponse) (bytes : List Byte) :
    rxSteps bytes s = .ok s := by
  have hstep : ∀ b, rxStep b s = .ok s := fun b => by rcases h with h | h <;> simp [rxStep, h]
  induction bytes with
  | nil => rfl
  | cons b bs ih => rw [rxSteps_cons, hstep, except_bind_ok, ih]

/-- Everything received bytes can write. -/
theorem rxSteps_rest {bytes : List Byte} {s t : State} (h : rxSteps bytes s = .ok t) :
    t = { s with fs := t.fs, rxIdx := t.rxIdx, rxCnt := t.rxCnt, buf := t.buf } := by
  induction bytes generalizing s with
  | nil => exact (Except.ok.inj h).symm ▸ rfl
  | cons b bs ih =>
    obtain ⟨u, hu, h⟩ := except_bind_eq_ok.1 h
    have hrest := ih h
    rw [(rxStep_wrote hu).rest] at hrest
    exact hrest

theorem rxSteps_ebuf {bytes : List Byte} {s t : State} (h : rxSteps bytes s = .ok t) : t.ebuf = s.ebuf :=
  (congrArg State.ebuf (rxSteps_rest h) :)

theorem rxSteps_txout {bytes : List Byte} {s t : State} (h : rxSteps bytes s = .ok t) : t.txout = s.txout :=
  (congrArg State.txout (rxSteps_rest h) :)

/-- The receive half of `UPDATE` receives no byte or one. -/
theorem receive_eq_rxSteps (rx : Option Byte) (s : State) : receive rx s = rxSteps rx.toList s := by
  cases rx with
  | none => rfl
  | some b => exact (bind_pure (rxStep b s)).symm

/-! ### What `ENQ` and the queries write -/

/-- Everything `ENQ` can write: a result, and with the slot free the event and its flag (spec/44_transmitter.md
R221). -/
theorem enqueue_wrote {bytes : List Byte} {s t : State} (h : enqueue bytes s = .ok t) :
    t = { s with evtPend := t.evtPend, ebuf := t.ebuf, results := t.results } ∧
      (t.ebuf = s.ebuf ∨ s.evtPend = false) := by
  unfold enqueue at h
  split at h
  · exact Except.ok.inj h ▸ ⟨rfl, .inl rfl⟩
  split at h
  · exact Except.ok.inj h ▸ ⟨rfl, .inl rfl⟩
  case isFalse hfree =>
    split at h
    · exact Except.ok.inj h ▸ ⟨rfl, .inl rfl⟩
    split at h
    · cases h
    obtain ⟨u, hu, h⟩ := except_bind_eq_ok.1 h
    rw [writeEbufRange_eq_ok hu] at h
    exact Except.ok.inj h ▸ ⟨rfl, .inr (Bool.eq_false_of_not_eq_true hfree)⟩

/-- A classification query returns an answer and writes nothing else. -/
theorem classify_eq_ok {isType : Byte → Bool} {s t : State} (h : classify isType s = .ok t) :
    ∃ r, t = returning r s := by
  unfold classify at h
  split at h
  · obtain ⟨b, -, h⟩ := except_bind_eq_ok.1 h
    exact ⟨_, (Except.ok.inj h).symm⟩
  · exact ⟨_, (Except.ok.inj h).symm⟩

@[simp] theorem ignorePacket_ebuf (s : State) : (ignorePacket s).ebuf = s.ebuf := by
  unfold ignorePacket
  split <;> rfl

/-! ### What a drain step emits, from every state -/

/-- Between `s` and `t` bytes were appended to `TXOUT`, no more than the capacity (spec/45_host_interface.md R240). -/
def Emitted (cap : Cap) (s t : State) : Prop := ∃ out, t.txout = s.txout ++ out ∧ takeCap cap out = out

theorem Emitted.of_eq {cap : Cap} {s t : State} (h : t.txout = s.txout) : Emitted cap s t :=
  ⟨[], by rw [h, List.append_nil], takeCap_nil cap⟩

theorem Emitted.after {cap : Cap} {s t u : State} (h : Emitted cap t u) (hs : t.txout = s.txout) : Emitted cap s u := by
  obtain ⟨out, htx, hcap⟩ := h
  exact ⟨out, by rw [htx, hs], hcap⟩

/-- The loop of spec/44_transmitter.md R210 emits no more bytes than its capacity, whatever the slot and its buffer. -/
theorem sendLoop_within_cap {rd : Nat → Except Fault Byte} {n : Nat} {slot : Slot} {room : Cap} {r : Sent}
    (h : sendLoop rd n slot room = .ok r) : takeCap room r.bytes = r.bytes := by
  induction n generalizing slot room r with
  | zero => exact Except.ok.inj h ▸ takeCap_nil room
  | succ n ih =>
    unfold sendLoop at h
    split at h
    · exact Except.ok.inj h ▸ takeCap_nil room
    case isFalse hroom =>
      have hroom := Bool.eq_true_of_not_eq_false hroom
      split at h
      · -- the continuation byte (R214)
        obtain ⟨q, hq, h⟩ := except_bind_eq_ok.1 h
        rw [← Except.ok.inj h, Sent.after_bytes, List.singleton_append, takeCap_cons hroom, ih hq]
      obtain ⟨b, -, h⟩ := except_bind_eq_ok.1 h
      obtain ⟨l, -, h⟩ := except_bind_eq_ok.1 h
      split at h
      · -- an escape sequence (R216)
        dsimp only at h
        split at h
        · rw [← Except.ok.inj h, takeCap_cons hroom, takeCap_nil]
        case isFalse hroom2 =>
          obtain ⟨q, hq, h⟩ := except_bind_eq_ok.1 h
          rw [← Except.ok.inj h, Sent.after_bytes, List.cons_append, List.singleton_append, takeCap_cons hroom,
            takeCap_cons (Bool.eq_true_of_not_eq_false hroom2), ih hq]
      · -- a raw byte (R215)
        obtain ⟨q, hq, h⟩ := except_bind_eq_ok.1 h
        rw [← Except.ok.inj h, Sent.after_bytes, List.singleton_append, takeCap_cons hroom, ih hq]

theorem DrainWrote.buf {s t : State} {n : Nat} (h : DrainWrote s t n) : t.buf = s.buf :=
  (congrArg State.buf h.rest :)

theorem DrainWrote.ebuf {s t : State} {n : Nat} (h : DrainWrote s t n) : t.ebuf = s.ebuf :=
  (congrArg State.ebuf h.rest :)

theorem drainPrimary_emitted {cap : Cap} {s t : State} {n : Nat} (h : drainPrimary cap s = .ok (t, n)) :
    Emitted cap s t := by
  obtain ⟨r, hr, h⟩ := except_bind_eq_ok.1 h
  obtain ⟨rfl, -⟩ := Prod.mk.inj (Except.ok.inj h)
  exact ⟨r.bytes, by cases r.done <;> simp, sendLoop_within_cap hr⟩

theorem drainEvent_emitted {cap : Cap} {s t : State} {n : Nat} (h : drainEvent cap s = .ok (t, n)) :
    Emitted cap s t := by
  obtain ⟨r, hr, h⟩ := except_bind_eq_ok.1 h
  obtain ⟨rfl, -⟩ := Prod.mk.inj (Except.ok.inj h)
  exact ⟨r.bytes, by cases r.done <;> simp, sendLoop_within_cap hr⟩

theorem drainActive_emitted {cap : Cap} {s t : State} {n : Nat} (h : drainActive cap s = .ok (t, n)) :
    Emitted cap s t := by
  unfold drainActive at h
  cases ha : s.act <;> simp only [ha] at h
  case none => exact .of_eq (congrArg State.txout (Prod.mk.inj (Except.ok.inj h)).1.symm)
  case primary => exact drainPrimary_emitted h
  case event => exact drainEvent_emitted h

theorem selectSlot_txout {s t : State} (h : selectSlot s = .ok t) : t.txout = s.txout := by
  rcases selectSlot_cases h with ⟨-, -, -, rfl⟩ | ⟨-, -, -, rfl⟩ | ⟨-, -, rfl⟩ <;> rfl

theorem drainStep_emitted {cap : Cap} {s t : State} {n : Nat} (h : drainStep cap s = .ok (t, n)) :
    Emitted cap s t := by
  unfold drainStep at h
  split at h
  · obtain ⟨u, hu, h⟩ := except_bind_eq_ok.1 h
    exact (drainActive_emitted h).after (selectSlot_txout hu)
  · exact drainActive_emitted h

/-! ### What an instruction writes to `BUF`, `EBUF` and `TXOUT` (R71, R72) -/

/-- Who can have written `m` to `BUF`, by the framer state of `s` (R71). -/
inductive BufWrite (i : Instr) (s : State) (m : Memory) : Prop
  | kept (same : m = s.buf)
  | responded (awaiting : s.fs = .awaitingResponse) (handler : isCommand i = true ∨ ∃ cap, i = .process cap)
  | received (notAwaiting : s.fs ≠ .awaitingResponse) (notSending : s.fs ≠ .sendingResponse) (carries : receives i)

/-- Everything an instruction that answers `t` from `s` can do to `BUF`, `EBUF` and `TXOUT`. -/
structure StorageWrote (i : Instr) (s t : State) : Prop where
  buf : BufWrite i s t.buf
  ebuf : t.ebuf = s.ebuf ∨ s.evtPend = false ∧ ∃ bytes, i = .enq bytes
  txout : Emitted (capacityOf i) s t

/-- An instruction that emits nothing and leaves `EBUF`. -/
theorem StorageWrote.unsent {i : Instr} {s t : State} (hbuf : BufWrite i s t.buf) (hebuf : t.ebuf = s.ebuf)
    (htxout : t.txout = s.txout) : StorageWrote i s t :=
  ⟨hbuf, .inl hebuf, .of_eq htxout⟩

/-- An instruction that leaves all three. -/
theorem StorageWrote.silent {i : Instr} {s t : State} (hbuf : t.buf = s.buf) (hebuf : t.ebuf = s.ebuf)
    (htxout : t.txout = s.txout) : StorageWrote i s t :=
  .unsent (.kept hbuf) hebuf htxout

/-- A drain step, run with the instruction's capacity after a part that emits nothing and leaves `EBUF`. -/
theorem StorageWrote.drained {i : Instr} {s u t : State} {n : Nat} (hbuf : BufWrite i s u.buf)
    (hebuf : u.ebuf = s.ebuf) (htxout : u.txout = s.txout) (h : drainStep (capacityOf i) u = .ok (t, n)) :
    StorageWrote i s t := by
  have hw := drainStep_wrote h
  exact ⟨hw.buf.symm ▸ hbuf, .inl (hw.ebuf.trans hebuf), (drainStep_emitted h).after htxout⟩

/-- Received bytes write `BUF` in a receiving state only, and only when there is a byte. -/
theorem rxSteps_bufWrite {i : Instr} {bytes : List Byte} {s t : State} (hi : bytes ≠ [] → receives i)
    (h : rxSteps bytes s = .ok t) : BufWrite i s t.buf := by
  by_cases hbytes : bytes = []
  · subst hbytes
    exact .kept (congrArg State.buf (Except.ok.inj h).symm)
  by_cases hbusy : s.fs = .awaitingResponse ∨ s.fs = .sendingResponse
  · exact .kept (congrArg State.buf (Except.ok.inj (h.symm.trans (rxSteps_busy hbusy bytes))))
  · obtain ⟨hna, hns⟩ := not_or.1 hbusy
    exact .received hna hns (hi hbytes)

theorem rxSteps_storageWrote {i : Instr} {bytes : List Byte} {s t : State} (hi : receives i)
    (h : rxSteps bytes s = .ok t) : StorageWrote i s t :=
  .unsent (rxSteps_bufWrite (fun _ => hi) h) (rxSteps_ebuf h) (rxSteps_txout h)

theorem updateEffect_storageWrote {rx : Option Byte} {cap : Cap} {s t : State} (h : updateEffect rx cap s = .ok t) :
    StorageWrote (.update rx cap) s t := by
  obtain ⟨u, hu, h⟩ := except_bind_eq_ok.1 h
  obtain ⟨⟨v, n⟩, hv, h⟩ := except_bind_eq_ok.1 h
  obtain rfl := Except.ok.inj h
  rw [receive_eq_rxSteps] at hu
  have hcarries : rx.toList ≠ [] → receives (.update rx cap) := fun hne => by
    cases rx with
    | none => exact absurd rfl hne
    | some b => exact .inl ⟨b, cap, rfl⟩
  exact .drained (rxSteps_bufWrite hcarries hu) (rxSteps_ebuf hu) (rxSteps_txout hu) hv

theorem drainReturning_storageWrote {cap : Cap} {s t : State} (h : drainReturning cap s = .ok t) :
    StorageWrote (.drain cap) s t := by
  obtain ⟨⟨u, n⟩, hu, h⟩ := except_bind_eq_ok.1 h
  obtain rfl := Except.ok.inj h
  obtain ⟨hbuf, hebuf, htxout⟩ := StorageWrote.drained (i := .drain cap) (.kept rfl) rfl rfl hu
  exact ⟨hbuf, hebuf, htxout⟩

theorem whenAwaiting_process_storageWrote {cap : Cap} {s t : State}
    (h : whenAwaiting s (processAwaiting cap s) = .ok t) : StorageWrote (.process cap) s t := by
  rcases whenAwaiting_cases h with rfl | ⟨hf, h⟩
  · exact .silent rfl rfl rfl
  obtain ⟨u, hu, h⟩ := except_bind_eq_ok.1 h
  obtain ⟨⟨v, n⟩, hv, h⟩ := except_bind_eq_ok.1 h
  obtain rfl := Except.ok.inj h
  have hw := dispatchCommand_wrote hu
  exact .drained (.responded hf (.inr ⟨cap, rfl⟩)) hw.ebuf hw.txout hv

/-- A command row writes what its handler writes, in `AWAITING_RESPONSE` only (log 15). -/
theorem execute_command_storageWrote {i : Instr} {s t : State} {e : Except Fault State} (hi : isCommand i = true)
    (he : e = .ok t → ResponseWrote s t) (h : execute s (whenAwaiting s e) = .next t) : StorageWrote i s t := by
  rcases whenAwaiting_cases (execute_eq_next h).2 with rfl | ⟨hf, hok⟩
  · exact .silent rfl rfl rfl
  · exact .unsent (.responded hf (.inl hi)) (he hok).ebuf (he hok).txout

theorem enqueue_storageWrote {bytes : List Byte} {s t : State} (h : enqueue bytes s = .ok t) :
    StorageWrote (.enq bytes) s t := by
  obtain ⟨hrest, hfree⟩ := enqueue_wrote h
  exact ⟨.kept (congrArg State.buf hrest :), hfree.imp_right fun hf => ⟨hf, bytes, rfl⟩,
    .of_eq (congrArg State.txout hrest :)⟩

theorem classify_storageWrote {i : Instr} {isType : Byte → Bool} {s t : State} (h : classify isType s = .ok t) :
    StorageWrote i s t := by
  obtain ⟨r, rfl⟩ := classify_eq_ok h
  exact .silent rfl rfl rfl

/-- What each instruction can do to `BUF`, `EBUF` and `TXOUT`. -/
theorem exec_storageWrote {i : Instr} {s t : State} (h : exec i s = .next t) : StorageWrote i s t := by
  cases i with
  | init => exact exec_init_eq_next h ▸ .silent rfl rfl rfl
  | update rx cap => exact updateEffect_storageWrote (execute_eq_next h).2
  | drain cap => exact drainReturning_storageWrote (execute_eq_next h).2
  | pktavail => exact Except.ok.inj (execute_eq_next h).2 ▸ .silent rfl rfl rfl
  | isctrl => exact classify_storageWrote (execute_eq_next h).2
  | isalt => exact classify_storageWrote (execute_eq_next h).2
  | process cap => exact whenAwaiting_process_storageWrote (execute_eq_next h).2
  | ignore =>
    exact Except.ok.inj (execute_eq_next h).2 ▸
      .silent (ignorePacket_buf s) (ignorePacket_ebuf s) (ignorePacket_txout s)
  | enq bytes => exact enqueue_storageWrote (execute_eq_next h).2
  | evqempty => exact Except.ok.inj (execute_eq_next h).2 ▸ .silent rfl rfl rfl
  | cmdAssignEid op req => exact execute_command_storageWrote rfl assignEid_wrote h
  | cmdGetEid => exact execute_command_storageWrote rfl respond_wrote h
  | cmdGetVersion v => exact execute_command_storageWrote rfl respond_wrote h
  | cmdGetTypes => exact execute_command_storageWrote rfl respond_wrote h
  | cmdUnsupported code => exact execute_command_storageWrote rfl respond_wrote h
  | sof =>
    exact rxSteps_storageWrote (.inr (.inl rfl))
      ((receive_eq_rxSteps (some 0x7E) s).symm.trans (execute_eq_next h).2)
  | esc7e => exact rxSteps_storageWrote (.inr (.inr (.inl rfl))) (execute_eq_next h).2
  | esc7d => exact rxSteps_storageWrote (.inr (.inr (.inr rfl))) (execute_eq_next h).2
  | reservedHostAB a => exact absurd h (executeReserved_ne_next s t)
  | reservedHostCF c => exact absurd h (executeReserved_ne_next s t)

/-! ### The obligations -/

/-- Settles O11, by the laws of one read and one write, and by the canonical form, whose first cell the reads fix. -/
theorem storageKeepsWhatIsWritten : Obligations.StorageKeepsWhatIsWritten := by
  refine ⟨fun size i m v hwf hwithin => ⟨fun hi => ⟨memRead_error m hi, memWrite_error m v hi⟩, fun hi => ?_⟩,
    fun m m' h h' hread => Memory.ext_above h h' hread⟩
  have hstores := Memory.write_stores hwf i v
  have hback : memRead size (m.write i v) i = .ok v := by rw [memRead_ok hi, hstores i, if_pos rfl]
  exact ⟨m.write i v, memWrite_ok m v hi, hstores, hback, Memory.wf_write hwf i v,
    Memory.within_write hwithin hi v⟩

/-- Settles O12: the framer state decides which writers of `BUF` are left, and `ENQ` is the one writer of `EBUF`. -/
theorem oneWriterOfEachBuffer : Obligations.OneWriterOfEachBuffer := by
  intro s t i h
  obtain ⟨hbuf, hebuf, -⟩ := exec_storageWrote h
  refine ⟨fun hs => ?_, fun ha hne => ?_, fun hna hns hne => ?_, hebuf.resolve_left⟩
  · cases hbuf with
    | kept same => exact same
    | responded awaiting => exact absurd (hs.symm.trans awaiting) nofun
    | received _ notSending => exact absurd hs notSending
  · cases hbuf with
    | kept same => exact absurd same hne
    | responded _ handler => exact handler
    | received notAwaiting => exact absurd ha notAwaiting
  · cases hbuf with
    | kept same => exact absurd same hne
    | responded awaiting => exact absurd awaiting hna
    | received _ _ carries => exact carries

/-- Settles O48, by what each instruction can emit. -/
theorem outputOnlyGrows : Obligations.OutputOnlyGrows :=
  fun _ _ _ h => (exec_storageWrote h).txout

end Sys2Proof.Machine
end

section
/-! PROOFS. The statements of spec/30_encoding.md: the three encodings and their table (R80, R89, R91, R93, R95), the
wire rows as receive steps (R80), and the wire form a slot sends (R87). -/

namespace Sys2Proof

/-! ### Decode after encode -/

/-- The round trip of every instruction: the law of its row. -/
theorem decode_encode (i : Instr) : Laws.RoundTrip.Statement i := by
  cases i with
  | init => exact Laws.RoundTrip.init
  | update rx cap => exact Laws.RoundTrip.update rx cap
  | drain cap => exact Laws.RoundTrip.drain cap
  | pktavail => exact Laws.RoundTrip.pktavail
  | isctrl => exact Laws.RoundTrip.isctrl
  | isalt => exact Laws.RoundTrip.isalt
  | process cap => exact Laws.RoundTrip.process cap
  | ignore => exact Laws.RoundTrip.ignore
  | enq bytes => exact Laws.RoundTrip.enq bytes
  | evqempty => exact Laws.RoundTrip.evqempty
  | cmdAssignEid op req => exact Laws.RoundTrip.cmdAssignEid op req
  | cmdGetEid => exact Laws.RoundTrip.cmdGetEid
  | cmdGetVersion t => exact Laws.RoundTrip.cmdGetVersion t
  | cmdGetTypes => exact Laws.RoundTrip.cmdGetTypes
  | cmdUnsupported code => exact Laws.RoundTrip.cmdUnsupported code
  | sof => exact Laws.RoundTrip.sof
  | esc7e => exact Laws.RoundTrip.esc7e
  | esc7d => exact Laws.RoundTrip.esc7d
  | reservedHostAB s => exact Laws.RoundTrip.reservedHostAB s
  | reservedHostCF ss => exact Laws.RoundTrip.reservedHostCF ss

/-! ### The rows of the opcode table -/

/-- The operands of a host request do not choose its row. -/
theorem decodeHost_mnemonic (r : HostRequest) : (decodeHost r).mnemonic = (decodeHost { sel := r.sel }).mnemonic := by
  unfold decodeHost
  dsimp only
  split <;> rfl

/-- Each of the sixteen selectors has one row. -/
theorem hostRows_filter_covers : ∀ sel : BitVec 4,
    (hostRows.filter (·.covers sel.toNat)).map (·.mnemonic) = [(decodeHost { sel := sel }).mnemonic] := by
  decide

/-- A row whose mask is the whole byte covers its own pattern and no other byte. -/
theorem covers_byte (name : String) (bits p : Nat) (code : Byte) :
    OpcodeRow.covers ⟨name, bits, p, 0xFF⟩ code.toNat = (code.toNat == p) := by
  have hmask : code.toNat &&& 0xFF = code.toNat :=
    (Nat.and_two_pow_sub_one_eq_mod code.toNat 8).trans (Nat.mod_eq_of_lt code.isLt)
  rw [OpcodeRow.covers, hmask]

theorem default_names_iff {code : Byte} :
    CommandCodes.default.names code = true ↔ code = 0x01 ∨ code = 0x02 ∨ code = 0x04 ∨ code = 0x05 := by
  simp only [CommandCodes.names, CommandCodes.default, Bool.or_eq_true, beq_iff_eq, or_assoc]

/-- A code that is none of the four has none of their rows. -/
theorem commandRows_filter_unnamed {code : Byte} (h : CommandCodes.default.names code = false) :
    commandRows.filter (·.covers code.toNat) = [] := by
  rw [← Bool.not_eq_true, default_names_iff] at h
  simp only [commandRows, List.filter_cons, covers_byte, beq_iff_eq, List.filter_nil]
  rw [if_neg (by bv_omega), if_neg (by bv_omega), if_neg (by bv_omega), if_neg (by bv_omega)]

end Sys2Proof

namespace Sys2Proof.Machine

/-! ### The guard of a reserved selector -/

theorem refusalBeforeSelector_admitted {s : State} (ha : configAdmitted s.cfg = true) (hf : s.faulted = none) :
    refusalBeforeSelector s = none := by
  simp [refusalBeforeSelector, ha, hf]

theorem executeReserved_admitted {s : State} (ha : configAdmitted s.cfg = true) (hf : s.faulted = none) :
    executeReserved s = .refused .reserved :=
  executeReserved_eq_refused.2 (.inr ⟨refusalBeforeSelector_admitted ha hf, rfl⟩)

/-! ### The wire rows as receive steps -/

/-- The sentinel starts a frame while one is awaited, and inside a body (spec/41_receive_framer.md R132, R135, R136). -/
theorem rxStep_sentinel {s : State} (hfs : s.fs = .waitSync ∨ s.fs = .body ∨ s.fs = .escape) :
    rxStep 0x7E s = startFrame s := by
  rcases hfs with hfs | hfs | hfs <;> simp [rxStep, hfs, rxWaitSync, rxBody, rxEscape]

/-- The escape byte of a body is held back (spec/41_receive_framer.md R135). -/
theorem rxStep_escapeByte {s : State} (hfs : s.fs = .body) : rxStep 0x7D s = .ok { s with fs := .escape } := by
  simp [rxStep, hfs, rxBody]

/-- The byte after it stands for the byte 0x20 above (spec/41_receive_framer.md R136). -/
theorem rxStep_escaped {s : State} {b : Byte} (hfs : s.fs = .escape) (hb : b = 0x5E ∨ b = 0x5D) :
    rxStep b s = storeBodyByte (b + 0x20) s := by
  have hne : b ≠ 0x7E := by rcases hb with rfl | rfl <;> decide
  simp only [rxStep, hfs, rxEscape, if_neg hne, if_pos hb]

/-- An escape pair completes as the receive steps of its two bytes. -/
theorem exists_escapePair {s : State} (h : Inv s) (b : Byte) :
    ∃ u t, rxStep 0x7D s = .ok u ∧ rxStep b u = .ok t ∧ execute s (rxSteps [0x7D, b] s) = .next t := by
  obtain ⟨u, hu, hi⟩ := h.rxStep 0x7D
  obtain ⟨t, ht, -⟩ := hi.rxStep b
  refine ⟨u, t, hu, ht, ?_⟩
  rw [execute_running h.running, rxSteps_cons, hu, except_bind_ok, rxSteps_cons, ht, except_bind_ok, rxSteps_nil]
  rfl

/-- The receive steps of an escape pair inside a body store the byte the pair stands for. -/
theorem escapePair_body {s u t : State} {b : Byte} (h : Inv s) (hfs : s.fs = .body) (hb : b = 0x5E ∨ b = 0x5D)
    (hu : rxStep 0x7D s = .ok u) (ht : rxStep b u = .ok t) :
    Stores s.buf t.buf s.rxIdx (b + 0x20) ∧ t = { s with
      buf := t.buf, rxIdx := s.rxIdx + 1, rxCnt := s.rxCnt - 1
      fs := if s.rxCnt - 1 = 0 then .fcs1 else .body } := by
  obtain rfl := Except.ok.inj ((rxStep_escapeByte hfs).symm.trans hu)
  rw [rxStep_escaped rfl hb] at ht
  obtain ⟨-, rfl⟩ := storeBodyByte_eq_ok ht
  exact ⟨Memory.write_stores h.bufWf _ _, rfl⟩

/-! ### The wire form of a frame in a buffer -/

theorem bytesAt_add (m : Memory) (i a b : Nat) : bytesAt m i (a + b) = bytesAt m i a ++ bytesAt m (i + a) b := by
  simp only [bytesAt, ← List.map_append, List.range'_append_1]

theorem wireFrom_add (m : Memory) (i a b : Nat) : wireFrom m i (a + b) = wireFrom m i a ++ wireFrom m (i + a) b := by
  simp only [wireFrom, ← List.flatMap_append, List.range'_append_1]

/-- Outside the window a byte is sent raw. -/
theorem wireByte_outside {m : Memory} {i : Nat} (h : i < 3 ∨ bodyLength m + 3 ≤ i) : wireByte m i = [m.read i] := by
  have hw : inWindow i (m.read 2) = false := by
    simp only [inWindow, bodyLength, Bool.and_eq_false_iff, decide_eq_false_iff_not] at *
    omega
  simp [wireByte, isStuffed, hw]

/-- Inside the window a byte is stuffed. -/
theorem wireByte_inside {m : Memory} {i : Nat} (h : 3 ≤ i) (h' : i < bodyLength m + 3) :
    wireByte m i = stuff (m.read i) := by
  have hw : inWindow i (m.read 2) = true := by simpa [inWindow, bodyLength] using ⟨h, h'⟩
  simp [wireByte, stuff, isStuffed, hw, isSpecial, escapeCode]

/-- Header and trailer are sent raw. -/
theorem wireFrom_outside {m : Memory} {i n : Nat} (h : i + n ≤ 3 ∨ bodyLength m + 3 ≤ i) :
    wireFrom m i n = bytesAt m i n := by
  induction n generalizing i with
  | zero => rfl
  | succ n ih => rw [wireFrom_succ, bytesAt_succ, wireByte_outside (by omega), ih (by omega), List.singleton_append]

/-- The body is stuffed. -/
theorem wireFrom_inside {m : Memory} {i n : Nat} (h : 3 ≤ i) (h' : i + n ≤ bodyLength m + 3) :
    wireFrom m i n = (bytesAt m i n).flatMap stuff := by
  induction n generalizing i with
  | zero => rfl
  | succ n ih =>
    rw [wireFrom_succ, bytesAt_succ, wireByte_inside h (by omega), ih (by omega) (by omega), List.flatMap_cons]

theorem bytesAt_getD {m : Memory} {i n k : Nat} (h : k < n) : (bytesAt m i n).getD k 0 = m.read (i + k) := by
  simp [bytesAt, h]

/-- A frame is its header, its body and its trailer. -/
theorem bytesAt_frame (m : Memory) (l : Nat) :
    bytesAt m 0 (l + 6) = bytesAt m 0 3 ++ (bytesAt m 3 l ++ bytesAt m (3 + l) 3) := by
  rw [show l + 6 = 3 + (l + 3) by omega, bytesAt_add, bytesAt_add, Nat.zero_add]

/-- The wire form of a frame in a buffer: header and trailer raw, the body stuffed. -/
theorem wireForm_bytesAt (m : Memory) :
    wireForm (bytesAt m 0 (bodyLength m + 6)) =
      bytesAt m 0 3 ++ (bytesAt m 3 (bodyLength m)).flatMap stuff ++ bytesAt m (3 + bodyLength m) 3 := by
  have hl : ((bytesAt m 0 (bodyLength m + 6)).getD 2 0).toNat = bodyLength m := by
    rw [bytesAt_getD (by omega)]; rfl
  simp only [wireForm, hl]
  rw [bytesAt_frame, List.take_left' (bytesAt_length m 0 3), ← List.drop_drop, List.drop_left' (bytesAt_length m 0 3),
    List.take_left' (bytesAt_length m 3 _), List.drop_left' (bytesAt_length m 3 _)]

/-- A slot just activated has every byte of its frame to send. -/
theorem wireRest_activated (m : Memory) :
    wireRest m (Slot.activated (m.read 2)) = wireFrom m 0 (bodyLength m + 6) := by
  simp [wireRest, remaining, slotLength_toNat, bodyLength]

theorem wireFrom_frame (m : Memory) :
    wireFrom m 0 (bodyLength m + 6) = wireForm (bytesAt m 0 (bodyLength m + 6)) := by
  rw [wireForm_bytesAt, show bodyLength m + 6 = 3 + bodyLength m + 3 by omega, wireFrom_add, wireFrom_add,
    wireFrom_outside (.inl (by omega)), wireFrom_inside (by omega) (by omega), wireFrom_outside (.inr (by omega))]
  simp only [Nat.zero_add]

/-! ### The obligations -/

/-- Settles O57, by the round trip of each row. -/
theorem decodeOfEncodeIsTheInstruction : Obligations.DecodeOfEncodeIsTheInstruction :=
  fun codes i => decode_encode i codes

/-- Settles O24: the guard admits it, and where the sentinel starts a frame it is `StartFrame`. -/
theorem sofStartsAFrame : Obligations.SofStartsAFrame := by
  intro s h
  obtain ⟨t, ht, -⟩ := h.rxStep 0x7E
  refine ⟨t, ?_, ht, fun hfs => ?_⟩
  · exact (execute_running h.running _).trans (congrArg completed ht)
  · obtain ⟨-, rfl⟩ := startFrame_eq_ok ((rxStep_sentinel hfs).symm.trans ht)
    exact ⟨Memory.write_stores h.bufWf 0 0x7E, rfl⟩

/-- Settles O25, by the two receive steps of an escape pair. -/
theorem escapePairsStoreTheByteTheyStandFor : Obligations.EscapePairsStoreTheByteTheyStandFor := by
  intro s h
  constructor
  · obtain ⟨u, t, hu, ht, hex⟩ := exists_escapePair h 0x5E
    exact ⟨u, t, hu, ht, hex, fun hfs => escapePair_body h hfs (.inl rfl) hu ht⟩
  · obtain ⟨u, t, hu, ht, hex⟩ := exists_escapePair h 0x5D
    exact ⟨u, t, hu, ht, hex, fun hfs => escapePair_body h hfs (.inr rfl) hu ht⟩

/-- Settles O45: both are the header and the trailer raw, and the body stuffed. -/
theorem freshSlotSendsTheWireForm : Obligations.FreshSlotSendsTheWireForm :=
  fun m => (wireRest_activated m).trans (wireFrom_frame m)

/-- Settles O6, by the guard of a reserved selector. -/
theorem reservedSelectorsAreRefused : Obligations.ReservedSelectorsAreRefused :=
  fun _ _ _ ha hf => ⟨executeReserved_admitted ha hf, executeReserved_admitted ha hf⟩

/-- Settles O58: the sixteen selectors one by one, and the command codes by the row of each default code. -/
theorem eachWordHasOneRow : Obligations.EachWordHasOneRow := by
  refine ⟨fun r => ?_, fun code p0 p1 => ?_⟩
  · rw [decodeHost_mnemonic, hostRows_filter_covers]
  · cases hn : CommandCodes.default.names code with
    | true => rcases default_names_iff.1 hn with rfl | rfl | rfl | rfl <;> rfl
    | false => rw [commandRows_filter_unnamed hn]; rfl

/-- Settles O59, by running the decoder on each word. -/
theorem writtenOutWordsDecode : Obligations.WrittenOutWordsDecode :=
  ⟨rfl, rfl, rfl, rfl, rfl, rfl, rfl, rfl, rfl, rfl, rfl⟩

end Sys2Proof.Machine
end

section
/-! PROOFS. The statements of spec/40_checksum.md: the concatenation law of the checksum (R121). -/

namespace Sys2Proof.Machine

/-- The checksum of a concatenation carries on from the checksum of its first part: `CK` is a left fold (R120, R121). -/
theorem ck_append (cfg : Config) (seed : Half) (a b : List Byte) :
    ck cfg seed (a ++ b) = ck cfg (ck cfg seed a) b :=
  List.foldl_append

/-- Settles O13, by the law of a left fold over a concatenation. -/
theorem checksumConcatenates : Obligations.ChecksumConcatenates :=
  fun cfg seed a b => (ck_append cfg seed a b).symm

end Sys2Proof.Machine
end

section
/-! PROOFS. The statements of spec/41_receive_framer.md: the arms of the receive step (R131 to R142), reception as the
inverse of the wire form (R144), malformed frames (R143), and what `BUF` holds after every step (R139). -/

namespace Sys2Proof.Machine

/-! ### Where the framer stands (spec/10_state.md R42) -/

theorem Inv.rxIdx_hdr1 {s : State} (h : Inv s) (hfs : s.fs = .hdr1) : s.rxIdx = 1 := by
  simpa [FramerPlaced, hfs] using h.placed

theorem Inv.rxIdx_hdr2 {s : State} (h : Inv s) (hfs : s.fs = .hdr2) : s.rxIdx = 2 := by
  simpa [FramerPlaced, hfs] using h.placed

theorem Inv.placed_inBody {s : State} (h : Inv s) (hfs : s.fs = .body ∨ s.fs = .escape) :
    1 ≤ s.rxCnt.toNat ∧ 3 ≤ s.rxIdx ∧ s.rxIdx + s.rxCnt.toNat = bodyLength s.buf + 3 ∧
      bodyLength s.buf + 8 ≤ s.cfg.bufCap := by
  rcases hfs with hfs | hfs <;> simpa [FramerPlaced, hfs] using h.placed

theorem Inv.placed_fcs1 {s : State} (h : Inv s) (hfs : s.fs = .fcs1) :
    s.rxIdx = bodyLength s.buf + 3 ∧ bodyLength s.buf + 8 ≤ s.cfg.bufCap := by
  simpa [FramerPlaced, hfs] using h.placed

theorem Inv.placed_fcs2 {s : State} (h : Inv s) (hfs : s.fs = .fcs2) :
    s.rxIdx = bodyLength s.buf + 4 ∧ bodyLength s.buf + 8 ≤ s.cfg.bufCap := by
  simpa [FramerPlaced, hfs] using h.placed

theorem Inv.placed_fend {s : State} (h : Inv s) (hfs : s.fs = .fend) :
    s.rxIdx = bodyLength s.buf + 5 ∧ bodyLength s.buf + 8 ≤ s.cfg.bufCap := by
  simpa [FramerPlaced, hfs] using h.placed

/-! ### The receive step, arm by arm -/

/-- The framer state with `cnt` body bytes to come (spec/41_receive_framer.md R134, R135). -/
def countState (cnt : BitVec 8) : FramerState := if cnt = 0 then .fcs1 else .body

theorem countState_cases (cnt : BitVec 8) : countState cnt = .fcs1 ∨ countState cnt = .body := by
  unfold countState
  split <;> simp

theorem countState_ne_sending (cnt : BitVec 8) : countState cnt ≠ .sendingResponse := by
  rcases countState_cases cnt with hc | hc <;> simp [hc]

theorem rxStep_waitSync_other {s : State} {b : Byte} (hfs : s.fs = .waitSync) (hb : b ≠ 0x7E) :
    rxStep b s = .ok s := by
  simp only [rxStep, hfs, rxWaitSync, if_neg hb]

theorem Inv.rxStep_started {s : State} (h : Inv s) (hfs : s.fs = .waitSync ∨ s.fs = .body ∨ s.fs = .escape) :
    Machine.rxStep 0x7E s = .ok { s with buf := s.buf.write 0 0x7E, rxIdx := 1, fs := .hdr1 } := by
  have hcap := h.caps
  rw [rxStep_sentinel hfs, startFrame_ok (by omega)]

theorem Inv.rxStep_hdr1 {s : State} (h : Inv s) (hfs : s.fs = .hdr1) (b : Byte) :
    Machine.rxStep b s = .ok { s with buf := s.buf.write 1 b, rxIdx := 2, fs := .hdr2 } := by
  have hcap := h.caps
  have hidx := h.rxIdx_hdr1 hfs
  simp only [Machine.rxStep, hfs]
  rw [rxHdr1_ok (by omega), hidx]

theorem Inv.rxStep_hdr2 {s : State} (h : Inv s) (hfs : s.fs = .hdr2) (b : Byte) :
    Machine.rxStep b s = .ok { s with
      buf := s.buf.write 2 b, rxIdx := 3, rxCnt := b
      fs := if b.toNat + 8 > s.cfg.bufCap then .waitSync else countState b } := by
  have hcap := h.caps
  have hidx := h.rxIdx_hdr2 hfs
  simp only [Machine.rxStep, hfs]
  rw [rxHdr2_ok (by omega), hidx]
  rfl

/-- A body byte, decoded or not, is stored and counted. -/
theorem Inv.storeBodyByte_inBody {s : State} (h : Inv s) (hfs : s.fs = .body ∨ s.fs = .escape) (b : Byte) :
    storeBodyByte b s = .ok { s with
      buf := s.buf.write s.rxIdx b, rxIdx := s.rxIdx + 1, rxCnt := s.rxCnt - 1
      fs := countState (s.rxCnt - 1) } := by
  have hplaced := h.placed_inBody hfs
  exact storeBodyByte_ok (by omega) b

theorem Inv.rxStep_body {s : State} {b : Byte} (h : Inv s) (hfs : s.fs = .body) (hesc : b ≠ 0x7D) (hsof : b ≠ 0x7E) :
    Machine.rxStep b s = .ok { s with
      buf := s.buf.write s.rxIdx b, rxIdx := s.rxIdx + 1, rxCnt := s.rxCnt - 1
      fs := countState (s.rxCnt - 1) } := by
  simp only [Machine.rxStep, hfs, rxBody, if_neg hesc, if_neg hsof]
  rw [h.storeBodyByte_inBody (.inl hfs)]

theorem Inv.rxStep_escaped {s : State} {b : Byte} (h : Inv s) (hfs : s.fs = .escape) (hb : b = 0x5E ∨ b = 0x5D) :
    Machine.rxStep b s = .ok { s with
      buf := s.buf.write s.rxIdx (b + 0x20), rxIdx := s.rxIdx + 1, rxCnt := s.rxCnt - 1
      fs := countState (s.rxCnt - 1) } := by
  rw [Machine.rxStep_escaped hfs hb, h.storeBodyByte_inBody (.inr hfs)]

theorem rxStep_escape_invalid {s : State} {b : Byte} (hfs : s.fs = .escape) (hsof : b ≠ 0x7E)
    (hb : ¬ (b = 0x5E ∨ b = 0x5D)) : rxStep b s = .ok { s with fs := .waitSync } := by
  simp only [rxStep, hfs, rxEscape, if_neg hsof, if_neg hb]

theorem Inv.rxStep_fcs1 {s : State} (h : Inv s) (hfs : s.fs = .fcs1) (b : Byte) :
    Machine.rxStep b s = .ok { s with buf := s.buf.write s.rxIdx b, rxIdx := s.rxIdx + 1, fs := .fcs2 } := by
  have hplaced := h.placed_fcs1 hfs
  simp only [Machine.rxStep, hfs]
  rw [rxFcs1_ok (by omega)]

theorem Inv.rxStep_fcs2 {s : State} (h : Inv s) (hfs : s.fs = .fcs2) (b : Byte) :
    Machine.rxStep b s = .ok { s with buf := s.buf.write s.rxIdx b, rxIdx := s.rxIdx + 1, fs := .fend } := by
  have hplaced := h.placed_fcs2 hfs
  simp only [Machine.rxStep, hfs]
  rw [rxFcs2_ok (by omega)]

theorem rxStep_fend_other {s : State} {b : Byte} (hfs : s.fs = .fend) (hb : b ≠ 0x7E) :
    rxStep b s = .ok { s with fs := .waitSync } := by
  simp only [rxStep, hfs, rxEnd, if_pos hb]

theorem addressed_iff {d : Byte} {s : State} : addressed d s = true ↔ d = 0x00 ∨ d = 0xFF ∨ d = s.eid := by
  simp only [addressed, Bool.or_eq_true, beq_iff_eq, or_assoc]

/-- The checks of the validator and of the admission filter (spec/42_frame_validator.md R160, R164), spelled out. -/
theorem frameAccepted_iff {s : State} (h : s.rxIdx ≤ s.cfg.bufCap) :
    FrameAccepted s ↔ valid s.rxIdx s = .ok true ∧ addressed (s.buf.read 4) s = true := by
  rw [valid_ok h, addressed_iff, Except.ok.injEq]
  simp only [Bool.and_eq_true, decide_eq_true_eq, beq_iff_eq]
  constructor
  · rintro ⟨hsize, hlength, hsum, haddr⟩
    exact ⟨⟨⟨hsize, hlength⟩, hsum.symm⟩, haddr⟩
  · rintro ⟨⟨⟨hsize, hlength⟩, hsum⟩, haddr⟩
    exact ⟨hsize, hlength, hsum.symm, haddr⟩

/-- Acceptance does not look at the framer state. -/
theorem FrameAccepted.withFs {s : State} {f : FramerState} :
    FrameAccepted { s with fs := f } ↔ FrameAccepted s :=
  ⟨fun ⟨hsize, hlength, hsum, haddr⟩ => ⟨hsize, hlength, hsum, haddr⟩,
    fun ⟨hsize, hlength, hsum, haddr⟩ => ⟨hsize, hlength, hsum, haddr⟩⟩

/-- The trailer completes the frame, which is a packet exactly when it is accepted. -/
theorem Inv.rxStep_fend {s : State} (h : Inv s) (hfs : s.fs = .fend) :
    ∃ ok, Machine.rxStep 0x7E s =
        .ok { trailerStored s with fs := if ok = true then .awaitingResponse else .waitSync } ∧
      (ok = true ↔ FrameAccepted (trailerStored s)) := by
  have hplaced := h.placed_fend hfs
  obtain ⟨ok, hok, hiff⟩ := rxEnd_ok (s := s) (by omega)
  refine ⟨ok, ?_, hiff.trans (frameAccepted_iff (s := trailerStored s) ?_).symm⟩
  · simpa only [Machine.rxStep, hfs] using hok
  · exact (by omega : s.rxIdx + 1 ≤ s.cfg.bufCap)

theorem rxStep_busy {s : State} (hfs : s.fs = .awaitingResponse ∨ s.fs = .sendingResponse) (b : Byte) :
    rxStep b s = .ok s := by
  rcases hfs with hfs | hfs <;> simp only [rxStep, hfs]

/-! ### What a receive step can do, arm by arm -/

/-- Everything a receive step can do to a state that meets the invariant (spec/41_receive_framer.md R132 to R140). -/
inductive RxMoved (s : State) : State → Prop
  | discarded : RxMoved s s
  | started : RxMoved s { s with buf := s.buf.write 0 0x7E, rxIdx := 1, fs := .hdr1 }
  | addressByte (fs : s.fs = .hdr1) (v : Byte) : RxMoved s { s with buf := s.buf.write 1 v, rxIdx := 2, fs := .hdr2 }
  | lengthByte (fs : s.fs = .hdr2) (v : Byte) : RxMoved s { s with
      buf := s.buf.write 2 v, rxIdx := 3, rxCnt := v
      fs := if v.toNat + 8 > s.cfg.bufCap then .waitSync else countState v }
  | escapeByte (fs : s.fs = .body) : RxMoved s { s with fs := .escape }
  | bodyByte (fs : s.fs = .body ∨ s.fs = .escape) (v : Byte) : RxMoved s { s with
      buf := s.buf.write s.rxIdx v, rxIdx := s.rxIdx + 1, rxCnt := s.rxCnt - 1, fs := countState (s.rxCnt - 1) }
  | dropped : RxMoved s { s with fs := .waitSync }
  | checksumHigh (fs : s.fs = .fcs1) (v : Byte) :
      RxMoved s { s with buf := s.buf.write s.rxIdx v, rxIdx := s.rxIdx + 1, fs := .fcs2 }
  | checksumLow (fs : s.fs = .fcs2) (v : Byte) :
      RxMoved s { s with buf := s.buf.write s.rxIdx v, rxIdx := s.rxIdx + 1, fs := .fend }
  | accepted (fs : s.fs = .fend) (accepted : FrameAccepted (trailerStored s)) :
      RxMoved s { trailerStored s with fs := .awaitingResponse }
  | rejected : RxMoved s { trailerStored s with fs := .waitSync }

theorem Inv.rxStep_moved {s t : State} {b : Byte} (h : Inv s) (ht : Machine.rxStep b s = .ok t) : RxMoved s t := by
  have hresult : ∀ {u : State}, Machine.rxStep b s = .ok u → RxMoved s u → RxMoved s t :=
    fun hu hmoved => Except.ok.inj (hu.symm.trans ht) ▸ hmoved
  cases hfs : s.fs with
  | waitSync =>
    by_cases hb : b = 0x7E
    · exact hresult (hb ▸ h.rxStep_started (.inl hfs)) .started
    · exact hresult (rxStep_waitSync_other hfs hb) .discarded
  | hdr1 => exact hresult (h.rxStep_hdr1 hfs b) (.addressByte hfs b)
  | hdr2 => exact hresult (h.rxStep_hdr2 hfs b) (.lengthByte hfs b)
  | body =>
    by_cases hesc : b = 0x7D
    · subst hesc
      exact hresult (rxStep_escapeByte hfs) (.escapeByte hfs)
    by_cases hsof : b = 0x7E
    · exact hresult (hsof ▸ h.rxStep_started (.inr (.inl hfs))) .started
    · exact hresult (h.rxStep_body hfs hesc hsof) (.bodyByte (.inl hfs) b)
  | escape =>
    by_cases hsof : b = 0x7E
    · exact hresult (hsof ▸ h.rxStep_started (.inr (.inr hfs))) .started
    by_cases hb : b = 0x5E ∨ b = 0x5D
    · exact hresult (h.rxStep_escaped hfs hb) (.bodyByte (.inr hfs) (b + 0x20))
    · exact hresult (rxStep_escape_invalid hfs hsof hb) .dropped
  | fcs1 => exact hresult (h.rxStep_fcs1 hfs b) (.checksumHigh hfs b)
  | fcs2 => exact hresult (h.rxStep_fcs2 hfs b) (.checksumLow hfs b)
  | fend =>
    by_cases hb : b = 0x7E
    · subst hb
      obtain ⟨ok, hok, hiff⟩ := h.rxStep_fend hfs
      cases ok with
      | false => exact hresult hok .rejected
      | true => exact hresult hok (.accepted hfs (hiff.1 rfl))
    · exact hresult (rxStep_fend_other hfs hb) .dropped
  | awaitingResponse => exact hresult (rxStep_busy (.inl hfs) b) .discarded
  | sendingResponse => exact hresult (rxStep_busy (.inr hfs) b) .discarded

theorem Inv.of_rxSteps {s t : State} {bytes : List Byte} (h : Inv s) (ht : Machine.rxSteps bytes s = .ok t) :
    Inv t := by
  obtain ⟨u, hu, hi⟩ := h.rxSteps bytes
  exact Except.ok.inj (hu.symm.trans ht) ▸ hi

/-- Reception never starts a response. -/
theorem RxMoved.ne_sending {s t : State} (hm : RxMoved s t) (hfs : s.fs ≠ .sendingResponse) :
    t.fs ≠ .sendingResponse := by
  cases hm with
  | discarded => exact hfs
  | lengthByte _ v =>
    dsimp only
    split
    · nofun
    · exact countState_ne_sending v
  | bodyByte => exact countState_ne_sending _
  | _ => nofun

theorem Inv.rxStep_ne_sending {s t : State} {b : Byte} (h : Inv s) (hfs : s.fs ≠ .sendingResponse)
    (ht : Machine.rxStep b s = .ok t) : t.fs ≠ .sendingResponse :=
  (h.rxStep_moved ht).ne_sending hfs

/-- How many bytes of a frame, stuffing and body aside, lead from `WAIT_SYNC` to a framer state. -/
def framerStage : FramerState → Nat
  | .waitSync => 0
  | .hdr1 => 1
  | .hdr2 => 2
  | .body => 3
  | .escape => 3
  | .fcs1 => 3
  | .fcs2 => 4
  | .fend => 5
  | .awaitingResponse => 6
  | .sendingResponse => 6

@[simp] theorem framerStage_countState (cnt : BitVec 8) : framerStage (countState cnt) = 3 := by
  rcases countState_cases cnt with hc | hc <;> rw [hc] <;> rfl

theorem RxMoved.stage {s t : State} (hm : RxMoved s t) : framerStage t.fs ≤ framerStage s.fs + 1 := by
  cases hm with
  | discarded => exact Nat.le_succ _
  | started => exact Nat.le_add_left 1 _
  | addressByte hfs => simp [hfs, framerStage]
  | lengthByte hfs v =>
    rw [hfs]
    dsimp only
    split
    · exact Nat.zero_le _
    · exact (framerStage_countState v).le
  | escapeByte hfs => simp [hfs, framerStage]
  | bodyByte hfs =>
    have hstage : framerStage s.fs = 3 := by rcases hfs with hfs | hfs <;> rw [hfs] <;> rfl
    rw [hstage]
    exact (framerStage_countState _).le.trans (Nat.le_succ 3)
  | dropped => exact Nat.zero_le _
  | checksumHigh hfs => simp [hfs, framerStage]
  | checksumLow hfs => simp [hfs, framerStage]
  | accepted hfs => simp [hfs, framerStage]
  | rejected => exact Nat.zero_le _

/-- Every byte brings the framer at most one stage further. -/
theorem Inv.rxSteps_stage {s t : State} {bytes : List Byte} (h : Inv s) (ht : Machine.rxSteps bytes s = .ok t) :
    framerStage t.fs ≤ framerStage s.fs + bytes.length := by
  induction bytes generalizing s with
  | nil => exact (congrArg (fun u : State => framerStage u.fs) (Except.ok.inj ht)).ge
  | cons b bs ih =>
    obtain ⟨u, hu, hi⟩ := h.rxStep b
    rw [rxSteps_cons, hu, except_bind_ok] at ht
    have hfirst := (h.rxStep_moved hu).stage
    have hrest := ih hi ht
    rw [List.length_cons]
    omega

/-! ### What a drain step does to `FS` and the address registers -/

/-- Between `s` and `t` the framer state and the address registers are as before, or the response that was being sent
is complete (spec/44_transmitter.md R218). -/
def KeptOrCompleted (s t : State) : Prop :=
  (t.fs = s.fs ∧ SameAddress s t) ∨ (s.fs = .sendingResponse ∧ t.fs = .waitSync)

theorem KeptOrCompleted.after {s t u : State} (ha : SameAddress s t) (hfs : t.fs = s.fs) (h : KeptOrCompleted t u) :
    KeptOrCompleted s u :=
  h.imp (fun hk => ⟨hk.1.trans hfs, ha.trans hk.2⟩) fun hc => ⟨hfs ▸ hc.1, hc.2⟩

theorem drainPrimary_keptOrCompleted {cap : Cap} {s t : State} {n : Nat} (hfs : s.fs = .sendingResponse)
    (h : drainPrimary cap s = .ok (t, n)) : KeptOrCompleted s t := by
  obtain ⟨r, -, h⟩ := except_bind_eq_ok.1 h
  obtain ⟨rfl, -⟩ := Prod.mk.inj (Except.ok.inj h)
  cases r.done with
  | false => exact .inl ⟨rfl, rfl, rfl, rfl⟩
  | true => exact .inr ⟨hfs, completePrimary_fs _⟩

theorem drainEvent_kept {cap : Cap} {s t : State} {n : Nat} (h : drainEvent cap s = .ok (t, n)) :
    t.fs = s.fs ∧ SameAddress s t := by
  obtain ⟨r, -, h⟩ := except_bind_eq_ok.1 h
  obtain ⟨rfl, -⟩ := Prod.mk.inj (Except.ok.inj h)
  cases r.done <;> exact ⟨rfl, rfl, rfl, rfl⟩

theorem drainActive_keptOrCompleted {cap : Cap} {s t : State} {n : Nat}
    (hsending : s.act = .primary → s.fs = .sendingResponse) (h : drainActive cap s = .ok (t, n)) :
    KeptOrCompleted s t := by
  unfold drainActive at h
  cases ha : s.act <;> simp only [ha] at h
  case none => exact (Prod.mk.inj (Except.ok.inj h)).1 ▸ .inl ⟨rfl, .refl s⟩
  case primary => exact drainPrimary_keptOrCompleted (hsending ha) h
  case event => exact .inl (drainEvent_kept h)

theorem Inv.drainStep_keptOrCompleted {s t : State} {cap : Cap} {n : Nat} (h : Inv s)
    (ht : Machine.drainStep cap s = .ok (t, n)) : KeptOrCompleted s t := by
  unfold Machine.drainStep at ht
  split at ht
  · obtain ⟨u, hu, hdrain⟩ := except_bind_eq_ok.1 ht
    have hsame := selectSlot_sameAddress hu
    rcases selectSlot_cases hu with ⟨-, -, -, rfl⟩ | ⟨-, hfs, -, rfl⟩ | ⟨-, -, rfl⟩
    · exact .after hsame rfl (drainActive_keptOrCompleted nofun hdrain)
    · exact .after hsame rfl (drainActive_keptOrCompleted (fun _ => hfs) hdrain)
    · exact drainActive_keptOrCompleted h.primarySending hdrain
  · exact drainActive_keptOrCompleted h.primarySending ht

/-! ### Reception beside a transmission -/

/-- `s` with the transmit registers and the output of `d`: all that a drain step can write while no response is
sent. -/
def withTransmit (d s : State) : State :=
  { s with act := d.act, ps := d.ps, es := d.es, evtPend := d.evtPend, txout := d.txout }

theorem Inv.drainStep_withTransmit {s t : State} {cap : Cap} {n : Nat} (h : Inv s) (hfs : s.fs ≠ .sendingResponse)
    (ht : Machine.drainStep cap s = .ok (t, n)) : t = withTransmit t s := by
  obtain ⟨hkept, heid, hupd, hnext⟩ := (h.drainStep_keptOrCompleted ht).resolve_right fun hc => hfs hc.1
  refine (drainStep_wrote ht).rest.trans ?_
  rw [hkept, heid, hupd, hnext]
  rfl

/-- With nothing to send a drain step changes nothing. -/
theorem drainStep_idle {s : State} (cap : Cap) (hact : s.act = .none) (hevt : s.evtPend = false)
    (hfs : s.fs ≠ .sendingResponse) : drainStep cap s = .ok (s, 0) := by
  simp [drainStep, selectSlot, drainActive, hact, hevt, hfs]

theorem readBufRange_congr {s t : State} (hcfg : t.cfg = s.cfg) (hbuf : t.buf = s.buf) (i n : Nat) :
    readBufRange t i n = readBufRange s i n := by
  induction n generalizing i with
  | zero => rfl
  | succ n ih => simp only [readBufRange, readBuf, hcfg, hbuf, ih]

/-- The validator looks at the buffer and the configuration only. -/
theorem valid_congr {s t : State} (hcfg : t.cfg = s.cfg) (hbuf : t.buf = s.buf) (n : Nat) :
    valid n t = valid n s := by
  simp only [valid, bufChecksum, readBuf, readBufRange_congr hcfg hbuf, hcfg, hbuf]

/-- An effect that neither reads nor writes what the transmitter can write. -/
def TransmitFree (e : State → Except Fault State) : Prop :=
  ∀ d s, e (withTransmit d s) = (e s).map (withTransmit d)

theorem TransmitFree.bind {e f : State → Except Fault State} (he : TransmitFree e) (hf : TransmitFree f) :
    TransmitFree fun s => e s >>= f := by
  intro d s
  dsimp only
  rw [he d s]
  cases e s with
  | error f => rfl
  | ok u => exact hf d u

theorem TransmitFree.ite {p : Prop} [Decidable p] {e f : State → Except Fault State} (he : TransmitFree e)
    (hf : TransmitFree f) : TransmitFree fun s => if p then e s else f s := by
  intro d s
  by_cases hp : p
  · simp only [if_pos hp, he d s]
  · simp only [if_neg hp, hf d s]

theorem TransmitFree.setFs (f : FramerState) : TransmitFree fun s => .ok { s with fs := f } := fun _ _ => rfl

theorem TransmitFree.pure : TransmitFree fun s => .ok s := fun _ _ => rfl

theorem storeRx_error {s : State} (h : ¬ s.rxIdx < s.cfg.bufCap) (b : Byte) :
    storeRx b s = .error .bufferBounds := by
  simp [storeRx, writeBuf, memWrite, h]

theorem storeRx_transmitFree (b : Byte) : TransmitFree (storeRx b) := by
  intro d s
  by_cases h : s.rxIdx < s.cfg.bufCap
  · rw [storeRx_ok h, storeRx_ok (s := withTransmit d s) h]
    rfl
  · rw [storeRx_error h, storeRx_error (s := withTransmit d s) h]
    rfl

theorem startFrame_transmitFree : TransmitFree startFrame := fun d s =>
  ((storeRx_transmitFree 0x7E).bind (f := fun u => .ok { u with fs := .hdr1 }) fun _ _ => rfl) d { s with rxIdx := 0 }

theorem storeBodyByte_transmitFree (b : Byte) : TransmitFree (storeBodyByte b) :=
  (storeRx_transmitFree b).bind fun _ _ => rfl

theorem accepted_withTransmit (d s : State) : accepted (withTransmit d s) = accepted s := by
  have hvalid := valid_congr (s := s) (t := withTransmit d s) rfl rfl s.rxIdx
  exact congrArg (· >>= fun ok => if ok then (do let a ← readBuf s 4; .ok (addressed a s)) else .ok false) hvalid

theorem rxEnd_transmitFree (b : Byte) : TransmitFree (rxEnd b) := by
  refine TransmitFree.ite (.setFs .waitSync) ((storeRx_transmitFree 0x7E).bind fun d s => ?_)
  rw [accepted_withTransmit]
  cases accepted s <;> rfl

/-- A receive step neither reads nor writes what the transmitter can write. -/
theorem rxStep_transmitFree (b : Byte) : TransmitFree (rxStep b) := by
  intro d s
  unfold rxStep
  cases hfs : s.fs <;> simp only [show (withTransmit d s).fs = s.fs from rfl, hfs]
  case waitSync => exact startFrame_transmitFree.ite .pure d s
  case hdr1 => exact (storeRx_transmitFree b).bind (fun _ _ => rfl) d s
  case hdr2 => exact (storeRx_transmitFree b).bind (fun _ _ => rfl) d s
  case body =>
    exact (TransmitFree.setFs .escape).ite (startFrame_transmitFree.ite (storeBodyByte_transmitFree b)) d s
  case escape =>
    exact startFrame_transmitFree.ite ((storeBodyByte_transmitFree (b + 0x20)).ite (.setFs .waitSync)) d s
  case fcs1 => exact (storeRx_transmitFree b).bind (fun _ _ => rfl) d s
  case fcs2 => exact (storeRx_transmitFree b).bind (fun _ _ => rfl) d s
  case fend => exact rxEnd_transmitFree b d s
  case awaitingResponse => rfl
  case sendingResponse => rfl

theorem rxSteps_transmitFree (bytes : List Byte) : TransmitFree (rxSteps bytes) := by
  induction bytes with
  | nil => exact fun _ _ => rfl
  | cons b bs ih => exact (rxStep_transmitFree b).bind ih

/-- An `UPDATE` with a byte runs the receive step and then the drain step. -/
theorem exec_update_of_steps {s u t : State} {b : Byte} {cap : Cap} {n : Nat} (h : Inv s) (hu : rxStep b s = .ok u)
    (ht : drainStep cap u = .ok (t, n)) : exec (.update (some b) cap) s = .next t := by
  refine (execute_running h.running _).trans ?_
  simp only [updateEffect, receive, hu, except_bind_ok, drainDiscarding, ht, completed]

/-- Feeding bytes, with any write capacity, is receiving them: only the transmit side can differ
(spec/41_receive_framer.md R130, spec/45_host_interface.md R242). -/
theorem Inv.runInstrs_feed {s : State} (h : Inv s) (hfs : s.fs ≠ .sendingResponse) (cap : Cap) (bytes : List Byte) :
    ∃ u t, Machine.rxSteps bytes s = .ok u ∧ runInstrs (feed cap bytes) s = .next t ∧ t = withTransmit t u := by
  induction bytes generalizing s with
  | nil => exact ⟨s, s, rfl, rfl, rfl⟩
  | cons b bs ih =>
    obtain ⟨u, hu, hiu⟩ := h.rxStep b
    obtain ⟨v, n, hv, hiv⟩ := hiu.drainStep cap
    have hne := h.rxStep_ne_sending hfs hu
    have heq := hiu.drainStep_withTransmit hne hv
    obtain ⟨w, t, hw, ht, htw⟩ := ih hiv (heq ▸ hne)
    rw [heq, rxSteps_transmitFree bs v u] at hw
    obtain ⟨x, hx, -⟩ := hiu.rxSteps bs
    rw [hx] at hw
    obtain rfl := Except.ok.inj hw
    refine ⟨x, t, by rw [rxSteps_cons, hu, except_bind_ok, hx], ?_, htw⟩
    rw [feed, List.map_cons, runInstrs, exec_update_of_steps h hu hv]
    exact ht

/-- With nothing to send, feeding bytes is exactly receiving them. -/
theorem Inv.runInstrs_feed_idle {s t : State} {bytes : List Byte} (h : Inv s) (hfs : s.fs ≠ .sendingResponse)
    (cap : Cap) (hact : s.act = .none) (hevt : s.evtPend = false) (ht : Machine.rxSteps bytes s = .ok t) :
    runInstrs (feed cap bytes) s = .next t := by
  induction bytes generalizing s with
  | nil => exact congrArg _ (Except.ok.inj ht)
  | cons b bs ih =>
    obtain ⟨u, hu, hiu⟩ := h.rxStep b
    rw [rxSteps_cons, hu, except_bind_ok] at ht
    have hne := h.rxStep_ne_sending hfs hu
    have hrest := (rxStep_wrote hu).rest
    have hacu : u.act = .none := (congrArg State.act hrest).trans hact
    have hevu : u.evtPend = false := (congrArg State.evtPend hrest).trans hevt
    rw [feed, List.map_cons, runInstrs, exec_update_of_steps h hu (drainStep_idle cap hacu hevu hne)]
    exact ih hiu hne hacu hevu ht

/-! ### The parts of a frame and of its wire form (spec/30_encoding.md R80, R81) -/

/-- Stuffed bytes are never the sentinel. -/
theorem sentinel_not_mem_stuff (b : Byte) : (0x7E : Byte) ∉ stuff b := by
  unfold stuff
  split
  case isTrue hb => rcases hb with rfl | rfl <;> decide
  case isFalse hb => simpa [eq_comm] using (not_or.1 hb).1

theorem sentinel_not_mem_stuffed (body : List Byte) : (0x7E : Byte) ∉ body.flatMap stuff := by
  simpa only [List.mem_flatMap, not_exists, not_and] using fun b _ => sentinel_not_mem_stuff b

/-- A frame is its header, as many body bytes as its length byte counts, and its trailer. -/
theorem IsFrame.parts {frame : List Byte} (h : IsFrame frame) : ∃ x l body c1 c2,
    frame = [0x7E, x, l] ++ body ++ [c1, c2, 0x7E] ∧ body.length = l.toNat := by
  obtain ⟨hlength, hsof, heof⟩ := h
  obtain ⟨sof, x, l, rest, rfl⟩ : ∃ sof x l rest, frame = sof :: x :: l :: rest := by
    match frame with
    | sof :: x :: l :: rest => exact ⟨sof, x, l, rest, rfl⟩
    | [] | [_] | [_, _] => simp at hlength
  obtain rfl : sof = 0x7E := hsof
  have hrest : rest.length = l.toNat + 3 := by simpa using hlength
  obtain ⟨c1, c2, eof, htrailer⟩ := List.length_eq_three.1 (show (rest.drop l.toNat).length = 3 by simp [hrest])
  obtain ⟨body, rfl, hbody⟩ : ∃ body, rest = body ++ [c1, c2, eof] ∧ body.length = l.toNat :=
    ⟨rest.take l.toNat, by rw [← htrailer, List.take_append_drop], by simp [hrest]⟩
  obtain rfl : eof = 0x7E := by simpa using heof
  exact ⟨x, l, body, c1, c2, by simp, hbody⟩

/-- The wire form of a frame, part by part. -/
theorem wireForm_parts (x c1 c2 : Byte) {l : Byte} {body : List Byte} (h : body.length = l.toNat) :
    wireForm ([0x7E, x, l] ++ body ++ [c1, c2, 0x7E]) =
      [0x7E, x, l] ++ body.flatMap stuff ++ [c1, c2] ++ [0x7E] := by
  simp [wireForm, ← List.drop_drop, List.take_left' h, List.drop_left' h]

/-! ### Reception of a frame, part by part -/

theorem Memory.writeAll_append (m : Memory) (i : Nat) (xs ys : List Byte) :
    m.writeAll i (xs ++ ys) = (m.writeAll i xs).writeAll (i + xs.length) ys := by
  induction xs generalizing m i with
  | nil => rfl
  | cons x xs ih =>
    rw [List.cons_append, Memory.writeAll, ih, Memory.writeAll, List.length_cons]
    congr 1
    omega

/-- `s` with the bytes `bytes` of a frame stored from offset 0, `cnt` body bytes to come, and the framer in `f`. -/
def holding (bytes : List Byte) (cnt : BitVec 8) (f : FramerState) (s : State) : State :=
  { s with buf := s.buf.writeAll 0 bytes, rxIdx := bytes.length, rxCnt := cnt, fs := f }

/-- The header: a length byte whose frame fits is followed by the body, any other drops the frame (R132 to R134). -/
theorem Inv.rxSteps_header {s : State} (h : Inv s) (hfs : s.fs = .waitSync) (x l : Byte) :
    Machine.rxSteps [0x7E, x, l] s = .ok (holding [0x7E, x, l] l
      (if l.toNat + 8 > s.cfg.bufCap then .waitSync else countState l) s) := by
  have hsof := h.rxStep_started (.inl hfs)
  have hi := h.of_rxSteps (bytes := [0x7E]) (by rw [rxSteps_cons, hsof]; rfl)
  have hx := hi.rxStep_hdr1 rfl x
  have hj := hi.of_rxSteps (bytes := [x]) (by rw [rxSteps_cons, hx]; rfl)
  rw [rxSteps_cons, hsof, except_bind_ok, rxSteps_cons, hx, except_bind_ok, rxSteps_cons, hj.rxStep_hdr2 rfl l]
  rfl

/-- A body byte as it is sent is stored as itself (R135, R136). -/
theorem Inv.rxSteps_stuff {s : State} (h : Inv s) (hfs : s.fs = .body) (b : Byte) :
    Machine.rxSteps (stuff b) s = .ok { s with
      buf := s.buf.write s.rxIdx b, rxIdx := s.rxIdx + 1, rxCnt := s.rxCnt - 1, fs := countState (s.rxCnt - 1) } := by
  unfold stuff
  split
  case isTrue hb =>
    have hesc := rxStep_escapeByte hfs
    have hi := h.of_rxSteps (bytes := [0x7D]) (by rw [rxSteps_cons, hesc]; rfl)
    have hpair : b - 0x20 = 0x5E ∨ b - 0x20 = 0x5D := by rcases hb with rfl | rfl <;> simp
    rw [rxSteps_cons, hesc, except_bind_ok, rxSteps_cons, hi.rxStep_escaped rfl hpair, except_bind_ok, rxSteps_nil,
      BitVec.sub_add_cancel]
  case isFalse hb =>
    obtain ⟨hsof, hesc⟩ := not_or.1 hb
    rw [rxSteps_cons, h.rxStep_body hfs hesc hsof]
    rfl

/-- One more byte of the frame is stored. -/
theorem store_holding (bytes : List Byte) (b : Byte) (cnt cnt' : BitVec 8) (f f' : FramerState) (s : State) :
    { holding bytes cnt f s with
      buf := (holding bytes cnt f s).buf.write (holding bytes cnt f s).rxIdx b
      rxIdx := (holding bytes cnt f s).rxIdx + 1, rxCnt := cnt', fs := f' } = holding (bytes ++ [b]) cnt' f' s := by
  simp [holding, Memory.writeAll_append, Memory.writeAll]

/-- The body: what is stuffed arrives as it was (R135, R136). -/
theorem Inv.rxSteps_stuffed {s : State} {bytes body : List Byte} {cnt : BitVec 8}
    (h : Inv (holding bytes cnt (countState cnt) s)) (hl : body.length ≤ cnt.toNat) :
    Machine.rxSteps (body.flatMap stuff) (holding bytes cnt (countState cnt) s) =
      .ok (holding (bytes ++ body) (cnt - BitVec.ofNat 8 body.length)
        (countState (cnt - BitVec.ofNat 8 body.length)) s) := by
  induction body generalizing bytes cnt with
  | nil => simp
  | cons b bs ih =>
    rw [List.length_cons] at hl
    have hpos : cnt ≠ 0 := by bv_omega
    have hb : Machine.rxSteps (stuff b) (holding bytes cnt (countState cnt) s) =
        .ok (holding (bytes ++ [b]) (cnt - 1) (countState (cnt - 1)) s) :=
      (h.rxSteps_stuff (if_neg hpos) b).trans (congrArg _ (store_holding ..))
    rw [List.flatMap_cons, rxSteps_append, hb, except_bind_ok, ih (h.of_rxSteps hb) (by bv_omega), List.append_assoc,
      List.length_cons, show cnt - 1 - BitVec.ofNat 8 bs.length = cnt - BitVec.ofNat 8 (bs.length + 1) by bv_omega,
      List.singleton_append]

/-- Header and body of a frame that fits, the body whole or cut short. -/
theorem Inv.rxSteps_headerBody {s : State} (h : Inv s) (hfs : s.fs = .waitSync) (x l : Byte) {body : List Byte}
    (hfit : l.toNat + 8 ≤ s.cfg.bufCap) (hl : body.length ≤ l.toNat) :
    Machine.rxSteps ([0x7E, x, l] ++ body.flatMap stuff) s =
      .ok (holding ([0x7E, x, l] ++ body) (l - BitVec.ofNat 8 body.length)
        (countState (l - BitVec.ofNat 8 body.length)) s) := by
  have hheader := h.rxSteps_header hfs x l
  rw [if_neg (by omega)] at hheader
  rw [rxSteps_append, hheader, except_bind_ok, (h.of_rxSteps hheader).rxSteps_stuffed hl]

/-- The checksum bytes are stored as they come (R137, R138). -/
theorem Inv.rxSteps_checksum {s : State} {bytes : List Byte} {cnt : BitVec 8} (h : Inv (holding bytes cnt .fcs1 s))
    (c1 c2 : Byte) :
    Machine.rxSteps [c1, c2] (holding bytes cnt .fcs1 s) = .ok (holding (bytes ++ [c1, c2]) cnt .fend s) := by
  have h1 : Machine.rxStep c1 (holding bytes cnt .fcs1 s) = .ok (holding (bytes ++ [c1]) cnt .fcs2 s) :=
    (h.rxStep_fcs1 rfl c1).trans (congrArg _ (store_holding ..))
  have hi := h.of_rxSteps (bytes := [c1]) (by rw [rxSteps_cons, h1]; rfl)
  have h2 : Machine.rxStep c2 (holding (bytes ++ [c1]) cnt .fcs2 s) =
      .ok (holding (bytes ++ [c1] ++ [c2]) cnt .fend s) :=
    (hi.rxStep_fcs2 rfl c2).trans (congrArg _ (store_holding ..))
  rw [rxSteps_cons, h1, except_bind_ok, rxSteps_cons, h2, except_bind_ok, rxSteps_nil, List.append_assoc]
  rfl

/-- A frame that fits, all but its trailing sentinel: the framer waits for it. -/
theorem Inv.rxSteps_untilTrailer {s : State} (h : Inv s) (hfs : s.fs = .waitSync) (x l c1 c2 : Byte)
    {body : List Byte} (hfit : l.toNat + 8 ≤ s.cfg.bufCap) (hl : body.length = l.toNat) :
    Machine.rxSteps ([0x7E, x, l] ++ body.flatMap stuff ++ [c1, c2]) s =
      .ok (holding ([0x7E, x, l] ++ body ++ [c1, c2]) 0 .fend s) := by
  have hbody := h.rxSteps_headerBody hfs x l hfit hl.le
  rw [show l - BitVec.ofNat 8 body.length = 0 by bv_omega] at hbody
  rw [rxSteps_append, hbody, except_bind_ok]
  exact (h.of_rxSteps hbody).rxSteps_checksum c1 c2

/-- `BUF` holds `frame` from offset 0. -/
def FrameStored (frame : List Byte) (m : Memory) : Prop := ∀ a, a < frame.length → m.read a = frame.getD a 0

theorem frameStored_writeAll {m : Memory} (h : m.wf = true) (frame : List Byte) :
    FrameStored frame (m.writeAll 0 frame) := by
  intro a ha
  rw [Memory.read_writeAll h, if_pos (by omega), Nat.sub_zero]

theorem FrameStored.bytesAt_eq {frame : List Byte} {m : Memory} (h : FrameStored frame m) {i n : Nat}
    (hn : i + n ≤ frame.length) : bytesAt m i n = (frame.drop i).take n := by
  refine List.ext_getElem (by simp; omega) fun k hk hk' => ?_
  simp only [bytesAt_length] at hk
  simp [bytesAt, h (i + k) (by omega), List.getElem?_eq_getElem (show i + k < frame.length by omega)]

/-- The checks of the validator on a stored frame are those on the frame itself. -/
theorem frameAccepted_holding {frame : List Byte} (hf : IsFrame frame) {s : State} (hw : s.buf.wf = true)
    (cnt : BitVec 8) (f : FramerState) : FrameAccepted (holding frame cnt f s) ↔
      11 ≤ frame.length ∧ checksumRight s.cfg frame ∧
        (frame.getD 4 0 = 0x00 ∨ frame.getD 4 0 = 0xFF ∨ frame.getD 4 0 = s.eid) := by
  have hstored := frameStored_writeAll hw frame
  have hlength := hf.length
  have hread : ∀ a, a < frame.length → (holding frame cnt f s).buf.read a = frame.getD a 0 := hstored
  have hsum : bytesAt (holding frame cnt f s).buf 1 (frame.length - 4) = (frame.drop 1).take (frame.length - 4) :=
    hstored.bytesAt_eq (by omega)
  constructor
  · rintro ⟨hsize, -, hck, haddr⟩
    refine ⟨hsize, ?_, ?_⟩
    · unfold checksumRight
      rw [← hread _ (by omega), ← hread _ (by omega), ← hsum]
      exact hck
    · rwa [hread 4 (by omega)] at haddr
  · rintro ⟨hsize, hck, haddr⟩
    unfold checksumRight at hck
    rw [← hread _ (by omega), ← hread _ (by omega), ← hsum] at hck
    refine ⟨hsize, ?_, hck, ?_⟩
    · rw [hread 2 (by omega)]
      exact (by omega : (frame.getD 2 0).toNat = frame.length - 6)
    · rw [hread 4 (by omega)]
      exact haddr

/-- The wire form of a frame that fits leaves the frame in `BUF`; it is a packet exactly when the frame has the size,
the checksum and the destination of one (R139, R144). -/
theorem Inv.rxSteps_wireForm {s : State} {frame : List Byte} (h : Inv s) (hfs : s.fs = .waitSync) (hf : IsFrame frame)
    (hfit : (frame.getD 2 0).toNat + 8 ≤ s.cfg.bufCap) :
    ∃ ok, Machine.rxSteps (wireForm frame) s =
        .ok (holding frame 0 (if ok = true then .awaitingResponse else .waitSync) s) ∧
      (ok = true ↔ 11 ≤ frame.length ∧ checksumRight s.cfg frame ∧
        (frame.getD 4 0 = 0x00 ∨ frame.getD 4 0 = 0xFF ∨ frame.getD 4 0 = s.eid)) := by
  obtain ⟨x, l, body, c1, c2, hparts, hl⟩ := hf.parts
  have huntil := h.rxSteps_untilTrailer hfs x l c1 c2 (by simpa [hparts] using hfit) hl
  obtain ⟨ok, hok, hiff⟩ := (h.of_rxSteps huntil).rxStep_fend rfl
  have hframe : trailerStored (holding ([0x7E, x, l] ++ body ++ [c1, c2]) 0 .fend s) = holding frame 0 .fend s := by
    rw [hparts, show [c1, c2, 0x7E] = [c1, c2] ++ [(0x7E : Byte)] from rfl, ← List.append_assoc]
    exact store_holding ..
  rw [hframe] at hok hiff
  refine ⟨ok, ?_, hiff.trans (frameAccepted_holding hf h.bufWf _ _)⟩
  rw [hparts, wireForm_parts x c1 c2 hl, rxSteps_append, huntil, except_bind_ok, rxSteps_cons, hok, ← hparts]
  rfl

/-! ### Malformed frames (R143) -/

/-- Without a sentinel `WAIT_SYNC` discards everything. -/
theorem rxSteps_waitSync_discards {s : State} {bytes : List Byte} (hfs : s.fs = .waitSync)
    (hbytes : (0x7E : Byte) ∉ bytes) : rxSteps bytes s = .ok s := by
  induction bytes with
  | nil => rfl
  | cons b bs ih =>
    obtain ⟨hb, hbs⟩ := not_or.1 (mt List.mem_cons.2 hbytes)
    rw [rxSteps_cons, rxStep_waitSync_other hfs (Ne.symm hb), except_bind_ok, ih hbs]

/-- A frame too long for `BUF` is dropped at its length byte, and its body is discarded (R134). -/
theorem Inv.rxSteps_oversized {s : State} (h : Inv s) (hfs : s.fs = .waitSync) (x : Byte) {l : Byte}
    (hbig : s.cfg.bufCap < l.toNat + 8) {bytes : List Byte} (hbytes : (0x7E : Byte) ∉ bytes) :
    Machine.rxSteps ([0x7E, x, l] ++ bytes) s = .ok (holding [0x7E, x, l] l .waitSync s) := by
  have hheader := h.rxSteps_header hfs x l
  rw [if_pos hbig] at hheader
  rw [rxSteps_append, hheader, except_bind_ok, rxSteps_waitSync_discards rfl hbytes]

/-- Once a packet is available every further byte is discarded, so it was not available before if it is not now. -/
theorem not_awaiting_of_append {s u t : State} {xs ys : List Byte} (hu : rxSteps xs s = .ok u)
    (ht : rxSteps (xs ++ ys) s = .ok t) (hne : t.fs ≠ .awaitingResponse) : u.fs ≠ .awaitingResponse := by
  intro hc
  rw [rxSteps_append, hu, except_bind_ok, rxSteps_busy (.inl hc)] at ht
  exact hne (Except.ok.inj ht ▸ hc)

/-- Before its trailing sentinel a frame leaves the framer waiting for that sentinel, or, dropped at its length byte,
too early in another frame for one byte to complete it. -/
theorem Inv.rxSteps_withoutSentinel {s t : State} (h : Inv s) (hfs : s.fs = .waitSync) {x l c1 c2 : Byte}
    {body : List Byte} (hl : body.length = l.toNat)
    (ht : Machine.rxSteps ([0x7E, x, l] ++ body.flatMap stuff ++ [c1, c2]) s = .ok t) :
    t.fs = .fend ∧ l.toNat + 8 ≤ s.cfg.bufCap ∨ framerStage t.fs ≤ 2 := by
  by_cases hfit : l.toNat + 8 ≤ s.cfg.bufCap
  · obtain rfl := Except.ok.inj ((h.rxSteps_untilTrailer hfs x l c1 c2 hfit hl).symm.trans ht)
    exact .inl ⟨rfl, hfit⟩
  · have hdropped := h.rxSteps_oversized hfs x (not_le.1 hfit) (sentinel_not_mem_stuffed body)
    rw [rxSteps_append, hdropped, except_bind_ok] at ht
    exact .inr ((h.of_rxSteps hdropped).rxSteps_stage ht)

/-- The byte that makes a packet available is the trailing sentinel of a frame that fits. -/
theorem Inv.lastByte_of_awaiting {s t : State} (h : Inv s) (hfs : s.fs = .waitSync) {x l c1 c2 b : Byte}
    {body : List Byte} (hl : body.length = l.toNat)
    (ht : Machine.rxSteps ([0x7E, x, l] ++ body.flatMap stuff ++ [c1, c2] ++ [b]) s = .ok t)
    (ha : t.fs = .awaitingResponse) : l.toNat + 8 ≤ s.cfg.bufCap ∧ b = 0x7E := by
  rw [rxSteps_append] at ht
  obtain ⟨u, hu, ht⟩ := except_bind_eq_ok.1 ht
  rcases h.rxSteps_withoutSentinel hfs hl hu with ⟨hend, hfit⟩ | hstage
  · refine ⟨hfit, by_contra fun hb => ?_⟩
    rw [rxSteps_cons, rxStep_fend_other hend hb] at ht
    obtain rfl := Except.ok.inj ht
    cases ha
  · have hlast := (h.of_rxSteps hu).rxSteps_stage ht
    rw [ha, List.length_singleton] at hlast
    exact absurd (hlast.trans (Nat.succ_le_succ hstage)) (by decide)

/-- The wire form of a frame leaves a packet only when the frame fits and passes every check. -/
theorem Inv.accepted_of_awaiting {s t : State} {frame : List Byte} (h : Inv s) (hfs : s.fs = .waitSync)
    (hf : IsFrame frame) (ht : Machine.rxSteps (wireForm frame) s = .ok t) (ha : t.fs = .awaitingResponse) :
    (frame.getD 2 0).toNat + 8 ≤ s.cfg.bufCap ∧ 11 ≤ frame.length ∧ checksumRight s.cfg frame := by
  have hfit : (frame.getD 2 0).toNat + 8 ≤ s.cfg.bufCap := by
    obtain ⟨x, l, body, c1, c2, rfl, hl⟩ := hf.parts
    rw [wireForm_parts x c1 c2 hl] at ht
    exact (h.lastByte_of_awaiting hfs hl ht ha).1
  obtain ⟨ok, hok, hiff⟩ := h.rxSteps_wireForm hfs hf hfit
  obtain rfl := Except.ok.inj (hok.symm.trans ht)
  cases ok with
  | false => cases ha
  | true =>
    obtain ⟨hsize, hck, -⟩ := hiff.1 rfl
    exact ⟨hfit, hsize, hck⟩

/-- An invalid escape inside the body drops the frame, and only another sentinel is looked at (R136). -/
theorem Inv.rxSteps_invalidEscape {s t : State} (h : Inv s) (hfs : s.fs = .waitSync) {x l e : Byte}
    {body rest : List Byte} (hl : body.length < l.toNat) (h5E : e ≠ 0x5E) (h5D : e ≠ 0x5D) (h7E : e ≠ 0x7E)
    (hrest : (0x7E : Byte) ∉ rest)
    (ht : Machine.rxSteps ([0x7E, x, l] ++ body.flatMap stuff ++ [0x7D, e] ++ rest) s = .ok t) :
    t.fs = .waitSync := by
  by_cases hfit : l.toNat + 8 ≤ s.cfg.bufCap
  · have hbody := h.rxSteps_headerBody hfs x l hfit hl.le
    rw [countState, if_neg (show l - BitVec.ofNat 8 body.length ≠ 0 by bv_omega)] at hbody
    rw [List.append_assoc, rxSteps_append, hbody, except_bind_ok, List.cons_append, rxSteps_cons,
      rxStep_escapeByte rfl, except_bind_ok, List.singleton_append, rxSteps_cons,
      rxStep_escape_invalid rfl h7E (not_or.2 ⟨h5E, h5D⟩), except_bind_ok, rxSteps_waitSync_discards rfl hrest] at ht
    exact Except.ok.inj ht ▸ rfl
  · have hdiscarded : (0x7E : Byte) ∉ body.flatMap stuff ++ [0x7D, e] ++ rest := by
      rw [List.mem_append, List.mem_append, not_or, not_or]
      exact ⟨⟨sentinel_not_mem_stuffed body, by simpa [eq_comm] using h7E⟩, hrest⟩
    have hdropped := h.rxSteps_oversized hfs x (not_le.1 hfit) hdiscarded
    rw [← List.append_assoc, ← List.append_assoc] at hdropped
    exact Except.ok.inj (hdropped.symm.trans ht) ▸ rfl

/-- No malformed sequence leaves a packet (R143). -/
theorem Malformed.rxSteps_not_awaiting {s t : State} {bytes : List Byte} (hm : Malformed s.cfg bytes) (h : Inv s)
    (hfs : s.fs = .waitSync) (ht : rxSteps bytes s = .ok t) : t.fs ≠ .awaitingResponse := by
  intro ha
  cases hm with
  | truncated frame k hf hk =>
    obtain ⟨x, l, body, c1, c2, rfl, hl⟩ := hf.parts
    rw [wireForm_parts x c1 c2 hl] at ht hk
    rw [List.take_append_of_le_length (by simpa using Nat.le_of_lt_succ (by simpa using hk))] at ht
    obtain ⟨u, hu, -⟩ := h.rxSteps ([0x7E, x, l] ++ body.flatMap stuff ++ [c1, c2])
    refine not_awaiting_of_append ht (by rwa [List.take_append_drop]) (fun hc => ?_) ha
    rcases h.rxSteps_withoutSentinel hfs hl hu with ⟨hend, -⟩ | hstage
    · cases hend.symm.trans hc
    · simp [hc, framerStage] at hstage
  | corruptedChecksum frame hf hwrong =>
    obtain ⟨-, -, hck⟩ := h.accepted_of_awaiting hfs hf ht ha
    exact hwrong hck
  | undersized frame hf hsmall =>
    obtain ⟨-, hsize, -⟩ := h.accepted_of_awaiting hfs hf ht ha
    omega
  | oversized frame hf hbig =>
    obtain ⟨hfit, -⟩ := h.accepted_of_awaiting hfs hf ht ha
    omega
  | missingTrailer frame b hf hb =>
    obtain ⟨x, l, body, c1, c2, rfl, hl⟩ := hf.parts
    rw [wireForm_parts x c1 c2 hl, List.dropLast_concat] at ht
    exact hb (h.lastByte_of_awaiting hfs hl ht ha).2
  | invalidEscape frame k e rest hf hk h5E h5D h7E hrest =>
    obtain ⟨x, l, body, c1, c2, rfl, hl⟩ := hf.parts
    replace hk : k < l.toNat := by simpa using hk
    have hbody : ((([0x7E, x, l] ++ body ++ [c1, c2, 0x7E]).drop 3).take k) = body.take k :=
      List.take_append_of_le_length (l₁ := body) (hl ▸ hk.le)
    rw [hbody, rxSteps_append] at ht
    obtain ⟨u, hu, ht⟩ := except_bind_eq_ok.1 ht
    have hdropped : u.fs = .waitSync :=
      h.rxSteps_invalidEscape hfs (by rw [List.length_take]; omega) h5E h5D h7E (fun hc => hrest _ hc rfl) hu
    have hlast := (h.of_rxSteps hu).rxSteps_stage ht
    rw [ha, hdropped] at hlast
    exact absurd hlast (by decide)

/-! ### What `BUF` holds (R139, spec/43_control_commands.md R188) -/

/-- What is held depends on these registers only. -/
theorem FrameHeld.congr {s t : State} (h : FrameHeld s) (hcfg : t.cfg = s.cfg) (hfs : t.fs = s.fs)
    (hidx : t.rxIdx = s.rxIdx) (hbuf : t.buf = s.buf) (heid : t.eid = s.eid) : FrameHeld t := by
  obtain ⟨hsof, hpacket, hresponse⟩ := h
  refine ⟨?_, ?_, ?_⟩
  · rwa [hfs, hbuf]
  · rw [hfs, hidx, hbuf, valid_congr hcfg hbuf, addressed, heid]
    exact hpacket
  · rw [hfs, hbuf, valid_congr hcfg hbuf]
    exact hresponse

/-- While a frame is being assembled only its sentinel is asked for. -/
theorem FrameHeld.of_assembling {s : State} (hsof : s.buf.read 0 = 0x7E) (hna : s.fs ≠ .awaitingResponse)
    (hns : s.fs ≠ .sendingResponse) : FrameHeld s :=
  ⟨fun _ => hsof, fun hc => absurd hc hna, fun hc => absurd hc hns⟩

/-- A byte stored past offset 0 leaves the sentinel. -/
theorem FrameHeld.read_zero_write {s : State} (h : FrameHeld s) (hw : s.buf.wf = true) (hfs : s.fs ≠ .waitSync)
    {i : Nat} (hi : i ≠ 0) (b : Byte) : (s.buf.write i b).read 0 = 0x7E := by
  rw [Memory.read_write hw, if_neg hi.symm, h.sof hfs]

/-- An accepted frame with its trailing sentinel is what an available packet must be. -/
theorem FrameHeld.of_accepted {s : State} (hfs : s.fs = .awaitingResponse) (hcap : s.rxIdx ≤ s.cfg.bufCap)
    (hsof : s.buf.read 0 = 0x7E) (hacc : FrameAccepted s) (heof : s.buf.read (s.rxIdx - 1) = 0x7E) : FrameHeld s := by
  obtain ⟨hvalid, haddr⟩ := (frameAccepted_iff hcap).1 hacc
  exact ⟨fun _ => hsof, fun _ => ⟨hvalid, haddr, heof⟩, fun hc => by simp [hfs] at hc⟩

/-- A counted byte leaves a frame being assembled. -/
theorem FrameHeld.of_countState {s : State} {cnt : BitVec 8} (hfs : s.fs = countState cnt)
    (hsof : s.buf.read 0 = 0x7E) : FrameHeld s := by
  rcases countState_cases cnt with hc | hc <;> exact .of_assembling hsof (by simp [hfs, hc]) (by simp [hfs, hc])

/-- Every receive step keeps what `BUF` holds. -/
theorem Inv.rxStep_frameHeld {s t : State} {b : Byte} (h : Inv s) (hh : FrameHeld s)
    (ht : Machine.rxStep b s = .ok t) : FrameHeld t := by
  have hpast : s.fs ≠ .waitSync → ∀ i, i ≠ 0 → ∀ v, (s.buf.write i v).read 0 = 0x7E :=
    fun hne i hi v => hh.read_zero_write h.bufWf hne hi v
  cases h.rxStep_moved ht with
  | discarded => exact hh
  | started => exact .of_assembling (by rw [Memory.read_write h.bufWf, if_pos rfl]) nofun nofun
  | addressByte hfs v => exact .of_assembling (hpast (by simp [hfs]) 1 nofun v) nofun nofun
  | lengthByte hfs v =>
    by_cases hbig : v.toNat + 8 > s.cfg.bufCap
    · exact .of_waitSync (if_pos hbig)
    · exact .of_countState (if_neg hbig) (hpast (by simp [hfs]) 2 nofun v)
  | escapeByte hfs => exact .of_assembling (hh.sof (by simp [hfs])) nofun nofun
  | bodyByte hfs v =>
    have hplaced := h.placed_inBody hfs
    exact .of_countState rfl (hpast (by rcases hfs with hfs | hfs <;> simp [hfs]) s.rxIdx (by omega) v)
  | dropped => exact .of_waitSync rfl
  | checksumHigh hfs v =>
    have hplaced := h.placed_fcs1 hfs
    exact .of_assembling (hpast (by simp [hfs]) s.rxIdx (by omega) v) nofun nofun
  | checksumLow hfs v =>
    have hplaced := h.placed_fcs2 hfs
    exact .of_assembling (hpast (by simp [hfs]) s.rxIdx (by omega) v) nofun nofun
  | accepted hfs hacc =>
    have hplaced := h.placed_fend hfs
    refine .of_accepted rfl (by simp only; omega) (hpast (by simp [hfs]) s.rxIdx (by omega) 0x7E)
      (FrameAccepted.withFs.2 hacc) ?_
    simp only [Nat.add_sub_cancel]
    rw [Memory.read_write h.bufWf, if_pos rfl]
  | rejected => exact .of_waitSync rfl

theorem Inv.rxSteps_frameHeld {s t : State} {bytes : List Byte} (h : Inv s) (hh : FrameHeld s)
    (ht : Machine.rxSteps bytes s = .ok t) : FrameHeld t :=
  h.rxSteps_induction (fun _ _ _ hi hheld hb => hi.rxStep_frameHeld hheld hb) hh ht

/-- A drain step writes neither `BUF` nor what names its frame, unless it completes a response. -/
theorem Inv.drainStep_frameHeld {s t : State} {cap : Cap} {n : Nat} (h : Inv s) (hh : FrameHeld s)
    (ht : Machine.drainStep cap s = .ok (t, n)) : FrameHeld t := by
  rcases h.drainStep_keptOrCompleted ht with ⟨hfs, haddr⟩ | ⟨-, hfs⟩
  · have hrest := (drainStep_wrote ht).rest
    exact hh.congr (congrArg State.cfg hrest :) hfs (congrArg State.rxIdx hrest :) (congrArg State.buf hrest :)
      haddr.eid
  · exact .of_waitSync hfs

theorem Inv.drainDiscarding_frameHeld {s t : State} {cap : Cap} (h : Inv s) (hh : FrameHeld s)
    (ht : Machine.drainDiscarding cap s = .ok t) : FrameHeld t := by
  obtain ⟨⟨u, n⟩, hu, ht⟩ := except_bind_eq_ok.1 ht
  exact Except.ok.inj ht ▸ h.drainStep_frameHeld hh hu

theorem FrameHeld.returning {s : State} (h : FrameHeld s) (r : Result) : FrameHeld (returning r s) :=
  h.congr rfl rfl rfl rfl rfl

theorem Inv.drainReturning_frameHeld {s t : State} {cap : Cap} (h : Inv s) (hh : FrameHeld s)
    (ht : Machine.drainReturning cap s = .ok t) : FrameHeld t := by
  obtain ⟨⟨u, n⟩, hu, ht⟩ := except_bind_eq_ok.1 ht
  exact Except.ok.inj ht ▸ (h.drainStep_frameHeld hh hu).returning _

theorem Inv.updateEffect_frameHeld {s t : State} {rx : Option Byte} {cap : Cap} (h : Inv s) (hh : FrameHeld s)
    (ht : updateEffect rx cap s = .ok t) : FrameHeld t := by
  obtain ⟨u, hu, ht⟩ := except_bind_eq_ok.1 ht
  rw [receive_eq_rxSteps] at hu
  exact (h.of_rxSteps hu).drainDiscarding_frameHeld (h.rxSteps_frameHeld hh hu) ht

/-! ### A response is a frame the validator accepts (spec/43_control_commands.md R188) -/

/-- A handler built a response in `t` from the request in `s`, with a body length that fits a byte (R182). -/
structure Responded (payload : List Byte) (s t : State) : Prop where
  fits : payload.length + 13 ≤ s.cfg.bufCap
  short : payload.length + 7 ≤ 255
  cfg : t.cfg = s.cfg
  fs : t.fs = .sendingResponse
  buf : t.buf = responseWritten payload s

theorem Responded.isResponse {payload : List Byte} {s t : State} (h : Responded payload s t) (hw : s.buf.wf = true) :
    IsResponse payload s t :=
  responseWritten_isResponse hw h.buf h.cfg

/-- The response passes the validator, and ends in its sentinel. -/
theorem Responded.valid {payload : List Byte} {s t : State} (h : Responded payload s t) (hw : s.buf.wf = true) :
    Machine.valid (bodyLength t.buf + 6) t = .ok true ∧ t.buf.read (bodyLength t.buf + 5) = 0x7E := by
  have hr := h.isResponse hw
  have hfits := h.fits
  have hlength : bodyLength t.buf = payload.length + 7 := hr.lengthByte h.short
  have hsum := hr.checksum.symm
  rw [hlength, show payload.length + 7 + 5 = 12 + payload.length by omega]
  refine ⟨?_, hr.trailer⟩
  rw [valid_ok (by rw [h.cfg]; omega), hlength, show payload.length + 7 + 6 - 4 = 9 + payload.length by omega,
    show payload.length + 7 + 6 - 3 = 10 + payload.length by omega,
    show payload.length + 7 + 6 - 2 = 11 + payload.length by omega, hsum]
  simp

theorem Responded.frameHeld {payload : List Byte} {s t : State} (h : Responded payload s t) (hw : s.buf.wf = true)
    (hsof : s.buf.read 0 = 0x7E) : FrameHeld t :=
  ⟨fun _ => (h.isResponse hw).header.1.trans hsof, fun hc => by simp [h.fs] at hc, fun _ => h.valid hw⟩

theorem assignEid_responded {s t : State} {op : BitVec 4} {req : Byte} (h : Inv s) (ht : assignEid op req s = .ok t) :
    Responded (assignPayload op req s) s t := by
  have hcap := h.caps
  have hlength := assignPayload_length op req s
  obtain rfl := Except.ok.inj ((assignEid_ok h.running.admitted h.bufWf).symm.trans ht)
  exact ⟨by omega, by omega, assignDeferred_cfg op req s, rfl, rfl⟩

theorem respond_responded {payload : List Byte} {s t : State} (h : Inv s) (hfits : payload.length + 13 ≤ s.cfg.bufCap)
    (hshort : payload.length + 7 ≤ 255) (ht : respond payload s = .ok t) : Responded payload s t := by
  obtain rfl := Except.ok.inj ((respond_ok h.bufWf hfits).symm.trans ht)
  exact ⟨hfits, hshort, rfl, rfl, rfl⟩

/-- Every payload but Get Message Type Support's is at most six bytes long (R189). -/
theorem respond_responded_short {payload : List Byte} {s t : State} (h : Inv s) (hl : payload.length ≤ 6)
    (ht : respond payload s = .ok t) : Responded payload s t := by
  have hcap := h.caps
  exact respond_responded h (by omega) (by omega) ht

theorem getTypes_responded {s t : State} (h : Inv s) (htypes : s.cfg.supportedTypes.length ≤ 246)
    (ht : getTypes s = .ok t) : Responded (getTypesPayload s) s t := by
  obtain ⟨-, hroom, -⟩ := admitted_bounds h.running.admitted
  have hlength := getTypesPayload_length s
  exact respond_responded h (by omega) (by omega) ht

/-- Whichever handler a request selects, it builds a response (R181). -/
theorem dispatchCommand_responded {s t : State} (h : Inv s) (htypes : s.cfg.supportedTypes.length ≤ 246)
    (ht : dispatchCommand s = .ok t) : ∃ payload, Responded payload s t := by
  obtain ⟨cc, -, ht⟩ := except_bind_eq_ok.1 ht
  split at ht
  · obtain ⟨p, -, ht⟩ := except_bind_eq_ok.1 ht
    obtain ⟨req, -, ht⟩ := except_bind_eq_ok.1 ht
    exact ⟨_, assignEid_responded h ht⟩
  split at ht
  · exact ⟨_, respond_responded_short h (by simp [getEidPayload]) ht⟩
  split at ht
  · obtain ⟨ty, -, ht⟩ := except_bind_eq_ok.1 ht
    exact ⟨_, respond_responded_short h (getVersionPayload_length ty s) ht⟩
  split at ht
  · exact ⟨_, getTypes_responded h htypes ht⟩
  · exact ⟨_, respond_responded_short h (by simp [unsupportedPayload]) ht⟩

/-! ### Every instruction keeps what `BUF` holds -/

theorem enqueue_frameHeld {s t : State} {bytes : List Byte} (hh : FrameHeld s) (ht : enqueue bytes s = .ok t) :
    FrameHeld t := by
  obtain ⟨hrest, -⟩ := enqueue_wrote ht
  exact hh.congr (congrArg State.cfg hrest :) (congrArg State.fs hrest :) (congrArg State.rxIdx hrest :)
    (congrArg State.buf hrest :) (congrArg State.eid hrest :)

theorem classify_frameHeld {s t : State} {isType : Byte → Bool} (hh : FrameHeld s) (ht : classify isType s = .ok t) :
    FrameHeld t := by
  obtain ⟨r, rfl⟩ := classify_eq_ok ht
  exact hh.returning r

theorem ignorePacket_frameHeld {s : State} (hh : FrameHeld s) : FrameHeld (ignorePacket s) := by
  unfold ignorePacket
  split
  · exact .of_waitSync rfl
  · exact hh

/-- A command row: nothing outside `AWAITING_RESPONSE`, and there a response (log 15). -/
theorem execute_command_frameHeld {s t : State} {e : Except Fault State} (h : Inv s) (hh : FrameHeld s)
    (he : e = .ok t → ∃ payload, Responded payload s t) (ht : execute s (whenAwaiting s e) = .next t) :
    FrameHeld t := by
  rcases whenAwaiting_cases (execute_eq_next ht).2 with rfl | ⟨hfs, hok⟩
  · exact hh
  · obtain ⟨payload, hr⟩ := he hok
    exact hr.frameHeld h.bufWf (hh.sof (by simp [hfs]))

theorem exec_process_frameHeld {s t : State} {cap : Cap} (h : Inv s) (hh : FrameHeld s)
    (htypes : s.cfg.supportedTypes.length ≤ 246) (ht : exec (.process cap) s = .next t) : FrameHeld t := by
  rcases whenAwaiting_cases (execute_eq_next ht).2 with rfl | ⟨hfs, hok⟩
  · exact hh
  obtain ⟨u, hu, hi⟩ := h.dispatch hfs
  rw [processAwaiting, hu, except_bind_ok] at hok
  obtain ⟨payload, hr⟩ := dispatchCommand_responded h htypes hu
  exact hi.drainDiscarding_frameHeld (hr.frameHeld h.bufWf (hh.sof (by simp [hfs]))) hok

/-- Every instruction that completes keeps what `BUF` holds, one instruction at a time. -/
theorem exec_frameHeld {i : Instr} {s t : State} (h : Inv s) (hh : FrameHeld s)
    (htypes : s.cfg.supportedTypes.length ≤ 246) (ht : exec i s = .next t) : FrameHeld t := by
  cases i with
  | init => exact exec_init_eq_next ht ▸ .of_waitSync rfl
  | update rx cap => exact h.updateEffect_frameHeld hh (execute_eq_next ht).2
  | drain cap => exact h.drainReturning_frameHeld hh (execute_eq_next ht).2
  | pktavail => exact Except.ok.inj (execute_eq_next ht).2 ▸ hh.returning _
  | isctrl => exact classify_frameHeld hh (execute_eq_next ht).2
  | isalt => exact classify_frameHeld hh (execute_eq_next ht).2
  | process cap => exact exec_process_frameHeld h hh htypes ht
  | ignore => exact Except.ok.inj (execute_eq_next ht).2 ▸ ignorePacket_frameHeld hh
  | enq bytes => exact enqueue_frameHeld hh (execute_eq_next ht).2
  | evqempty => exact Except.ok.inj (execute_eq_next ht).2 ▸ hh.returning _
  | cmdAssignEid op req => exact execute_command_frameHeld h hh (fun hok => ⟨_, assignEid_responded h hok⟩) ht
  | cmdGetEid =>
    exact execute_command_frameHeld h hh
      (fun hok => ⟨_, respond_responded_short h (by simp [getEidPayload]) hok⟩) ht
  | cmdGetVersion ty =>
    exact execute_command_frameHeld h hh
      (fun hok => ⟨_, respond_responded_short h (getVersionPayload_length ty s) hok⟩) ht
  | cmdGetTypes => exact execute_command_frameHeld h hh (fun hok => ⟨_, getTypes_responded h htypes hok⟩) ht
  | cmdUnsupported code =>
    exact execute_command_frameHeld h hh
      (fun hok => ⟨_, respond_responded_short h (by simp [unsupportedPayload]) hok⟩) ht
  | sof => exact h.rxStep_frameHeld hh (execute_eq_next ht).2
  | esc7e => exact h.rxSteps_frameHeld hh (execute_eq_next ht).2
  | esc7d => exact h.rxSteps_frameHeld hh (execute_eq_next ht).2
  | reservedHostAB a => exact absurd (.inl ⟨a, rfl⟩) (not_isReserved_of_exec_next ht)
  | reservedHostCF c => exact absurd (.inr ⟨c, rfl⟩) (not_isReserved_of_exec_next ht)

/-! ### The obligations -/

/-- Settles O26: feeding bytes is receiving them, and the received wire form is the frame. -/
theorem receivedWireFormIsTheFrame : Obligations.ReceivedWireFormIsTheFrame := by
  intro s cap frame h hfs hf hfit
  obtain ⟨u, t, hu, ht, htu⟩ := h.runInstrs_feed (by simp [hfs]) cap (wireForm frame)
  obtain ⟨ok, hok, -⟩ := h.rxSteps_wireForm hfs hf hfit
  obtain rfl := Except.ok.inj (hok.symm.trans hu)
  have hbuf : t.buf = s.buf.writeAll 0 frame := congrArg State.buf htu
  have hstored := (frameStored_writeAll h.bufWf frame).bytesAt_eq (Nat.zero_add frame.length).le
  rw [List.drop_zero, List.take_length] at hstored
  exact ⟨t, ht, hbuf ▸ hstored, congrArg State.rxIdx htu⟩

/-- Settles O55, by what a step can do: hold the state, run an instruction, or receive bytes. -/
theorem stepKeepsTheHeldFrame : Obligations.StepKeepsTheHeldFrame := by
  intro s t h hh htypes ht
  have hpending : ∀ rest, FrameHeld { s with pending := rest } := fun rest => hh.congr rfl rfl rfl rfl rfl
  rcases step_cases ht with ⟨-, rfl⟩ | ⟨w, rest, i, -, -, hexec⟩ | ⟨bytes, rest, -, -, hrx⟩
  · exact hh
  · exact exec_frameHeld (h.withPending rest) (hpending rest) htypes hexec
  · exact (h.withPending rest).rxSteps_frameHeld (hpending rest) hrx

/-- Settles O17: the framer's place fixes the offset each of the four arms stores at. -/
theorem verbatimArms : Obligations.VerbatimArms := by
  intro s b h
  have hstores := fun i => Memory.write_stores h.bufWf i b
  exact ⟨fun hfs => ⟨_, h.rxStep_hdr1 hfs b, hstores 1, rfl⟩, fun hfs => ⟨_, h.rxStep_hdr2 hfs b, hstores 2, rfl⟩,
    fun hfs => ⟨_, h.rxStep_fcs1 hfs b, hstores s.rxIdx, rfl⟩,
    fun hfs => ⟨_, h.rxStep_fcs2 hfs b, hstores s.rxIdx, rfl⟩⟩

/-- Settles O18, by the three cases of the arm. -/
theorem bodyArm : Obligations.BodyArm := by
  intro s b h hfs
  refine ⟨(h.placed_inBody (.inl hfs)).1, ?_, ?_, fun hesc hsof => ?_⟩
  · rintro rfl
    exact rxStep_escapeByte hfs
  · rintro rfl
    exact ⟨_, h.rxStep_started (.inr (.inl hfs)), Memory.write_stores h.bufWf 0 0x7E, rfl⟩
  · exact ⟨_, h.rxStep_body hfs hesc hsof, Memory.write_stores h.bufWf s.rxIdx b, rfl⟩

/-- Settles O19, by the three cases of the arm. -/
theorem escapeArm : Obligations.EscapeArm := by
  intro s b h hfs
  refine ⟨(h.placed_inBody (.inr hfs)).1, ?_, fun hb => ?_, fun hsof h5E h5D => ?_⟩
  · rintro rfl
    exact ⟨_, h.rxStep_started (.inr (.inr hfs)), Memory.write_stores h.bufWf 0 0x7E, rfl⟩
  · exact ⟨_, h.rxStep_escaped hfs hb, Memory.write_stores h.bufWf s.rxIdx (b + 0x20), rfl⟩
  · exact rxStep_escape_invalid hfs hsof (not_or.2 ⟨h5E, h5D⟩)

/-- Settles O20: the trailer is stored after the length byte, so the frame has the length that byte declares. -/
theorem endArm : Obligations.EndArm := by
  intro s b h hfs
  refine ⟨rxStep_fend_other hfs, ?_⟩
  rintro rfl
  obtain ⟨hidx, -⟩ := h.placed_fend hfs
  obtain ⟨ok, hok, hiff⟩ := h.rxStep_fend hfs
  have hlength : bodyLength (s.buf.write s.rxIdx 0x7E) = bodyLength s.buf :=
    bodyLength_write h.bufWf (by omega) _
  refine ⟨_, hok, Memory.write_stores h.bufWf _ _, rfl, ?_, fun hacc => ?_, fun hacc => ?_⟩
  · exact (congrArg (· + 1) hidx).trans (congrArg (· + 6) hlength.symm)
  · exact if_pos (hiff.2 (FrameAccepted.withFs.1 hacc))
  · exact if_neg fun hc => hacc (FrameAccepted.withFs.2 (hiff.1 hc))

/-- Settles O28: feeding bytes is receiving them, and no malformed sequence leaves a packet. -/
theorem malformedFramesGiveNoPacket : Obligations.MalformedFramesGiveNoPacket := by
  intro s cap bytes h hfs hm
  have hne : s.fs ≠ .sendingResponse := by simp [hfs]
  obtain ⟨u, t, hu, ht, htu⟩ := h.runInstrs_feed hne cap bytes
  refine ⟨t, ht, ?_, fun hact hevt => ?_⟩
  · rw [show t.fs = u.fs from (congrArg State.fs htu :)]
    exact hm.rxSteps_not_awaiting h hfs hu
  · obtain rfl := Host.Outcome.next.inj ((h.runInstrs_feed_idle hne cap hact hevt hu).symm.trans ht)
    exact rxSteps_txout hu

/-- Settles O16, by the two cases of the arm. -/
theorem waitSyncArm : Obligations.WaitSyncArm := by
  intro s b h hfs
  refine ⟨rxStep_waitSync_other hfs, ?_⟩
  rintro rfl
  exact ⟨_, h.rxStep_started (.inl hfs), Memory.write_stores h.bufWf 0 0x7E, rfl⟩

/-- Settles O21, by the two busy states. -/
theorem busyArmDiscards : Obligations.BusyArmDiscards :=
  fun _ b hfs => rxStep_busy hfs b

end Sys2Proof.Machine
end

section
/-! PROOFS. The statements of spec/42_frame_validator.md: the three checks of the validator (R160 to R163), and which
valid frames are packets (R164, R165). -/

namespace Sys2Proof.Machine

/-! ### The frame fed to the framer (R165) -/

/-- Feeding the wire form of a frame that fits leaves a packet exactly when the frame has the size, the checksum and
the destination of one. -/
theorem Inv.runInstrs_feed_wireForm {s : State} {frame : List Byte} (h : Inv s) (hfs : s.fs = .waitSync)
    (hf : IsFrame frame) (hfit : (frame.getD 2 0).toNat + 8 ≤ s.cfg.bufCap) (cap : Cap) :
    ∃ t, runInstrs (feed cap (wireForm frame)) s = .next t ∧
      (t.fs = .awaitingResponse ↔ 11 ≤ frame.length ∧ checksumRight s.cfg frame ∧
        (frame.getD 4 0 = 0x00 ∨ frame.getD 4 0 = 0xFF ∨ frame.getD 4 0 = s.eid)) := by
  obtain ⟨u, t, hu, ht, htu⟩ := h.runInstrs_feed (by simp [hfs]) cap (wireForm frame)
  obtain ⟨ok, hok, hiff⟩ := h.rxSteps_wireForm hfs hf hfit
  obtain rfl := Except.ok.inj (hok.symm.trans hu)
  have hstate : t.fs = if ok = true then .awaitingResponse else .waitSync := congrArg State.fs htu
  have hpacket : t.fs = .awaitingResponse ↔ ok = true := by
    rw [hstate]
    cases ok <;> simp
  exact ⟨t, ht, hpacket.trans hiff⟩

/-! ### The obligations -/

/-- Settles O27: of what makes a fed frame a packet, a valid frame that fits leaves only the destination open. -/
theorem admittedExactlyWhenAddressed : Obligations.AdmittedExactlyWhenAddressed := by
  intro s cap frame h hfs hf hsize hfit hck
  obtain ⟨t, ht, hiff⟩ := h.runInstrs_feed_wireForm hfs hf hfit cap
  rw [and_iff_right hsize, and_iff_right hck] at hiff
  exact ⟨t, ht, hiff⟩

/-- Settles O15: the validator answers the conjunction of its three checks. -/
theorem validatorDecidesTheThreeChecks : Obligations.ValidatorDecidesTheThreeChecks := by
  intro s n hn
  rw [valid_ok hn, Bool.decide_and, Bool.decide_and, Bool.and_assoc, Bool.beq_eq_decide_eq, bodyLength]

end Sys2Proof.Machine
end

section
/-! PROOFS. The statements of spec/43_control_commands.md: what each command row answers (R182 to R187), `PROCESS` as
the selected row and a drain step (R180, R181), responses as valid frames (R188), and the request/response
cycle (R190). -/

namespace Sys2Proof.Machine

/-! ### Assign Endpoint ID, by outcome (R183) -/

theorem assignRejected_iff {op : BitVec 4} {req : Byte} :
    assignRejected op req = true ↔ op = 0x2 ∨ op = 0x3 ∨ req = 0x00 ∨ req = 0xFF := by
  simp only [assignRejected, Bool.or_eq_true, beq_iff_eq, or_assoc]

theorem assignRejected_eq_false {op : BitVec 4} {req : Byte} (h2 : op ≠ 0x2) (h3 : op ≠ 0x3) (h0 : req ≠ 0x00)
    (hFF : req ≠ 0xFF) : assignRejected op req = false := by
  rw [← Bool.not_eq_true, assignRejected_iff]
  simp only [h2, h3, h0, hFF, or_self, not_false_eq_true]

theorem exec_cmdAssignEid_accepted {s : State} {op : BitVec 4} {req : Byte} (h : Inv s)
    (hf : s.fs = .awaitingResponse) (hr : assignRejected op req = false) :
    exec (.cmdAssignEid op req) s = .next { s with
      buf := responseWritten [0x00, 0x00, s.eid, 0x00] s, fs := .sendingResponse, eidUpd := true, eidNext := req } := by
  rw [exec_cmdAssignEid_awaiting h hf]
  simp [assignPayload, assignDeferred, hr]

theorem exec_cmdAssignEid_rejected {s : State} {op : BitVec 4} {req : Byte} (h : Inv s)
    (hf : s.fs = .awaitingResponse) (hr : assignRejected op req = true) :
    exec (.cmdAssignEid op req) s = .next { s with buf := responseWritten [0x02] s, fs := .sendingResponse } := by
  rw [exec_cmdAssignEid_awaiting h hf]
  simp [assignPayload, assignDeferred, hr]

/-! ### Get Version Support, by the type asked for (R185) -/

theorem getVersionPayload_of_some {s : State} {ty : Byte} {v : VersionTuple} (h : versionOf s.cfg ty = some v) :
    getVersionPayload ty s = [0x00, 0x01] ++ v.toList := by
  simp only [getVersionPayload, h]
  rfl

theorem getVersionPayload_of_none {s : State} {ty : Byte} (h : versionOf s.cfg ty = none) :
    getVersionPayload ty s = [0x80, 0x00] := by
  simp only [getVersionPayload, h]

theorem versionOf_control (cfg : Config) : versionOf cfg 0x00 = some cfg.verCtrl := rfl

theorem versionOf_base (cfg : Config) : versionOf cfg 0xFF = some cfg.verBase := rfl

theorem versionOf_alternate (cfg : Config) : versionOf cfg 0x01 = cfg.altVersion := rfl

theorem versionOf_other {cfg : Config} {ty : Byte} (h0 : ty ≠ 0x00) (hFF : ty ≠ 0xFF) (h1 : ty ≠ 0x01) :
    versionOf cfg ty = none := by
  simp only [versionOf, if_neg h0, if_neg hFF, if_neg h1]

theorem exec_cmdGetVersion_response {s : State} (h : Inv s) (hf : s.fs = .awaitingResponse) (ty : Byte) :
    ∃ t, exec (.cmdGetVersion ty) s = .next t ∧ t = { s with buf := t.buf, fs := .sendingResponse } ∧
      IsResponse (getVersionPayload ty s) s t :=
  ⟨_, exec_cmdGetVersion_awaiting h hf ty, rfl, responseWritten_isResponse h.bufWf rfl rfl⟩

/-! ### `PROCESS` as the selected command row and a drain step (R180, R181) -/

/-- The command row that the request in `BUF` selects: the code at offset 9, the operands at offsets 10 and 11. -/
def selectedCommand (s : State) : Instr :=
  decodeCommand s.cfg.codes (s.buf.read 9) (s.buf.read 10) (s.buf.read 11)

/-- The handler `PROCESS` dispatches to is the one of the selected command row. -/
theorem Inv.exec_selectedCommand {s : State} (h : Inv s) (hf : s.fs = .awaitingResponse) :
    exec (selectedCommand s) s = completed (dispatchCommand s) := by
  have hcap := h.caps
  have hrow := execute_whenAwaiting h.running hf
  simp only [dispatchCommand, readBuf_ok (s := s) (i := 9) (by omega), readBuf_ok (s := s) (i := 10) (by omega),
    readBuf_ok (s := s) (i := 11) (by omega), except_bind_ok]
  unfold selectedCommand decodeCommand
  split
  · exact hrow _
  split
  · exact hrow _
  split
  · exact hrow _
  split
  · exact hrow _
  · exact hrow _

/-- In `AWAITING_RESPONSE` the selected command row completes. -/
theorem Inv.exists_exec_selectedCommand {s : State} (h : Inv s) (hf : s.fs = .awaitingResponse) :
    ∃ u, exec (selectedCommand s) s = .next u ∧ Inv u := by
  obtain ⟨u, hu, hi⟩ := h.dispatch hf
  exact ⟨u, (h.exec_selectedCommand hf).trans (congrArg completed hu), hi⟩

/-- `PROCESS` answers what a drain step leaves after the selected command row. -/
theorem Inv.exec_process_of_steps {s u t : State} {cap : Cap} {n : Nat} (h : Inv s) (hf : s.fs = .awaitingResponse)
    (hu : exec (selectedCommand s) s = .next u) (ht : Machine.drainStep cap u = .ok (t, n)) :
    exec (.process cap) s = .next t := by
  obtain ⟨v, hv, -⟩ := h.dispatch hf
  rw [h.exec_selectedCommand hf, hv] at hu
  obtain rfl : v = u := Host.Outcome.next.inj hu
  refine (execute_whenAwaiting h.running hf _).trans ?_
  rw [processAwaiting, hv, except_bind_ok, Machine.drainDiscarding, ht]
  rfl

/-- Outside `AWAITING_RESPONSE` a guarded effect changes nothing (R180). -/
theorem execute_whenAwaiting_noop {s : State} (h : Running s) (hf : s.fs ≠ .awaitingResponse)
    (e : Except Fault State) : execute s (whenAwaiting s e) = .next s := by
  rw [execute_running h, whenAwaiting, if_neg hf]
  rfl

theorem exec_command_noop {s : State} {i : Instr} (h : Running s) (hf : s.fs ≠ .awaitingResponse)
    (hc : isCommand i = true) : exec i s = .next s := by
  have hnoop := execute_whenAwaiting_noop h hf
  rcases isCommand_cases hc with ⟨op, req, rfl⟩ | rfl | ⟨t, rfl⟩ | rfl | ⟨code, rfl⟩ <;> exact hnoop _

/-- In `AWAITING_RESPONSE` every command row leaves a response to be sent. -/
theorem exec_command_sending {s : State} {i : Instr} (h : Inv s) (hf : s.fs = .awaitingResponse)
    (hc : isCommand i = true) : ∃ t, exec i s = .next t ∧ t.fs = .sendingResponse := by
  rcases isCommand_cases hc with ⟨op, req, rfl⟩ | rfl | ⟨t, rfl⟩ | rfl | ⟨code, rfl⟩
  · exact ⟨_, exec_cmdAssignEid_awaiting h hf op req, rfl⟩
  · exact ⟨_, exec_cmdGetEid_awaiting h hf, rfl⟩
  · exact ⟨_, exec_cmdGetVersion_awaiting h hf t, rfl⟩
  · exact ⟨_, exec_cmdGetTypes_awaiting h hf, rfl⟩
  · exact ⟨_, exec_cmdUnsupported_awaiting h hf code, rfl⟩

/-! ### The selected row, by its code (R181, spec/00_scope.md R12) -/

theorem selectedCommand_assignEid {s : State} (hcode : s.buf.read 9 = s.cfg.codes.assignEid) :
    selectedCommand s = .cmdAssignEid ((s.buf.read 10).extractLsb' 0 4) (s.buf.read 11) := by
  simp [selectedCommand, decodeCommand, hcode]

section
variable {s : State} (hd : s.cfg.codes.distinct = true)
include hd

theorem selectedCommand_getEid (hcode : s.buf.read 9 = s.cfg.codes.getEid) : selectedCommand s = .cmdGetEid := by
  obtain ⟨hassign, -⟩ := distinct_iff.1 hd
  simp [selectedCommand, decodeCommand, hcode, hassign.symm]

theorem selectedCommand_getVersion (hcode : s.buf.read 9 = s.cfg.codes.getVersion) :
    selectedCommand s = .cmdGetVersion (s.buf.read 10) := by
  obtain ⟨-, hassign, -, heid, -⟩ := distinct_iff.1 hd
  simp [selectedCommand, decodeCommand, hcode, hassign.symm, heid.symm]

theorem selectedCommand_getTypes (hcode : s.buf.read 9 = s.cfg.codes.getTypes) :
    selectedCommand s = .cmdGetTypes := by
  obtain ⟨-, -, hassign, -, heid, hversion⟩ := distinct_iff.1 hd
  simp [selectedCommand, decodeCommand, hcode, hassign.symm, heid.symm, hversion.symm]

end

theorem selectedCommand_unsupported {s : State} (hcode : s.cfg.codes.names (s.buf.read 9) = false) :
    selectedCommand s = .cmdUnsupported (s.buf.read 9) := by
  simp only [CommandCodes.names, Bool.or_eq_false_iff, beq_eq_false_iff_ne] at hcode
  obtain ⟨⟨⟨hassign, heid⟩, hversion⟩, htypes⟩ := hcode
  simp only [selectedCommand, decodeCommand, if_neg hassign, if_neg heid, if_neg hversion, if_neg htypes]

/-! ### A response sent whole (spec/44_transmitter.md R210, R218) -/

/-- With unlimited capacity the primary slot sends the rest of its frame and completes. -/
theorem drainPrimary_inf {s : State} (h : SlotSends s.buf s.ps) (hb : bodyLength s.buf + 6 ≤ s.cfg.bufCap) :
    ∃ n, drainPrimary .inf s = .ok (completePrimary { s with txout := s.txout ++ wireRest s.buf s.ps }, n) := by
  obtain ⟨r, hr, hok⟩ := drainPrimary_ok (cap := .inf) h hb
  have hbytes : r.bytes = wireRest s.buf s.ps := hr.bytes
  have hdone : r.done = true := hr.done.2 (List.self_eq_append_right.1 (hbytes ▸ hr.rest))
  refine ⟨r.bytes.length, hok.trans ?_⟩
  rw [if_pos hdone, hbytes]
  simp only [completePrimary_eq]

/-- With nothing else to send, a drain step with unlimited capacity sends the whole response. -/
theorem Inv.drainStep_response {s : State} (h : Inv s) (hfs : s.fs = .sendingResponse) (hact : s.act = .none)
    (hevt : s.evtPend = false) : ∃ n, Machine.drainStep .inf s = .ok (completePrimary { s with
      txout := s.txout ++ wireForm (bytesAt s.buf 0 (bodyLength s.buf + 6)) }, n) := by
  have hcap := h.caps
  have hfits : bodyLength s.buf + 6 ≤ s.cfg.bufCap := by simpa [FramerPlaced, hfs] using h.placed
  have hselect : Machine.selectSlot s =
      .ok { s with act := .primary, ps := Slot.activated (s.buf.read 2) } := by
    simp [Machine.selectSlot, hevt, hfs, activatePrimary, readBuf_ok (s := s) (i := 2) (by omega)]
  obtain ⟨n, hn⟩ := drainPrimary_inf (s := { s with act := .primary, ps := Slot.activated (s.buf.read 2) })
    (SlotSends.activated s.buf) hfits
  refine ⟨n, ?_⟩
  rw [Machine.drainStep, if_pos hact, hselect, except_bind_ok, Machine.drainActive, hn, wireRest_activated,
    wireFrom_frame]
  simp only [completePrimary_eq]

/-- The length byte of a response counts its body, when a byte can (R182). -/
theorem bodyLength_responseWritten {s : State} {payload : List Byte} (hw : s.buf.wf = true)
    (hshort : payload.length + 7 ≤ 255) : bodyLength (responseWritten payload s) = payload.length + 7 :=
  (responseWritten_isResponse (t := { s with buf := responseWritten payload s }) hw rfl rfl).lengthByte hshort

/-- With nothing else to send, `PROCESS` with unlimited capacity sends the whole response of the selected row, and the
completion installs the address the row holds, if any (R180, R218). -/
theorem Inv.exec_process_sendsResponse {s : State} {payload : List Byte} {upd : Bool} {next : Byte} (h : Inv s)
    (hf : s.fs = .awaitingResponse) (hact : s.act = .none) (hevt : s.evtPend = false)
    (hshort : payload.length + 7 ≤ 255)
    (hrow : exec (selectedCommand s) s = .next { s with
      buf := responseWritten payload s, fs := .sendingResponse, eidUpd := upd, eidNext := next }) :
    ∃ t, exec (.process .inf) s = .next t ∧ IsResponse payload s t ∧ t = { s with
      buf := t.buf, fs := .waitSync, eid := if upd then next else s.eid, eidNext := if upd then 0x00 else next
      txout := s.txout ++ wireForm (bytesAt t.buf 0 (13 + payload.length)) } := by
  have hlength := bodyLength_responseWritten h.bufWf hshort
  obtain ⟨n, hn⟩ := (exec_keeps_inv h hrow).drainStep_response rfl hact hevt
  refine ⟨_, h.exec_process_of_steps hf hrow hn, responseWritten_isResponse h.bufWf ?_ ?_, ?_⟩
  · exact completePrimary_buf _
  · exact completePrimary_cfg _
  · have hupd : s.eidUpd = false := h.eidUpd_eq_false (by simp [hf])
    have hps : s.ps = Slot.zero := h.idlePrimary (by simp [hact])
    simp [completePrimary_eq, hlength, hact, hps, hupd, show payload.length + 7 + 6 = 13 + payload.length by omega]

theorem Inv.exec_process_getEid {s : State} (h : Inv s) (hf : s.fs = .awaitingResponse) (hact : s.act = .none)
    (hevt : s.evtPend = false) (hcode : s.buf.read 9 = s.cfg.codes.getEid) :
    ∃ t, exec (.process .inf) s = .next t ∧ IsResponse [0x00, s.eid, 0x00] s t ∧ t = { s with
      buf := t.buf, fs := .waitSync, txout := s.txout ++ wireForm (bytesAt t.buf 0 16) } := by
  obtain ⟨-, -, -, hd, -⟩ := admitted_bounds h.running.admitted
  have hrow := exec_cmdGetEid_awaiting h hf
  rw [← selectedCommand_getEid hd hcode] at hrow
  obtain ⟨t, ht, hresponse, hstate⟩ := h.exec_process_sendsResponse hf hact hevt (by simp [getEidPayload]) hrow
  have hupd : ¬ s.eidUpd = true := by simp [h.eidUpd_eq_false (s := s) (by simp [hf])]
  rw [if_neg hupd, if_neg hupd] at hstate
  exact ⟨t, ht, hresponse, hstate⟩

/-! ### A response as the frame it is (R182, R188) -/

/-- A response up to its payload. -/
theorem IsResponse.bytesAt_payload {payload : List Byte} {s t : State} (h : IsResponse payload s t) :
    bytesAt t.buf 0 (10 + payload.length) = [s.buf.read 0, s.buf.read 1, t.buf.read 2, s.buf.read 3,
      s.buf.read 5, s.buf.read 4, (s.buf.read 6 ^^^ 0x08) ||| 0xC0, s.buf.read 7, s.buf.read 8 &&& 0x7F,
      s.buf.read 9] ++ payload := by
  obtain ⟨h0, h1, h3, h7, h9⟩ := h.header
  rw [bytesAt_add, h.payloadBytes, ← h0, ← h1, ← h3, ← h.destination, ← h.source, ← h.flags, ← h7, ← h.instanceId,
    ← h9]
  rfl

theorem frameStored_bytesAt (m : Memory) (n : Nat) : FrameStored (bytesAt m 0 n) m := by
  intro a ha
  rw [bytesAt_length] at ha
  rw [bytesAt_getD ha, Nat.zero_add]

/-- The checksum bytes of a response are those of its own bytes. -/
theorem IsResponse.checksumRight {payload : List Byte} {s t : State} (h : IsResponse payload s t) :
    Machine.checksumRight t.cfg (bytesAt t.buf 0 (13 + payload.length)) := by
  unfold Machine.checksumRight
  rw [bytesAt_length, show 13 + payload.length - 3 = 10 + payload.length by omega,
    show 13 + payload.length - 2 = 11 + payload.length by omega,
    show 13 + payload.length - 4 = 9 + payload.length by omega, bytesAt_getD (by omega), bytesAt_getD (by omega),
    ← (frameStored_bytesAt t.buf _).bytesAt_eq (by rw [bytesAt_length]; omega), Nat.zero_add, Nat.zero_add]
  exact h.checksum

/-! ### Runs of operations -/

theorem runInstrs_append_of_next {xs ys : List Instr} {s t : State} (h : runInstrs xs s = .next t) :
    runInstrs (xs ++ ys) s = runInstrs ys t := by
  induction xs generalizing s with
  | nil => exact congrArg _ (Host.Outcome.next.inj h)
  | cons i is ih =>
    rw [List.cons_append, runInstrs]
    rw [runInstrs] at h
    cases hi : exec i s <;> rw [hi] at h
    case next u => exact ih h
    case fault f => cases h
    case refused r => cases h

/-- With nothing to send, feeding the wire form of a valid frame to this endpoint leaves the frame as a packet. -/
theorem Inv.runInstrs_feed_packet {s : State} {frame : List Byte} (h : Inv s) (hfs : s.fs = .waitSync)
    (hact : s.act = .none) (hevt : s.evtPend = false) (hf : IsFrame frame) (hsize : 11 ≤ frame.length)
    (hfit : (frame.getD 2 0).toNat + 8 ≤ s.cfg.bufCap) (hck : Machine.checksumRight s.cfg frame)
    (haddr : frame.getD 4 0 = 0x00 ∨ frame.getD 4 0 = 0xFF ∨ frame.getD 4 0 = s.eid) (cap : Cap) :
    runInstrs (feed cap (wireForm frame)) s = .next (holding frame 0 .awaitingResponse s) ∧
      Inv (holding frame 0 .awaitingResponse s) := by
  obtain ⟨ok, hok, hiff⟩ := h.rxSteps_wireForm hfs hf hfit
  rw [if_pos (hiff.2 ⟨hsize, hck, haddr⟩)] at hok
  exact ⟨h.runInstrs_feed_idle (by simp [hfs]) cap hact hevt hok, h.of_rxSteps hok⟩

/-! ### The obligations -/

/-- Settles O29, by the accepted outcome of the handler. -/
theorem assignAccepted : Obligations.AssignAccepted :=
  fun _ _ _ h hf h2 h3 h0 hFF =>
    ⟨_, exec_cmdAssignEid_accepted h hf (assignRejected_eq_false h2 h3 h0 hFF),
      responseWritten_isResponse h.bufWf rfl rfl, rfl⟩

/-- Settles O30, by the rejected outcome of the handler. (The model has a function `assignRejected`.) -/
theorem assignEidRejected : Obligations.AssignRejected :=
  fun _ _ _ h hf hr =>
    ⟨_, exec_cmdAssignEid_rejected h hf (assignRejected_iff.2 hr), responseWritten_isResponse h.bufWf rfl rfl, rfl⟩

/-- Settles O31, by what the handler writes. -/
theorem getEidAnswersTheAddress : Obligations.GetEidAnswersTheAddress :=
  fun _ h hf => ⟨_, exec_cmdGetEid_awaiting h hf, responseWritten_isResponse h.bufWf rfl rfl, rfl⟩

/-- Settles O32, by the tuple of each type. -/
theorem getVersionAnswersTheTuple : Obligations.GetVersionAnswersTheTuple := by
  intro s ty h hf
  obtain ⟨t, ht, hframe, hresponse⟩ := exec_cmdGetVersion_response h hf ty
  have hsome : ∀ v, versionOf s.cfg ty = some v → IsResponse ([0x00, 0x01] ++ v.toList) s t :=
    fun v hv => getVersionPayload_of_some hv ▸ hresponse
  have hnone : versionOf s.cfg ty = none → IsResponse [0x80, 0x00] s t :=
    fun hv => getVersionPayload_of_none hv ▸ hresponse
  exact ⟨t, ht, hframe, fun hty => hsome _ (hty ▸ versionOf_control s.cfg),
    fun hty => hsome _ (hty ▸ versionOf_base s.cfg),
    fun v hty hv => hsome v (hty ▸ (versionOf_alternate s.cfg).trans hv),
    fun hty hv => hnone (hty ▸ (versionOf_alternate s.cfg).trans hv),
    fun h0 hFF h1 => hnone (versionOf_other h0 hFF h1)⟩

/-- Settles O33: up to 246 types the body length fits a byte, and no free value is drawn. -/
theorem getTypesAnswersTheList : Obligations.GetTypesAnswersTheList :=
  fun _ h hf =>
    ⟨_, exec_cmdGetTypes_awaiting h hf, responseWritten_isResponse h.bufWf rfl rfl, rfl,
      fun _ => if_pos (by omega)⟩

/-- Settles O34, by what the default handler writes. -/
theorem unsupportedCommandIsAnswered : Obligations.UnsupportedCommandIsAnswered :=
  fun _ code h hf =>
    ⟨_, exec_cmdUnsupported_awaiting h hf code, responseWritten_isResponse h.bufWf rfl rfl, rfl⟩

/-- Settles O35, with the row that decoding the request's bytes gives. -/
theorem processRunsTheSelectedHandlerThenDrains : Obligations.ProcessRunsTheSelectedHandlerThenDrains := by
  intro s cap h
  refine ⟨fun hf => ?_, fun hf => ⟨execute_whenAwaiting_noop h.running hf _, fun i => exec_command_noop h.running hf⟩⟩
  obtain ⟨-, -, -, hd, -⟩ := admitted_bounds h.running.admitted
  obtain ⟨u, hu, hi⟩ := h.exists_exec_selectedCommand hf
  obtain ⟨t, n, ht, -⟩ := hi.drainStep cap
  exact ⟨selectedCommand s, u, t, n, selectedCommand_assignEid, selectedCommand_getEid hd,
    selectedCommand_getVersion hd, selectedCommand_getTypes hd, selectedCommand_unsupported, hu, ht,
    (drainStep_wrote ht).buf, h.exec_process_of_steps hf hu ht⟩

/-- Settles O36: every instruction keeps what `BUF` holds, and a command row leaves a response there. -/
theorem responsePassesTheValidator : Obligations.ResponsePassesTheValidator := by
  intro s i h hh hf hc htypes
  obtain ⟨t, ht, hfs⟩ := exec_command_sending h hf hc
  have hheld := exec_frameHeld h hh htypes ht
  exact ⟨t, ht, hfs, hheld.sof (by simp [hfs]), hheld.response hfs⟩

/-- Settles O38: the whole response is sent by the drain step of `PROCESS`, and its completion commits the address. -/
theorem assignmentTakesEffectAfterItsResponse : Obligations.AssignmentTakesEffectAfterItsResponse := by
  intro s h hf hact hevt hcode h2 h3 h0 hFF
  have hrow := exec_cmdAssignEid_accepted h hf (assignRejected_eq_false h2 h3 h0 hFF)
  rw [← selectedCommand_assignEid hcode] at hrow
  exact h.exec_process_sendsResponse hf hact hevt (by simp) hrow

/-- Settles O39: the request is received as a packet, and `PROCESS` sends the response to it whole. -/
theorem addressRequestIsAnswered : Obligations.AddressRequestIsAnswered := by
  intro s frame h hfs hact hevt hf hsize hfit hck haddr hcode
  obtain ⟨hfeed, hi⟩ := h.runInstrs_feed_packet hfs hact hevt hf (by omega) hfit hck haddr (.fin 0)
  have hread : ∀ a, a < frame.length → (holding frame 0 .awaitingResponse s).buf.read a = frame.getD a 0 :=
    frameStored_writeAll h.bufWf frame
  have hsof : frame.getD 0 0 = 0x7E := hf.sof
  obtain ⟨t, ht, hresponse, hstate⟩ := hi.exec_process_getEid rfl hact hevt ((hread 9 (by omega)).trans hcode)
  have hcfg : t.cfg = s.cfg := (congrArg State.cfg hstate :)
  have hlength : t.buf.read 2 = 0x0A := BitVec.eq_of_toNat_eq (hresponse.lengthByte (by simp))
  refine ⟨t, ?_, (congrArg State.fs hstate :), (congrArg State.act hstate :).trans hact, (congrArg State.eid hstate :),
    hresponse.bytesAt_payload.trans ?_, hcfg ▸ hresponse.checksumRight, (congrArg State.txout hstate :)⟩
  · rw [runInstrs_append_of_next hfeed, runInstrs, ht]
    rfl
  · rw [hlength, hread 0 (by omega), hread 1 (by omega), hread 3 (by omega), hread 4 (by omega), hread 5 (by omega),
      hread 6 (by omega), hread 7 (by omega), hread 8 (by omega), hread 9 (by omega), hsof]
    rfl

end Sys2Proof.Machine
end

section
/-! PROOFS. The statements of spec/44_transmitter.md: the selection of a slot (R211 to R213), the bytes a drain sends
(R210, R214 to R217, R220), the completions (R218, R219), one frame at a time in any mix of operations (R223 to R225),
and the event slot with the queries (R221, R222). -/

namespace Sys2Proof.Machine

/-! ### The active slot, whichever it is -/

/-- The bytes the active slot reads from its buffer. -/
def readActive (s : State) : Nat → Except Fault Byte :=
  match s.act with
  | .none => fun _ => .error .bufferBounds
  | .primary => readBuf s
  | .event => readEbuf s

/-- The completion of the active slot's frame (R218, R219). -/
def completeActive (s : State) : State :=
  match s.act with
  | .none => s
  | .primary => completePrimary s
  | .event => completeEvent s

/-- What the sending loop leaves, written to the active slot and to `TXOUT`. -/
def afterLoop (r : Sent) (s : State) : State :=
  { withActiveSlot r.slot s with txout := s.txout ++ r.bytes }

/-- `s` once the active slot has sent all it has to send. -/
def finished (s : State) : State := completeActive { s with txout := s.txout ++ activeWire s }

@[simp] theorem withActiveSlot_act (slot : Slot) (s : State) : (withActiveSlot slot s).act = s.act := by
  cases h : s.act <;> simp [withActiveSlot, h]

@[simp] theorem withActiveSlot_results (slot : Slot) (s : State) : (withActiveSlot slot s).results = s.results := by
  cases h : s.act <;> simp [withActiveSlot, h]

@[simp] theorem completeActive_act (s : State) : (completeActive s).act = .none := by
  cases h : s.act <;> simp [completeActive, h]

@[simp] theorem completeActive_txout (s : State) : (completeActive s).txout = s.txout := by
  cases h : s.act <;> simp [completeActive, h]

@[simp] theorem completeActive_results (s : State) : (completeActive s).results = s.results := by
  cases h : s.act <;> simp [completeActive, h]

@[simp] theorem finished_act (s : State) : (finished s).act = .none := completeActive_act _

@[simp] theorem finished_txout (s : State) : (finished s).txout = s.txout ++ activeWire s := completeActive_txout _

@[simp] theorem finished_results (s : State) : (finished s).results = s.results := completeActive_results _

/-- An inactive slot has nothing to send, so the two cases of `activeWire` are one formula. -/
theorem activeWire_eq (s : State) : activeWire s = wireRest (activeBuffer s) (activeSlot s) := by
  cases h : s.act <;> simp only [activeWire, activeBuffer, activeSlot, h]
  rfl

theorem activeWire_none {s : State} (h : s.act = .none) : activeWire s = [] := by simp [activeWire, h]

theorem finished_of_none {s : State} (h : s.act = .none) : finished s = s := by
  rw [finished, activeWire_none h, List.append_nil]
  simp only [completeActive, h]
  rw [← h]

/-- Completion does not look at the results. -/
theorem finished_withResults (s : State) (results : List Result) :
    finished { s with results := results } = { finished s with results := results } := by
  cases h : s.act <;> simp [finished, completeActive, activeWire, completePrimary_eq, completeEvent, h]

/-! ### The drain step of an active slot (R210) -/

/-- With a slot active, a drain step is the sending loop on it. -/
theorem drainStep_of_loop {s : State} {cap : Cap} {r : Sent} (ha : s.act ≠ .none)
    (hr : sendLoop (readActive s) (remaining (activeSlot s)) (activeSlot s) cap = .ok r) :
    drainStep cap s =
      .ok (if r.done = true then completeActive (afterLoop r s) else afterLoop r s, r.bytes.length) := by
  cases hact : s.act with
  | none => exact absurd hact ha
  | primary =>
    simp only [readActive, activeSlot, hact] at hr
    simp [drainStep, drainActive, drainPrimary, completeActive, afterLoop, withActiveSlot, hact, hr]
  | event =>
    simp only [readActive, activeSlot, hact] at hr
    simp [drainStep, drainActive, drainEvent, completeActive, afterLoop, withActiveSlot, hact, hr]

section
variable {s : State} (h : Inv s) (ha : s.act ≠ .none)
include h ha

/-- The active slot is inside its frame (R42). -/
theorem Inv.activeSends : SlotSends (activeBuffer s) (activeSlot s) := by
  cases hact : s.act <;> simp only [activeBuffer, activeSlot, hact]
  case none => exact absurd hact ha
  case primary => exact h.primarySlot hact
  case event => exact h.eventSlot hact

/-- The frame of the active slot is inside its buffer. -/
theorem Inv.readActive_ok {i : Nat} (hi : i < (activeSlot s).len.toNat) :
    readActive s i = .ok ((activeBuffer s).read i) := by
  rw [(h.activeSends ha).len, slotLength_toNat] at hi
  cases hact : s.act <;> simp only [activeBuffer, readActive, hact] at hi ⊢
  case none => exact absurd hact ha
  case primary =>
    have hfits : bodyLength s.buf + 6 ≤ s.cfg.bufCap := by
      simpa [FramerPlaced, h.primarySending hact] using h.placed
    exact readBuf_ok (hi.trans_le hfits)
  case event => exact readEbuf_ok (hi.trans_le (h.eventFits (h.eventPending hact)))

/-- What the sending loop does on the active slot. -/
theorem Inv.sendLoop_active (cap : Cap) :
    ∃ r, sendLoop (readActive s) (remaining (activeSlot s)) (activeSlot s) cap = .ok r ∧
      LoopSent (activeBuffer s) (activeSlot s) cap r :=
  sendLoop_sent (fun _ hi => h.readActive_ok ha hi) cap (h.activeSends ha) le_rfl rfl

end

/-- The registers the sending loop leaves are those of the active slot. -/
theorem afterLoop_activeSlot {s : State} (ha : s.act ≠ .none) (r : Sent) : activeSlot (afterLoop r s) = r.slot := by
  cases hact : s.act with
  | none => exact absurd hact ha
  | primary => simp [activeSlot, afterLoop, withActiveSlot, hact]
  | event => simp [activeSlot, afterLoop, withActiveSlot, hact]

theorem afterLoop_activeWire {s : State} (ha : s.act ≠ .none) (r : Sent) :
    activeWire (afterLoop r s) = wireRest (activeBuffer s) r.slot := by
  cases hact : s.act with
  | none => exact absurd hact ha
  | primary => simp [activeWire, afterLoop, withActiveSlot, activeBuffer, hact]
  | event => simp [activeWire, afterLoop, withActiveSlot, activeBuffer, hact]

theorem completeActive_afterLoop (r : Sent) (s : State) :
    completeActive (afterLoop r s) = completeActive { s with txout := s.txout ++ r.bytes } := by
  cases hact : s.act <;> simp [completeActive, afterLoop, withActiveSlot, completePrimary_eq, completeEvent, hact]

section
variable {s : State} {cap : Cap} {r : Sent} (hs : LoopSent (activeBuffer s) (activeSlot s) cap r)
include hs

theorem LoopSent.bytes_active : r.bytes = takeCap cap (activeWire s) := activeWire_eq s ▸ hs.bytes

/-- The frame is complete exactly when the capacity lets the rest of it through. -/
theorem LoopSent.done_iff : r.done = true ↔ takeCap cap (activeWire s) = activeWire s := by
  rw [hs.done, ← hs.bytes_active, activeWire_eq, hs.rest, List.self_eq_append_right]

theorem LoopSent.completes (hd : r.done = true) : completeActive (afterLoop r s) = finished s := by
  rw [completeActive_afterLoop, finished, hs.bytes_active, hs.done_iff.1 hd]

/-- The loop leaves what the slot comes to in the end as it is. -/
theorem LoopSent.finished_afterLoop (ha : s.act ≠ .none) : finished (afterLoop r s) = finished s := by
  have hall := completeActive_afterLoop ⟨r.slot, r.bytes ++ wireRest (activeBuffer s) r.slot, r.done⟩ s
  rw [finished, finished, afterLoop_activeWire ha, activeWire_eq, hs.rest, ← hall]
  simp only [afterLoop, List.append_assoc]

end

/-- A drain step with room for all the active slot has to send completes it (R217). -/
theorem Inv.drainStep_all {s : State} {cap : Cap} (h : Inv s) (ha : s.act ≠ .none)
    (hall : takeCap cap (activeWire s) = activeWire s) :
    Machine.drainStep cap s = .ok (finished s, (activeWire s).length) := by
  obtain ⟨r, hr, hs⟩ := h.sendLoop_active ha cap
  have hd := hs.done_iff.2 hall
  rw [drainStep_of_loop ha hr, if_pos hd, hs.completes hd, hs.bytes_active, hall]

/-- A drain step of an active slot sends on or completes it, and does not change what it comes to in the end. -/
theorem Inv.drainStep_finished {s t : State} {cap : Cap} {n : Nat} (h : Inv s) (ha : s.act ≠ .none)
    (ht : Machine.drainStep cap s = .ok (t, n)) : finished t = finished s ∧ (t.act = s.act ∨ t.act = .none) := by
  obtain ⟨r, hr, hs⟩ := h.sendLoop_active ha cap
  rw [drainStep_of_loop ha hr] at ht
  obtain ⟨rfl, -⟩ := Prod.mk.inj (Except.ok.inj ht)
  by_cases hd : r.done = true
  · rw [if_pos hd, hs.completes hd]
    exact ⟨finished_of_none (finished_act s), .inr (finished_act s)⟩
  · rw [if_neg hd]
    exact ⟨hs.finished_afterLoop ha, .inl (withActiveSlot_act _ _)⟩

/-! ### `DRAIN` -/

theorem exec_drain_of_step {s t : State} {cap : Cap} {n : Nat} (hr : Running s) (ht : drainStep cap s = .ok (t, n)) :
    exec (.drain cap) s = .next (returning (.nat n) t) := by
  refine (execute_running hr _).trans ?_
  rw [drainReturning, ht]
  rfl

/-- `DRAIN` of two states that the guard admits and whose drain steps agree. -/
theorem exec_drain_congr {s t : State} {cap : Cap} (hs : Running s) (ht : Running t)
    (h : drainStep cap s = drainStep cap t) : exec (.drain cap) s = exec (.drain cap) t := by
  refine (execute_running hs _).trans (Eq.trans ?_ (execute_running ht _).symm)
  rw [drainReturning, drainReturning, h]

/-- With a selected slot, the drain step is that of the state selection leaves (R211). -/
theorem drainStep_of_select {s t : State} (cap : Cap) (ha : s.act = .none) (ht : selectSlot s = .ok t)
    (hat : t.act ≠ .none) : drainStep cap s = drainStep cap t := by
  rw [drainStep, if_pos ha, ht, except_bind_ok, drainStep, if_neg hat]

theorem Inv.selectSlot_event {s : State} (h : Inv s) (hon : s.cfg.eventEnabled = true) (hp : s.evtPend = true) :
    Machine.selectSlot s = .ok { s with act := .event, es := Slot.activated (s.ebuf.read 2) } := by
  have hfits := h.eventFits hp
  simp [Machine.selectSlot, activateEvent, readEbuf_ok (s := s) (i := 2) (by omega), hon, hp]

theorem Inv.selectSlot_primary {s : State} (h : Inv s) (hp : s.evtPend = false) (hf : s.fs = .sendingResponse) :
    Machine.selectSlot s = .ok { s with act := .primary, ps := Slot.activated (s.buf.read 2) } := by
  have hcap := h.caps
  simp [Machine.selectSlot, activatePrimary, readBuf_ok (s := s) (i := 2) (by omega), hp, hf]

/-- With the feature off no event is pending (spec/10_state.md R43). -/
theorem Inv.evtPend_eq_false {s : State} (h : Inv s) (hn : ¬ (s.cfg.eventEnabled = true ∧ s.evtPend = true)) :
    s.evtPend = false := by
  cases hon : s.cfg.eventEnabled with
  | false => exact h.featureOff hon
  | true => exact Bool.eq_false_of_not_eq_true fun hp => hn ⟨hon, hp⟩

theorem Inv.exec_drain_all {s : State} {cap : Cap} (h : Inv s) (ha : s.act ≠ .none)
    (hall : takeCap cap (activeWire s) = activeWire s) :
    exec (.drain cap) s = .next (Machine.returning (.nat (activeWire s).length) (finished s)) :=
  exec_drain_of_step h.running (h.drainStep_all ha hall)

/-- A `DRAIN` whose loop stops before the end of the frame. -/
theorem exec_drain_of_loop {s : State} {cap : Cap} {slot : Slot} {bytes : List Byte} (hr : Running s)
    (ha : s.act ≠ .none)
    (hloop : sendLoop (readActive s) (remaining (activeSlot s)) (activeSlot s) cap = .ok ⟨slot, bytes, false⟩) :
    exec (.drain cap) s = .next { withActiveSlot slot s with
      txout := s.txout ++ bytes, results := s.results ++ [.nat bytes.length] } := by
  rw [exec_drain_of_step hr (drainStep_of_loop ha hloop), if_neg Bool.false_ne_true, returning, afterLoop]
  simp only [withActiveSlot_results]

/-! ### One byte of the sending loop (R214 to R216) -/

section
variable {rd : Nat → Except Fault Byte} {n : Nat} {slot : Slot}

theorem sendLoop_continuation (he : slot.escp = true) :
    sendLoop rd (n + 2) slot (.fin 1) = .ok ⟨slot.continued, [slot.pend], false⟩ := by
  simp [sendLoop, canWrite, roomAfterEmit, he, Sent.after]

variable {b l : Byte} (he : slot.escp = false) (hb : rd slot.idx.toNat = .ok b) (hl : rd 2 = .ok l)
include he hb hl

theorem sendLoop_raw (hst : isStuffed slot.idx.toNat l b = false) :
    sendLoop rd (n + 2) slot (.fin 1) = .ok ⟨slot.advance, [b], false⟩ := by
  simp [sendLoop, canWrite, roomAfterEmit, he, hb, hl, hst, Sent.after]

theorem sendLoop_cutOff (hst : isStuffed slot.idx.toNat l b = true) :
    sendLoop rd (n + 1) slot (.fin 1) = .ok ⟨slot.cutOff b, [0x7D], false⟩ := by
  simp [sendLoop, canWrite, roomAfterEmit, he, hb, hl, hst]

theorem sendLoop_escaped (hst : isStuffed slot.idx.toNat l b = true) :
    sendLoop rd (n + 2) slot (.fin 2) = .ok ⟨slot.advance, [0x7D, escapeCode b], false⟩ := by
  simp [sendLoop, canWrite, roomAfterEmit, he, hb, hl, hst, Sent.after]

end

theorem isStuffed_iff {i : Nat} {l b : Byte} :
    isStuffed i l b = true ↔ 3 ≤ i ∧ i < l.toNat + 3 ∧ (b = 0x7E ∨ b = 0x7D) := by
  simp [isStuffed, inWindow, isSpecial, and_assoc]

theorem isStuffed_eq_false_iff {i : Nat} {l b : Byte} :
    isStuffed i l b = false ↔ i < 3 ∨ l.toNat + 3 ≤ i ∨ (b ≠ 0x7E ∧ b ≠ 0x7D) := by
  rw [← Bool.not_eq_true, isStuffed_iff, not_and_or, not_and_or, not_le, not_lt, not_or]

/-! ### A transmission under the operations (R223, R224) -/

/-- Between `s` and `t` nothing of the transmission changed. -/
structure SameTransmission (s t : State) : Prop where
  act : t.act = s.act
  txout : t.txout = s.txout
  wire : activeWire t = activeWire s

theorem SameTransmission.refl (s : State) : SameTransmission s s := ⟨rfl, rfl, rfl⟩

/-- The active slot's registers and its own buffer are all a transmission depends on. -/
theorem SameTransmission.of {s t : State} (hact : t.act = s.act) (htxout : t.txout = s.txout) (hps : t.ps = s.ps)
    (hes : t.es = s.es) (hbuf : s.act = .primary → t.buf = s.buf) (hebuf : s.act = .event → t.ebuf = s.ebuf) :
    SameTransmission s t := by
  refine ⟨hact, htxout, ?_⟩
  unfold activeWire
  rw [hact]
  cases ha : s.act with
  | none => rfl
  | primary => simp only [hps, hbuf ha]
  | event => simp only [hes, hebuf ha]

/-- A response is being sent while the primary slot is active, so received bytes are discarded (R140). -/
theorem Inv.rxSteps_sameTransmission {s t : State} {bytes : List Byte} (h : Inv s)
    (ht : Machine.rxSteps bytes s = .ok t) : SameTransmission s t := by
  have hbuf : s.act = .primary → t.buf = s.buf := fun ha => congrArg State.buf
    (Except.ok.inj (ht.symm.trans (rxSteps_busy (.inr (h.primarySending ha)) bytes)))
  have hrest := rxSteps_rest ht
  exact .of (congrArg State.act hrest :) (congrArg State.txout hrest :) (congrArg State.ps hrest :)
    (congrArg State.es hrest :) hbuf fun _ => (congrArg State.ebuf hrest :)

/-- A handler runs while no response is being sent. -/
theorem Inv.response_sameTransmission {s t : State} (h : Inv s) (hf : s.fs = .awaitingResponse)
    (hw : ResponseWrote s t) : SameTransmission s t :=
  .of (congrArg State.act hw :) hw.txout (congrArg State.ps hw :) (congrArg State.es hw :)
    (fun ha => absurd ((h.primarySending ha).symm.trans hf) nofun) fun _ => hw.ebuf

theorem Inv.whenAwaiting_sameTransmission {s t : State} {e : Except Fault State} (h : Inv s)
    (he : e = .ok t → ResponseWrote s t) (ht : whenAwaiting s e = .ok t) : SameTransmission s t := by
  rcases whenAwaiting_cases ht with rfl | ⟨hf, hok⟩
  · exact .refl t
  · exact h.response_sameTransmission hf (he hok)

/-- The event slot is occupied while it is active, so `ENQ` writes nothing to its buffer (R221). -/
theorem Inv.enqueue_sameTransmission {s t : State} {bytes : List Byte} (h : Inv s) (ht : enqueue bytes s = .ok t) :
    SameTransmission s t := by
  obtain ⟨hrest, hfree⟩ := enqueue_wrote ht
  exact .of (congrArg State.act hrest :) (congrArg State.txout hrest :) (congrArg State.ps hrest :)
    (congrArg State.es hrest :) (fun _ => (congrArg State.buf hrest :))
    fun ha => hfree.resolve_right (by simp [h.eventPending ha])

theorem classify_sameTransmission {s t : State} {isType : Byte → Bool} (ht : classify isType s = .ok t) :
    SameTransmission s t := by
  obtain ⟨r, rfl⟩ := classify_eq_ok ht
  exact ⟨rfl, rfl, rfl⟩

theorem ignorePacket_sameTransmission (s : State) : SameTransmission s (ignorePacket s) := by
  unfold ignorePacket
  split <;> exact ⟨rfl, rfl, rfl⟩

/-- What an operation does to a transmission: nothing, or one drain step after a part that does nothing to it. -/
inductive TransmissionStep (s t : State) : Prop
  | kept (same : SameTransmission s t)
  | drained {u v : State} {cap : Cap} {n : Nat} (before : SameTransmission s u) (inv : Inv u)
      (drain : drainStep cap u = .ok (v, n)) (after : SameTransmission v t)

theorem Inv.update_transmission {s t : State} {rx : Option Byte} {cap : Cap} (h : Inv s)
    (ht : updateEffect rx cap s = .ok t) : TransmissionStep s t := by
  obtain ⟨u, hu, ht⟩ := except_bind_eq_ok.1 ht
  obtain ⟨⟨v, n⟩, hv, ht⟩ := except_bind_eq_ok.1 ht
  obtain rfl := Except.ok.inj ht
  rw [receive_eq_rxSteps] at hu
  exact .drained (h.rxSteps_sameTransmission hu) (h.of_rxSteps hu) hv (.refl v)

theorem Inv.drain_transmission {s t : State} {cap : Cap} (h : Inv s) (ht : Machine.drainReturning cap s = .ok t) :
    TransmissionStep s t := by
  obtain ⟨⟨v, n⟩, hv, ht⟩ := except_bind_eq_ok.1 ht
  obtain rfl := Except.ok.inj ht
  exact .drained (.refl s) h hv ⟨rfl, rfl, rfl⟩

theorem Inv.process_transmission {s t : State} {cap : Cap} (h : Inv s)
    (ht : whenAwaiting s (processAwaiting cap s) = .ok t) : TransmissionStep s t := by
  rcases whenAwaiting_cases ht with rfl | ⟨hf, ht⟩
  · exact .kept (.refl t)
  obtain ⟨u, hu, ht⟩ := except_bind_eq_ok.1 ht
  obtain ⟨⟨v, n⟩, hv, ht⟩ := except_bind_eq_ok.1 ht
  obtain rfl := Except.ok.inj ht
  obtain ⟨w, hw, hi⟩ := h.dispatch hf
  obtain rfl := Except.ok.inj (hw.symm.trans hu)
  exact .drained (h.response_sameTransmission hf (dispatchCommand_wrote hu)) hi hv (.refl v)

/-- What each operation but `INIT` does to a transmission. -/
theorem Inv.exec_transmission {i : Instr} {s t : State} (h : Inv s) (hi : i ≠ .init) (ht : exec i s = .next t) :
    TransmissionStep s t := by
  cases i with
  | init => exact absurd rfl hi
  | update rx cap => exact h.update_transmission (execute_eq_next ht).2
  | drain cap => exact h.drain_transmission (execute_eq_next ht).2
  | pktavail => exact Except.ok.inj (execute_eq_next ht).2 ▸ .kept ⟨rfl, rfl, rfl⟩
  | isctrl => exact .kept (classify_sameTransmission (execute_eq_next ht).2)
  | isalt => exact .kept (classify_sameTransmission (execute_eq_next ht).2)
  | process cap => exact h.process_transmission (execute_eq_next ht).2
  | ignore => exact Except.ok.inj (execute_eq_next ht).2 ▸ .kept (ignorePacket_sameTransmission s)
  | enq bytes => exact .kept (h.enqueue_sameTransmission (execute_eq_next ht).2)
  | evqempty => exact Except.ok.inj (execute_eq_next ht).2 ▸ .kept ⟨rfl, rfl, rfl⟩
  | cmdAssignEid op req => exact .kept (h.whenAwaiting_sameTransmission assignEid_wrote (execute_eq_next ht).2)
  | cmdGetEid => exact .kept (h.whenAwaiting_sameTransmission respond_wrote (execute_eq_next ht).2)
  | cmdGetVersion v => exact .kept (h.whenAwaiting_sameTransmission respond_wrote (execute_eq_next ht).2)
  | cmdGetTypes => exact .kept (h.whenAwaiting_sameTransmission respond_wrote (execute_eq_next ht).2)
  | cmdUnsupported code => exact .kept (h.whenAwaiting_sameTransmission respond_wrote (execute_eq_next ht).2)
  | sof =>
    exact .kept (h.rxSteps_sameTransmission
      ((receive_eq_rxSteps (some 0x7E) s).symm.trans (execute_eq_next ht).2))
  | esc7e => exact .kept (h.rxSteps_sameTransmission (execute_eq_next ht).2)
  | esc7d => exact .kept (h.rxSteps_sameTransmission (execute_eq_next ht).2)
  | reservedHostAB a => exact absurd ht (executeReserved_ne_next s t)
  | reservedHostCF c => exact absurd ht (executeReserved_ne_next s t)

/-- The bytes emitted and those still to send make one list that no operation but `INIT` changes, and a slot that stops
being active gives way to none. -/
structure SendsOn (s t : State) : Prop where
  wire : t.txout ++ activeWire t = s.txout ++ activeWire s
  act : t.act = s.act ∨ t.act = .none

theorem TransmissionStep.sendsOn {s t : State} (ha : s.act ≠ .none) (ht : TransmissionStep s t) : SendsOn s t := by
  cases ht with
  | kept same => exact ⟨by rw [same.txout, same.wire], .inl same.act⟩
  | drained before inv drain after =>
    obtain ⟨hfin, hact⟩ := inv.drainStep_finished (before.act.symm ▸ ha) drain
    have hwire := congrArg State.txout hfin
    rw [finished_txout, finished_txout, before.txout, before.wire, ← after.txout, ← after.wire] at hwire
    exact ⟨hwire, by rwa [after.act, ← before.act]⟩

theorem Inv.exec_sendsOn {i : Instr} {s t : State} (h : Inv s) (ha : s.act ≠ .none) (hi : i ≠ .init)
    (ht : exec i s = .next t) : SendsOn s t :=
  (h.exec_transmission hi ht).sendsOn ha

theorem runWhileActive_cons {i : Instr} {is : List Instr} {s u : State} (h : runWhileActive (i :: is) s = some u) :
    ∃ t, exec i s = .next t ∧ t.act = s.act ∧ runWhileActive is t = some u := by
  rw [runWhileActive] at h
  cases ht : exec i s <;> simp only [ht] at h
  case next t =>
    split at h
    case isTrue hact => exact ⟨t, rfl, hact, h⟩
    case isFalse => cases h
  case fault => cases h
  case refused => cases h

/-- A property that each operation of a run keeps while it leaves the slot active holds after the run. -/
theorem Inv.runWhileActive_induction {P : State → Prop} {is : List Instr} {s u : State}
    (hstep : ∀ i ∈ is, ∀ v w, Inv v → v.act ≠ .none → P v → exec i v = .next w → w.act = v.act → P w)
    (h : Inv s) (ha : s.act ≠ .none) (hs : P s) (hu : runWhileActive is s = some u) :
    P u ∧ Inv u ∧ u.act = s.act := by
  induction is generalizing s with
  | nil => exact Option.some.inj hu ▸ ⟨hs, h, rfl⟩
  | cons i is ih =>
    obtain ⟨t, ht, hact, hu⟩ := runWhileActive_cons hu
    obtain ⟨hP, hinv, hrun⟩ := ih (fun j hj => hstep j (List.mem_cons_of_mem i hj)) (exec_keeps_inv h ht)
      (hact.symm ▸ ha) (hstep i List.mem_cons_self s t h ha hs ht hact) hu
    exact ⟨hP, hinv, hrun.trans hact⟩

/-- What a run that leaves the slot active has emitted is the front of what the slot had to send. -/
theorem Inv.runWhileActive_sends {is : List Instr} {s u : State} (h : Inv s) (ha : s.act ≠ .none)
    (hu : runWhileActive is s = some u) :
    ((∃ sent, u.txout = s.txout ++ sent) ∧ u.txout ++ activeWire u = s.txout ++ activeWire s) ∧ Inv u ∧
      u.act = s.act := by
  refine h.runWhileActive_induction
    (P := fun v => (∃ sent, v.txout = s.txout ++ sent) ∧ v.txout ++ activeWire v = s.txout ++ activeWire s)
    (fun i _ v w hv hva hP hw hact => ?_) ha ⟨⟨[], (List.append_nil _).symm⟩, rfl⟩ hu
  have hi : i ≠ .init := by
    rintro rfl
    exact hva (hact.symm.trans (congrArg State.act (exec_init_eq_next hw)))
  obtain ⟨⟨sent, hsent⟩, hwire⟩ := hP
  obtain ⟨out, hout, -⟩ := (exec_storageWrote hw).txout
  exact ⟨⟨sent ++ out, by rw [hout, hsent, List.append_assoc]⟩, (hv.exec_sendsOn hva hi hw).wire.trans hwire⟩

/-- The operation that completes the slot after such a run has emitted all the slot had to send. -/
theorem Inv.completion_sends {is : List Instr} {i : Instr} {s u t : State} (h : Inv s) (ha : s.act ≠ .none)
    (hu : runWhileActive is s = some u) (hi : i ≠ .init) (ht : exec i u = .next t) (hact : t.act ≠ s.act) :
    t.act = .none ∧ t.txout = s.txout ++ activeWire s := by
  obtain ⟨⟨-, hrun⟩, hinv, huact⟩ := h.runWhileActive_sends ha hu
  obtain ⟨hstep, htact⟩ := hinv.exec_sendsOn (huact.symm ▸ ha) hi ht
  have hnone := htact.resolve_left (huact.symm ▸ hact)
  rw [activeWire_none hnone, List.append_nil] at hstep
  exact ⟨hnone, hstep.trans hrun⟩

/-! ### Runs of drain steps only (R225) -/

/-- `DRAIN` and `UPDATE` without a byte. -/
def drainsOnly (i : Instr) : Prop := ∃ cap, i = .drain cap ∨ i = .update none cap

/-- Such an operation is a drain step, but for the results. -/
theorem exec_drainsOnly {i : Instr} {s t : State} (hi : drainsOnly i) (ht : exec i s = .next t) :
    ∃ cap v n, drainStep cap s = .ok (v, n) ∧ t = { v with results := t.results } := by
  obtain ⟨cap, rfl | rfl⟩ := hi
  · obtain ⟨⟨v, n⟩, hv, ht⟩ := except_bind_eq_ok.1 (execute_eq_next ht).2
    exact ⟨cap, v, n, hv, Except.ok.inj ht ▸ rfl⟩
  · have hdrain : drainDiscarding cap s = .ok t := (execute_eq_next ht).2
    obtain ⟨⟨v, n⟩, hv, ht⟩ := except_bind_eq_ok.1 hdrain
    exact ⟨cap, v, n, hv, Except.ok.inj ht ▸ rfl⟩

/-- It does not change what the slot comes to in the end, but for the results. -/
theorem Inv.finished_drainsOnly {i : Instr} {s t : State} (h : Inv s) (ha : s.act ≠ .none) (hi : drainsOnly i)
    (ht : exec i s = .next t) : finished t = { finished s with results := t.results } := by
  obtain ⟨cap, v, n, hv, htv⟩ := exec_drainsOnly hi ht
  calc finished t = finished { v with results := t.results } := congrArg finished htv
    _ = { finished v with results := t.results } := finished_withResults v t.results
    _ = { finished s with results := t.results } := by rw [(h.drainStep_finished ha hv).1]

/-- A run of drain steps that completes the slot ends where one drain of unlimited capacity does, but for the
results. -/
theorem Inv.drainsOnly_ends_finished {is : List Instr} {i : Instr} {s u t : State} (h : Inv s) (ha : s.act ≠ .none)
    (hu : runWhileActive is s = some u) (hq : ∀ j ∈ is ++ [i], drainsOnly j) (ht : exec i u = .next t)
    (hact : t.act = .none) : t = { finished s with results := t.results } := by
  have hrun := h.runWhileActive_induction (P := fun v => finished v = { finished s with results := v.results })
    (fun j hj v w hv hva hP hw _ => by
      rw [hv.finished_drainsOnly hva (hq j (List.mem_append_left _ hj)) hw, hP])
    ha (by rw [← finished_results s]) hu
  obtain ⟨hP, hinv, huact⟩ := hrun
  have hlast := hinv.finished_drainsOnly (huact.symm ▸ ha) (hq i (by simp)) ht
  rwa [finished_of_none hact, hP] at hlast

/-! ### `ENQ` (R221) -/

theorem eventWellFormed_iff {bytes : List Byte} :
    eventWellFormed bytes = true ↔ 3 ≤ bytes.length ∧ (bytes.getD 2 0).toNat + 6 = bytes.length := by
  rw [eventWellFormed, slotLength_toNat, Bool.and_eq_true, decide_eq_true_eq, decide_eq_true_eq]

theorem enqueue_rejected {s : State} {bytes : List Byte}
    (h : s.cfg.eventEnabled = false ∨ s.evtPend = true ∨ s.cfg.evtCap < bytes.length) :
    enqueue bytes s = .ok (returning (.bool false) s) := by
  unfold enqueue
  split
  · rfl
  case isFalse hon =>
    split
    · rfl
    case isFalse hfree => rw [if_pos ((h.resolve_left hon).resolve_left hfree)]

section
variable {s : State} {bytes : List Byte} (hon : s.cfg.eventEnabled = true) (hfree : s.evtPend = false)
  (hfits : bytes.length ≤ s.cfg.evtCap)
include hon hfree hfits

theorem enqueue_malformed (hform : eventWellFormed bytes = false) : enqueue bytes s = .error .malformedEvent := by
  simp [enqueue, hon, hfree, Nat.not_lt.2 hfits, hform]

theorem enqueue_copied (hform : eventWellFormed bytes = true) : enqueue bytes s =
    .ok (returning (.bool true) { s with ebuf := s.ebuf.writeAll 0 bytes, evtPend := true }) := by
  have hwrite : writeEbufRange 0 bytes s = .ok { s with ebuf := s.ebuf.writeAll 0 bytes } :=
    writeEbufRange_ok (by omega)
  simp [enqueue, hon, hfree, Nat.not_lt.2 hfits, hform, hwrite]

end

/-! ### The queries (R222, R243 to R245) -/

theorem lowNibble_toNat (b : Byte) : (lowNibble b).toNat = b.toNat % 16 := by
  simp [lowNibble, BitVec.extractLsb'_toNat]

theorem isControlType_eq (b : Byte) : isControlType b = decide (b.toNat % 16 = 0x0) := by
  rw [isControlType, ← lowNibble_toNat, Bool.beq_eq_decide_eq]
  exact decide_eq_decide.2 BitVec.toNat_inj.symm

theorem isAlternateType_eq (b : Byte) : isAlternateType b = decide (b.toNat % 16 = 0x1) := by
  rw [isAlternateType, ← lowNibble_toNat, Bool.beq_eq_decide_eq]
  exact decide_eq_decide.2 BitVec.toNat_inj.symm

/-- A classification query answers false unless a packet is available. -/
theorem exec_classify {s : State} (h : Running s) {isType : Byte → Bool} :
    execute s (classify isType s) =
      .next (returning (.bool (decide (s.fs = .awaitingResponse) && isType (s.buf.read 7))) s) := by
  obtain ⟨hcap, -⟩ := admitted_bounds h.admitted
  rw [execute_running h, classify, packetAvailable]
  by_cases hf : s.fs = .awaitingResponse
  · simp [hf, readBuf_ok (s := s) (i := 7) (by omega), completed]
  · simp [hf, completed]

theorem exec_evqempty {s : State} (h : Running s) :
    exec .evqempty s = .next (returning (.bool (!s.evtPend)) s) :=
  execute_running h _

/-! ### The obligations -/

/-- Settles O47: what is emitted and what is left make one list that no operation changes. -/
theorem framesAreNeverInterleaved : Obligations.FramesAreNeverInterleaved := by
  intro s u is h ha hu
  refine ⟨?_, fun i t hi ht hact => h.completion_sends ha hu hi ht hact⟩
  obtain ⟨⟨⟨sent, hsent⟩, hwire⟩, -⟩ := h.runWhileActive_sends ha hu
  rw [hsent, List.append_assoc] at hwire
  exact ⟨sent, hsent, (List.append_cancel_left hwire).symm⟩

/-- Settles O40, by the three cases of the selection. -/
theorem drainSelectsTheSlot : Obligations.DrainSelectsTheSlot := by
  intro s cap h ha
  obtain ⟨hadm, hnf, hinit⟩ := h.running
  refine ⟨fun hon hp => ?_, fun hn hf => ?_, fun hn hf => ?_⟩
  · exact exec_drain_congr h.running ⟨hadm, hnf, hinit⟩
      (drainStep_of_select cap ha (h.selectSlot_event hon hp) nofun)
  · exact exec_drain_congr h.running ⟨hadm, hnf, hinit⟩
      (drainStep_of_select cap ha (h.selectSlot_primary (h.evtPend_eq_false hn) hf) nofun)
  · exact exec_drain_of_step h.running (drainStep_idle cap ha (h.evtPend_eq_false hn) hf)

/-- Settles O41: the loop sends what the capacity lets through, and completes the slot when that is all. -/
theorem drainSendsTheNextWireBytes : Obligations.DrainSendsTheNextWireBytes := by
  intro s cap h ha
  by_cases hall : takeCap cap (activeWire s) = activeWire s
  · refine ⟨_, h.exec_drain_all ha hall, ?_, ?_, fun _ => finished_act s, fun hne => absurd hall hne⟩
    · rw [returning_txout, finished_txout, hall]
    · rw [returning_results, finished_results, hall]
  · obtain ⟨⟨slot, bytes, done⟩, hr, hs⟩ := h.sendLoop_active ha cap
    obtain rfl : done = false := Bool.eq_false_of_not_eq_true fun hd => hall (hs.done_iff.1 hd)
    obtain rfl : bytes = takeCap cap (activeWire s) := hs.bytes_active
    have hslot := afterLoop_activeSlot ha ⟨slot, takeCap cap (activeWire s), false⟩
    refine ⟨_, exec_drain_of_loop h.running ha hr, rfl, rfl, fun hc => absurd hc hall, fun _ => ⟨?_, ?_⟩⟩
    · exact congrArg (fun x => { withActiveSlot x s with
        txout := s.txout ++ takeCap cap (activeWire s)
        results := s.results ++ [Result.nat (takeCap cap (activeWire s)).length] }) hslot.symm
    · exact (activeWire_eq s).trans (hs.rest.trans (congrArg _ (afterLoop_activeWire ha _).symm))

/-- Settles O42, one equation of the sending loop for each of its branches. -/
theorem drainOfOneByte : Obligations.DrainOfOneByte := by
  intro s h ha hlast
  obtain ⟨n, hn⟩ : ∃ n, remaining (activeSlot s) = n + 2 := Nat.exists_eq_add_of_le' (by unfold remaining; omega)
  have hloop := fun {cap slot bytes} => exec_drain_of_loop (s := s) (cap := cap) (slot := slot) (bytes := bytes)
    h.running ha
  rw [hn] at hloop
  refine ⟨fun he => hloop (sendLoop_continuation he), ?_⟩
  rintro i b l rfl rfl rfl he
  have hb := h.readActive_ok ha (i := (activeSlot s).idx.toNat) (by omega)
  have hl := h.readActive_ok ha (i := 2) (by rw [(h.activeSends ha).len, slotLength_toNat]; omega)
  refine ⟨fun hraw => hloop (sendLoop_raw he hb hl (isStuffed_eq_false_iff.2 hraw)), fun hi hil hsp => ?_⟩
  have hst := isStuffed_iff.2 ⟨hi, hil, hsp⟩
  exact ⟨hloop (sendLoop_cutOff he hb hl hst), hloop (sendLoop_escaped he hb hl hst)⟩

/-- Settles O43, by what completion of the primary slot writes. -/
theorem primaryCompletion : Obligations.PrimaryCompletion := by
  intro s cap h hact hall
  rw [h.exec_drain_all (by simp [hact]) hall]
  simp only [finished, completeActive, hact, completePrimary_eq]
  rfl

/-- Settles O44, by what completion of the event slot writes. -/
theorem eventCompletion : Obligations.EventCompletion := by
  intro s cap h hact hall
  rw [h.exec_drain_all (by simp [hact]) hall]
  simp only [finished, completeActive, hact]
  rfl

/-- Settles O46: both ways end with the slot finished. -/
theorem partialSendsEqualOneSend : Obligations.PartialSendsEqualOneSend := by
  intro s u t is i h ha hu hi ht hact
  obtain ⟨-, htx⟩ := h.completion_sends ha hu hi ht (hact.symm ▸ ha.symm)
  refine ⟨_, h.exec_drain_all ha (cap := .inf) rfl, finished_act s, finished_txout s, ?_, fun hfresh => ?_,
    fun hq => h.drainsOnly_ends_finished ha hu hq ht hact⟩
  · exact htx.trans (finished_txout s).symm
  · rw [returning_txout, finished_txout, activeWire_eq, hfresh, freshSlotSendsTheWireForm]

/-- Settles O51, by the four tests in their order. -/
theorem enqueueCopiesTheFrame : Obligations.EnqueueCopiesTheFrame := by
  intro s bytes hr hwf
  have hexec := execute_running hr (enqueue bytes s)
  refine ⟨fun hrej => hexec.trans (congrArg completed (enqueue_rejected hrej)),
    fun hon hfree hfits => ⟨fun hbad => ?_, fun hsize hlen => ?_⟩⟩
  · have hform : eventWellFormed bytes = false :=
      Bool.eq_false_of_not_eq_true fun hform => by have := eventWellFormed_iff.1 hform; omega
    exact hexec.trans (congrArg completed (enqueue_malformed hon hfree hfits hform))
  · have hcopied := enqueue_copied hon hfree hfits (eventWellFormed_iff.2 ⟨hsize, hlen⟩)
    exact ⟨_, hexec.trans (congrArg completed hcopied),
      fun a => by simpa using Memory.read_writeAll hwf 0 bytes a, rfl⟩

/-- Settles O52, by the two classifications and the flag. -/
theorem queriesAnswer : Obligations.QueriesAnswer := by
  intro s hr
  refine ⟨execute_running hr _, (exec_classify hr).trans ?_, (exec_classify hr).trans ?_, ?_, fun h hoff => ?_⟩
  · rw [isControlType_eq, ← Bool.decide_and]
    rfl
  · rw [isAlternateType_eq, ← Bool.decide_and]
    rfl
  · rw [Bool.decide_eq_false]
    exact exec_evqempty hr
  · have hempty := exec_evqempty hr
    rwa [h.featureOff hoff] at hempty

end Sys2Proof.Machine
end

section
/-! PROOFS. The statements of spec/45_host_interface.md: `INIT` (R241), `UPDATE` as the receive step before the drain
step (R242), `IGNORE` (R246), the order of the refusals (R247), what `UPDATE`, `DRAIN` and `PROCESS` leave unchanged
(R248), and the step that runs a presented word (spec/60_exceptions.md R288, log 1, log 2). -/

namespace Sys2Proof

/-! ### Bytes that are a symbol (spec/30_encoding.md R80) -/

/-- Everything the symbol decoder reads: one of the three rows at the front of the bytes. -/
theorem decodeWire_eq_ok {bytes rest : List Byte} {i : Instr} (h : decodeWire bytes = .ok (i, rest)) :
    (i = .sof ∧ bytes = 0x7E :: rest) ∨ (i = .esc7e ∧ bytes = 0x7D :: 0x5E :: rest) ∨
      (i = .esc7d ∧ bytes = 0x7D :: 0x5D :: rest) := by
  unfold decodeWire at h
  split at h
  · cases h
  split at h
  case isTrue hsof => cases h; exact .inl ⟨rfl, by rw [hsof]⟩
  split at h
  case isFalse => cases h
  case isTrue hesc =>
    split at h
    · cases h
    split at h
    case isTrue h5E => cases h; exact .inr (.inl ⟨rfl, by rw [hesc, h5E]⟩)
    split at h
    case isTrue h5D => cases h; exact .inr (.inr ⟨rfl, by rw [hesc, h5D]⟩)
    case isFalse => cases h

/-- A word on the link is an instruction only when it is the bytes of one symbol, and no more. -/
theorem decode_wire_eq_ok {codes : CommandCodes} {bytes : List Byte} {i : Instr}
    (h : decode codes (.wire bytes) = .ok i) :
    (i = .sof ∧ bytes = [0x7E]) ∨ (i = .esc7e ∧ bytes = [0x7D, 0x5E]) ∨ (i = .esc7d ∧ bytes = [0x7D, 0x5D]) := by
  cases hwire : decodeWire bytes with
  | error e => simp [decode, hwire] at h
  | ok symbol =>
    obtain ⟨j, rest⟩ := symbol
    cases rest with
    | nil =>
      obtain rfl : j = i := by simpa [decode, hwire] using h
      exact decodeWire_eq_ok hwire
    | cons b bs => simp [decode, hwire] at h

end Sys2Proof

namespace Sys2Proof.Machine

/-! ### The guard, refusal by refusal (R247) -/

theorem refusalBeforeSelector_faulted {s : State} (ha : configAdmitted s.cfg = true) (hf : s.faulted ≠ none) :
    refusalBeforeSelector s = some .faulted := by
  simp [refusalBeforeSelector, ha, Option.isSome_iff_ne_none.2 hf]

theorem refusalOfOperation_of_before {s : State} {r : Refusal} (h : refusalBeforeSelector s = some r) :
    refusalOfOperation s = some r := by
  rw [refusalOfOperation, h]

theorem refusalOfOperation_notInitialised {s : State} (ha : configAdmitted s.cfg = true) (hf : s.faulted = none)
    (hi : s.initDone = false) : refusalOfOperation s = some .notInitialised := by
  rw [refusalOfOperation, refusalBeforeSelector_admitted ha hf, hi]
  rfl

/-- A refusal that comes before the selector is looked at is that of every instruction. -/
theorem exec_of_refusalBeforeSelector {s : State} {r : Refusal} (h : refusalBeforeSelector s = some r) (i : Instr) :
    exec i s = .refused r := by
  rcases exec_guard_cases i s with ⟨-, hi⟩ | ⟨-, hi⟩ | ⟨-, -, e, hi⟩ <;> rw [hi]
  · exact executeInit_eq_refused.2 h
  · exact executeReserved_eq_refused.2 (.inl h)
  · exact execute_eq_refused.2 (refusalOfOperation_of_before h)

theorem exec_reserved {s : State} {i : Instr} (ha : configAdmitted s.cfg = true) (hf : s.faulted = none)
    (hr : isReserved i) : exec i s = .refused .reserved := by
  rcases hr with ⟨a, rfl⟩ | ⟨c, rfl⟩ <;> exact executeReserved_admitted ha hf

/-- Every instruction but `INIT` and the reserved selectors runs under the guard of an operation. -/
theorem exec_eq_refused_of_operation {s : State} {i : Instr} {r : Refusal} (hr : ¬ isReserved i) (hi : i ≠ .init)
    (h : refusalOfOperation s = some r) : exec i s = .refused r := by
  rcases exec_guard_cases i s with ⟨hinit, -⟩ | ⟨hres, -⟩ | ⟨-, -, e, he⟩
  · exact absurd hinit hi
  · exact absurd hres hr
  · exact he.trans (execute_eq_refused.2 h)

/-! ### The receive step and the drain step (R242, R248) -/

theorem drainDiscarding_eq_ok {cap : Cap} {s t : State} :
    drainDiscarding cap s = .ok t ↔ ∃ n, drainStep cap s = .ok (t, n) := by
  refine ⟨fun h => ?_, fun ⟨n, hn⟩ => by rw [drainDiscarding, hn]; rfl⟩
  obtain ⟨⟨v, n⟩, hv, h⟩ := except_bind_eq_ok.1 h
  obtain rfl := Except.ok.inj h
  exact ⟨n, hv⟩

/-- `UPDATE` is the receive half and then a drain step, whose count is discarded. -/
theorem updateEffect_eq_ok {rx : Option Byte} {cap : Cap} {s t : State} :
    updateEffect rx cap s = .ok t ↔ ∃ u n, receive rx s = .ok u ∧ drainStep cap u = .ok (t, n) := by
  simp only [updateEffect, except_bind_eq_ok, drainDiscarding_eq_ok, exists_and_left]

theorem processAwaiting_eq_ok {cap : Cap} {s t : State} :
    processAwaiting cap s = .ok t ↔ ∃ u n, dispatchCommand s = .ok u ∧ drainStep cap u = .ok (t, n) := by
  simp only [processAwaiting, except_bind_eq_ok, drainDiscarding_eq_ok, exists_and_left]

theorem drainReturning_eq_ok {cap : Cap} {s t : State} :
    drainReturning cap s = .ok t ↔ ∃ u n, drainStep cap s = .ok (u, n) ∧ t = returning (.nat n) u := by
  refine ⟨fun h => ?_, fun ⟨u, n, hu, ht⟩ => by rw [drainReturning, hu, ht]; rfl⟩
  obtain ⟨⟨u, n⟩, hu, h⟩ := except_bind_eq_ok.1 h
  exact ⟨u, n, hu, (Except.ok.inj h).symm⟩

theorem DrainWrote.rxIdx {s t : State} {n : Nat} (h : DrainWrote s t n) : t.rxIdx = s.rxIdx :=
  (congrArg State.rxIdx h.rest :)

theorem DrainWrote.rxCnt {s t : State} {n : Nat} (h : DrainWrote s t n) : t.rxCnt = s.rxCnt :=
  (congrArg State.rxCnt h.rest :)

theorem DrainWrote.results {s t : State} {n : Nat} (h : DrainWrote s t n) : t.results = s.results :=
  (congrArg State.results h.rest :)

theorem DrainWrote.freeCount {s t : State} {n : Nat} (h : DrainWrote s t n) : t.freeCount = s.freeCount :=
  (congrArg State.freeCount h.rest :)

theorem receive_rest {rx : Option Byte} {s u : State} (h : receive rx s = .ok u) :
    u = { s with fs := u.fs, rxIdx := u.rxIdx, rxCnt := u.rxCnt, buf := u.buf } :=
  rxSteps_rest (receive_eq_rxSteps rx s ▸ h)

theorem receive_none {s u : State} (h : receive none s = .ok u) : u = s := (Except.ok.inj h).symm

/-- A receive step changes at most the byte it stores to. -/
theorem RxWrote.read {b : Byte} {s t : State} (h : RxWrote b s t) (hw : s.buf.wf = true) {a : Nat}
    (ha : storesAt b s ≠ some a) : t.buf.read a = s.buf.read a := by
  cases hs : storesAt b s with
  | none => rw [h.silent hs]
  | some i =>
    obtain ⟨-, v, hv⟩ := h.store i hs
    have hne : a ≠ i := fun hai => ha (hai ▸ hs)
    rw [hv, Memory.write_stores hw i v a, if_neg hne]

theorem receive_read {rx : Option Byte} {s u : State} (h : receive rx s = .ok u) (hw : s.buf.wf = true) {a : Nat}
    (ha : ∀ b, rx = some b → storesAt b s ≠ some a) : u.buf.read a = s.buf.read a := by
  cases rx with
  | none => rw [receive_none h]
  | some b => exact (rxStep_wrote h).read hw (ha b rfl)

/-! ### `IGNORE` (R246) -/

theorem ignorePacket_awaiting {s : State} (h : s.fs = .awaitingResponse) :
    ignorePacket s = { s with fs := .waitSync } := by
  simp [ignorePacket, packetAvailable, h]

theorem ignorePacket_other {s : State} (h : s.fs ≠ .awaitingResponse) : ignorePacket s = s := by
  simp [ignorePacket, packetAvailable, h]

theorem exec_ignore {s : State} (h : Running s) : exec .ignore s = .next (ignorePacket s) :=
  execute_running h _

/-! ### One step, by the oldest presented word (log 1, log 2) -/

theorem step_idle {s : State} (h : s.pending = []) : step s = .next s := by
  simp only [step, fetch, h]

theorem step_decoded {s : State} {w : Word} {rest : List Word} {i : Instr} (hp : s.pending = w :: rest)
    (hd : decode s.cfg.codes w = .ok i) : step s = exec i { s with pending := rest } := by
  simp only [step, fetch, hp, hd]

theorem step_rejected {s : State} {w : Word} {rest : List Word} {e : DecodeReject} (hp : s.pending = w :: rest)
    (hd : decode s.cfg.codes w = .error e) : step s = receiveBytes (linkBytes w) { s with pending := rest } := by
  simp only [step, fetch, hp, hd]

/-- A symbol is received as its bytes are (log 14). -/
theorem exec_decoded_wire {codes : CommandCodes} {bytes : List Byte} {i : Instr}
    (h : decode codes (.wire bytes) = .ok i) (s : State) : exec i s = receiveBytes bytes s := by
  rcases decode_wire_eq_ok h with ⟨rfl, rfl⟩ | ⟨rfl, rfl⟩ | ⟨rfl, rfl⟩
  · exact congrArg (execute s) (receive_eq_rxSteps (some 0x7E) s)
  · rfl
  · rfl

/-- Bytes on the link are received one by one, whether they are a symbol or not. -/
theorem step_wire {s : State} {bytes : List Byte} {rest : List Word} (hp : s.pending = .wire bytes :: rest) :
    step s = receiveBytes bytes { s with pending := rest } := by
  cases hd : decode s.cfg.codes (.wire bytes) with
  | ok i => exact (step_decoded hp hd).trans (exec_decoded_wire hd _)
  | error e => exact step_rejected hp hd

/-! ### The obligations -/

/-- Settles O22, by the laws that the receive step and the drain step complete under the invariant. -/
theorem updateReceivesThenDrains : Obligations.UpdateReceivesThenDrains := by
  intro s rx cap h
  obtain ⟨u, hu, hi⟩ := h.rxSteps rx.toList
  rw [← receive_eq_rxSteps] at hu
  obtain ⟨t, n, ht, -⟩ := hi.drainStep cap
  refine ⟨u, t, n, ?_, ?_, ht, (drainStep_wrote ht).buf, ?_⟩
  · rintro rfl
    exact receive_none hu
  · rintro b rfl
    exact hu
  · exact (execute_running h.running _).trans (congrArg completed (updateEffect_eq_ok.2 ⟨u, n, hu, ht⟩))

/-- Settles O23, by what the receive half and the drain step can write. -/
theorem frameOfUpdate : Obligations.FrameOfUpdate := by
  intro s t rx cap hw h
  obtain ⟨u, n, hu, ht⟩ := updateEffect_eq_ok.1 (execute_eq_next h).2
  have hdrain := drainStep_wrote ht
  refine ⟨?_, ?_, fun a ha => ?_⟩
  · have hrest := hdrain.rest
    rw [receive_rest hu, ← hdrain.rxIdx, ← hdrain.rxCnt, ← hdrain.buf] at hrest
    exact hrest
  · rintro rfl
    obtain rfl := receive_none hu
    exact ⟨hdrain.rxIdx, hdrain.rxCnt⟩
  · rw [hdrain.buf]
    exact receive_read hu hw ha

/-- Settles O49, by what a drain step and the building of a response can write. -/
theorem frameOfDrainAndProcess : Obligations.FrameOfDrainAndProcess := by
  refine fun s t cap => ⟨fun h => ?_, fun h => ?_⟩
  · obtain ⟨u, n, hu, rfl⟩ := drainReturning_eq_ok.1 (execute_eq_next h).2
    have hdrain := drainStep_wrote hu
    rw [returning_results, hdrain.results]
    exact congrArg (returning (.nat n)) hdrain.rest
  · rcases whenAwaiting_cases (execute_eq_next h).2 with rfl | ⟨-, h⟩
    · rfl
    obtain ⟨u, n, hu, ht⟩ := processAwaiting_eq_ok.1 h
    have hdrain := drainStep_wrote ht
    have hrest := hdrain.rest
    rw [dispatchCommand_wrote hu, ← hdrain.buf, ← hdrain.freeCount] at hrest
    exact hrest

/-- Settles O2: the values of `INIT` are those of `initialise`. -/
theorem initWritesTheResetValues : Obligations.InitWritesTheResetValues :=
  fun _ ha hf => exec_init_admitted ha hf

/-- Settles O5, one refusal of the guard after the other. -/
theorem refusalsComeInOrder : Obligations.RefusalsComeInOrder := by
  refine fun s i ha => ⟨fun hf => ?_, fun hf hr => ?_, fun hf hr hd hi => ?_, fun r hr => ?_⟩
  · exact exec_of_refusalBeforeSelector (refusalBeforeSelector_faulted ha hf) i
  · exact exec_reserved ha hf hr
  · exact exec_eq_refused_of_operation hr hi (refusalOfOperation_notInitialised ha hf hd)
  · rw [hr]
    rfl

/-- Settles O53, by the one test of `IGNORE`. -/
theorem ignoreDropsThePacket : Obligations.IgnoreDropsThePacket := fun _ h =>
  ⟨fun hf => (exec_ignore h).trans (congrArg _ (ignorePacket_awaiting hf)),
    fun hf => (exec_ignore h).trans (congrArg _ (ignorePacket_other hf))⟩

/-- Settles O60, by what a step does with the oldest word, decoded or not. -/
theorem stepRunsTheDecodedInstruction : Obligations.StepRunsTheDecodedInstruction := by
  refine fun s => ⟨step_idle, fun w rest i => step_decoded, fun w rest e _ hd => ⟨linkBytes w, decode_error hd⟩,
    ?_, fun nbits w i hd => step_decoded (s := s.withFetchWord nbits w) rfl hd⟩
  rintro bytes rest u hp rfl
  have hstep := step_wire hp
  refine ⟨hstep, fun h => ?_⟩
  have hu := h.withPending rest
  obtain ⟨t, ht, -⟩ := hu.rxSteps bytes
  exact ⟨t, ht, hstep.trans ((execute_running hu.running _).trans (congrArg completed ht))⟩

end Sys2Proof.Machine
end

section
/-! PROOFS. The statements of spec/60_exceptions.md: which instruction faults from a state that meets the invariant
(R276), that every other one but a reserved selector completes (R270, R289), and that a fault is sticky (R276). -/

namespace Sys2Proof.Machine

/-! ### Every instruction but `ENQ` and the reserved selectors completes (R270, R289) -/

/-- The guard of an operation lets a state that meets the invariant through. -/
theorem Inv.execute_completes {s : State} {e : Except Fault State} (h : Inv s) (he : ∃ u, e = .ok u ∧ Inv u) :
    ∃ t, execute s e = .next t := by
  obtain ⟨u, rfl, -⟩ := he
  exact ⟨u, execute_running h.running _⟩

/-- The response and the drain step of `PROCESS` both complete (spec/43_control_commands.md R180). -/
theorem Inv.processAwaiting {s : State} (h : Inv s) (hf : s.fs = .awaitingResponse) (cap : Cap) :
    ∃ t, Machine.processAwaiting cap s = .ok t ∧ Inv t := by
  obtain ⟨u, hu, hi⟩ := h.dispatch hf
  obtain ⟨t, ht, hj⟩ := hi.drainDiscarding cap
  exact ⟨t, by rw [Machine.processAwaiting, hu, except_bind_ok, ht], hj⟩

/-- The law of each effect, one instruction at a time: no effect but that of `ENQ` has a fault. -/
theorem Inv.exec_completes {s : State} {i : Instr} (h : Inv s) (hr : ¬ isReserved i)
    (he : ∀ bytes, i ≠ .enq bytes) :
    ∃ t, exec i s = .next t := by
  cases i with
  | init => exact ⟨_, exec_init_admitted h.running.admitted h.running.notFaulted⟩
  | update rx cap => exact h.execute_completes (h.update rx cap)
  | drain cap => exact h.execute_completes (h.drainReturning cap)
  | pktavail => exact h.execute_completes ⟨_, rfl, h.returning _⟩
  | isctrl => exact h.execute_completes (h.classify _)
  | isalt => exact h.execute_completes (h.classify _)
  | process cap => exact h.execute_completes (h.awaiting fun hf => h.processAwaiting hf cap)
  | ignore => exact h.execute_completes ⟨_, rfl, h.ignore⟩
  | enq bytes => exact absurd rfl (he bytes)
  | evqempty => exact h.execute_completes ⟨_, rfl, h.returning _⟩
  | cmdAssignEid op req => exact h.execute_completes (h.awaiting fun hf => h.assign hf op req)
  | cmdGetEid => exact h.execute_completes (h.awaiting h.getEid)
  | cmdGetVersion v => exact h.execute_completes (h.awaiting fun hf => h.getVersion hf v)
  | cmdGetTypes => exact h.execute_completes (h.awaiting h.getTypes)
  | cmdUnsupported code => exact h.execute_completes (h.awaiting h.unsupported)
  | sof => exact h.execute_completes (h.rxStep 0x7E)
  | esc7e => exact h.execute_completes (h.rxSteps [0x7D, 0x5E])
  | esc7d => exact h.execute_completes (h.rxSteps [0x7D, 0x5D])
  | reservedHostAB a => exact absurd (.inl ⟨a, rfl⟩) hr
  | reservedHostCF c => exact absurd (.inr ⟨c, rfl⟩) hr

/-! ### The fault of `ENQ` (spec/44_transmitter.md R221) -/

theorem eventWellFormed_eq_false_iff {bytes : List Byte} :
    eventWellFormed bytes = false ↔ bytes.length < 3 ∨ (bytes.getD 2 0).toNat + 6 ≠ bytes.length := by
  rw [← Bool.not_eq_true, eventWellFormed_iff, not_and_or, Nat.not_le]

/-- `ENQ` tests the form last, and only that test faults. -/
theorem Inv.exec_enq_eq_fault {s : State} {bytes : List Byte} {f : Fault} (h : Inv s) :
    exec (.enq bytes) s = .fault f ↔ f = .malformedEvent ∧ s.cfg.eventEnabled = true ∧ s.evtPend = false ∧
      bytes.length ≤ s.cfg.evtCap ∧ eventWellFormed bytes = false := by
  constructor
  · intro hf
    have hfault : enqueue bytes s = .error f := (execute_eq_fault hf).2
    rcases h.enq bytes with ⟨hmal, hcond⟩ | ⟨u, hu, -⟩
    · exact ⟨Except.error.inj (hfault.symm.trans hmal), hcond⟩
    · exact nomatch hfault.symm.trans hu
  · rintro ⟨rfl, hon, hfree, hfits, hform⟩
    exact (execute_running h.running _).trans (congrArg completed (enqueue_malformed hon hfree hfits hform))

/-- `ENQ` completes or faults with `MalformedEvent`. -/
theorem Inv.exec_enq_cases {s : State} (h : Inv s) (bytes : List Byte) :
    (∃ t, exec (.enq bytes) s = .next t) ∨ exec (.enq bytes) s = .fault .malformedEvent := by
  rcases h.enq bytes with ⟨-, hcond⟩ | hok
  · exact .inr (h.exec_enq_eq_fault.2 ⟨rfl, hcond⟩)
  · exact .inl (h.execute_completes hok)

/-! ### What a faulting instruction is -/

/-- An instruction that faults ran, so the configuration is an admitted one. -/
theorem configAdmitted_of_exec_fault {s : State} {i : Instr} {f : Fault} (h : exec i s = .fault f) :
    configAdmitted s.cfg = true := by
  by_contra hbad
  exact nomatch h.symm.trans (exec_eq_badConfig.2 (Bool.eq_false_of_not_eq_true hbad))

/-- A reserved selector is refused, never a fault. -/
theorem Inv.not_isReserved_of_exec_fault {s : State} {i : Instr} {f : Fault} (h : Inv s) (hf : exec i s = .fault f) :
    ¬ isReserved i := fun hr =>
  nomatch hf.symm.trans (exec_reserved h.running.admitted h.running.notFaulted hr)

/-- Only `ENQ` faults. -/
theorem Inv.eq_enq_of_exec_fault {s : State} {i : Instr} {f : Fault} (h : Inv s) (hf : exec i s = .fault f) :
    ∃ bytes, i = .enq bytes := by
  by_contra hne
  obtain ⟨t, ht⟩ := h.exec_completes (h.not_isReserved_of_exec_fault hf) (not_exists.1 hne)
  exact nomatch hf.symm.trans ht

/-! ### The obligations -/

/-- Settles O8: a faulting instruction is an `ENQ`, and the fault of `ENQ` is that of its last test. -/
theorem onlyAMalformedEventFaults : Obligations.OnlyAMalformedEventFaults := by
  intro s i f h
  constructor
  · intro hf
    obtain ⟨bytes, rfl⟩ := h.eq_enq_of_exec_fault hf
    obtain ⟨hmal, hon, hfree, hfits, hform⟩ := h.exec_enq_eq_fault.1 hf
    exact ⟨hmal, bytes, rfl, hon, hfree, hfits, eventWellFormed_eq_false_iff.1 hform⟩
  · rintro ⟨hmal, bytes, rfl, hon, hfree, hfits, hform⟩
    exact h.exec_enq_eq_fault.2 ⟨hmal, hon, hfree, hfits, eventWellFormed_eq_false_iff.2 hform⟩

/-- Settles O9: `ENQ` completes or is malformed, every other instruction completes. -/
theorem everyOperationCompletes : Obligations.EveryOperationCompletes := by
  intro s i h hr
  by_cases he : ∃ bytes, i = .enq bytes
  · obtain ⟨bytes, rfl⟩ := he
    exact (h.exec_enq_cases bytes).imp_right fun hf => ⟨bytes, rfl, hf⟩
  · exact .inl (h.exec_completes hr (not_exists.1 he))

/-- Settles O7: the configuration is admitted, so the guard of every later instruction meets the recorded fault. -/
theorem faultIsSticky : Obligations.FaultIsSticky := by
  intro s i f hf
  have hadm : configAdmitted s.cfg = true := configAdmitted_of_exec_fault hf
  rw [hf]
  exact ⟨rfl, exec_of_refusalBeforeSelector (refusalBeforeSelector_faulted hadm nofun)⟩

end Sys2Proof.Machine
end

section
/-! PROOFS. The statements of spec/70_reset_and_hazards.md: the end of a response that the host drains (R300), and the
configuration, which no operation writes (R292). -/

namespace Sys2Proof.Machine

/-! ### How much a slot has to send (R212 to R216) -/

theorem wireByte_length_le (m : Memory) (i : Nat) : (wireByte m i).length ≤ 2 := by
  unfold wireByte
  split <;> simp

/-- Each byte of a frame is at most two on the wire (spec/30_encoding.md R87). -/
theorem wireFrom_length_le (m : Memory) (i n : Nat) : (wireFrom m i n).length ≤ 2 * n := by
  induction n generalizing i with
  | zero => simp
  | succ n ih =>
    have hbyte := wireByte_length_le m i
    have hrest := ih (i + 1)
    rw [wireFrom_succ, List.length_append]
    omega

/-- A frame has at most 261 bytes. -/
theorem SlotSends.wireRest_length_le {m : Memory} {slot : Slot} (h : SlotSends m slot) :
    (wireRest m slot).length ≤ 522 := by
  have hlen : slot.len.toNat ≤ 261 := by
    have hbody := (m.read 2).isLt
    rw [h.len, slotLength_toNat]
    omega
  have hrem : remaining slot ≤ 261 := (Nat.sub_le _ _).trans hlen
  unfold wireRest
  split
  · have htail := wireFrom_length_le m (slot.idx.toNat + 1) (remaining slot - 1)
    rw [List.length_cons]
    omega
  · have hall := wireFrom_length_le m slot.idx.toNat (remaining slot)
    omega

theorem Inv.activeWire_length_le {s : State} (h : Inv s) (ha : s.act ≠ .none) : (activeWire s).length ≤ 522 :=
  activeWire_eq s ▸ (h.activeSends ha).wireRest_length_le

/-- With room at least one byte goes out. -/
theorem takeCap_ne_nil {cap : Cap} {bytes : List Byte} (hc : cap ≠ .fin 0) (hb : bytes ≠ []) :
    takeCap cap bytes ≠ [] := by
  cases cap with
  | inf => exact hb
  | fin n => exact mt List.take_eq_nil_iff.1 (not_or.2 ⟨fun hn => hc (hn ▸ rfl), hb⟩)

/-! ### The drain steps a response still needs (R300) -/

/-- A bound on the drain steps with room from a sending state until the endpoint listens again. A drain step sends a
byte of the active slot's frame or completes it, and a pending event goes before the response (R211). -/
def drainsLeft (s : State) : Nat :=
  match s.act with
  | .none => if s.evtPend then 1044 else 522
  | .primary => max 1 (activeWire s).length
  | .event => max 1 (activeWire s).length + 522

theorem Inv.drainsLeft_le {s : State} (h : Inv s) : drainsLeft s ≤ 1044 := by
  unfold drainsLeft
  split
  · split <;> omega
  all_goals
    have hwire := h.activeWire_length_le (s := s) (by simp [*])
    omega

theorem drainsLeft_pos (s : State) : 0 < drainsLeft s := by
  unfold drainsLeft
  split
  · split <;> omega
  all_goals omega

/-- Fewer bytes to send in the same slot are fewer drain steps. -/
theorem drainsLeft_lt {s t : State} (ha : s.act ≠ .none) (hact : t.act = s.act)
    (hpos : 0 < (activeWire t).length) (hlt : (activeWire t).length < (activeWire s).length) :
    drainsLeft t < drainsLeft s := by
  unfold drainsLeft
  rw [hact]
  split
  next hnone => exact absurd hnone ha
  all_goals omega

/-- A sending endpoint listens again, or sends on and has fewer drain steps left. -/
def DrainProgress (s t : State) : Prop :=
  (t.fs = .waitSync ∧ t.act = .none) ∨ (t.fs = .sendingResponse ∧ drainsLeft t < drainsLeft s)

/-- A completed response ends the sending state (R218), a completed event gives way to the response (R219). -/
theorem drainProgress_completeActive {s t : State} (ha : s.act ≠ .none) (hact : t.act = s.act)
    (hfs : t.fs = .sendingResponse) : DrainProgress s (completeActive t) := by
  cases h : s.act with
  | none => exact absurd h ha
  | primary => exact .inl ⟨by simp [completeActive, hact, h], completeActive_act t⟩
  | event =>
    simp only [DrainProgress, completeActive, drainsLeft, hact, h, completeEvent_fs, completeEvent_act,
      completeEvent_evtPend]
    exact .inr ⟨hfs, by simp⟩

theorem afterLoop_fs (r : Sent) (s : State) : (afterLoop r s).fs = s.fs := by
  cases h : s.act <;> simp [afterLoop, withActiveSlot, h]

theorem afterLoop_act (r : Sent) (s : State) : (afterLoop r s).act = s.act := withActiveSlot_act r.slot s

/-- A loop with room that stops before the end of the frame has sent a byte of it, and has a byte left. -/
theorem LoopSent.drainProgress {s : State} {cap : Cap} {r : Sent}
    (hs : LoopSent (activeBuffer s) (activeSlot s) cap r) (ha : s.act ≠ .none) (hfs : s.fs = .sendingResponse)
    (hc : cap ≠ .fin 0) (hd : r.done ≠ true) : DrainProgress s (afterLoop r s) := by
  have hleft : wireRest (activeBuffer s) r.slot ≠ [] := mt hs.done.2 hd
  have hsplit : activeWire s = r.bytes ++ activeWire (afterLoop r s) := by
    rw [activeWire_eq s, afterLoop_activeWire ha, hs.rest]
  have hwire : activeWire s ≠ [] := by
    rw [activeWire_eq, hs.rest]
    exact List.append_ne_nil_of_right_ne_nil _ hleft
  have hsent : 0 < r.bytes.length := List.length_pos_iff.2 (hs.bytes_active ▸ takeCap_ne_nil hc hwire)
  refine .inr ⟨(afterLoop_fs r s).trans hfs, drainsLeft_lt ha (afterLoop_act r s) ?_ ?_⟩
  · exact List.length_pos_iff.2 (afterLoop_activeWire ha r ▸ hleft)
  · rw [hsplit, List.length_append]
    omega

theorem Inv.drainStep_progress_of_active {s : State} {cap : Cap} (h : Inv s) (hfs : s.fs = .sendingResponse)
    (hc : cap ≠ .fin 0) (ha : s.act ≠ .none) :
    ∃ t n, Machine.drainStep cap s = .ok (t, n) ∧ DrainProgress s t := by
  obtain ⟨r, hr, hs⟩ := h.sendLoop_active ha cap
  refine ⟨_, _, drainStep_of_loop ha hr, ?_⟩
  by_cases hd : r.done = true
  · rw [if_pos hd]
    exact drainProgress_completeActive ha (afterLoop_act r s) ((afterLoop_fs r s).trans hfs)
  · rw [if_neg hd]
    exact hs.drainProgress ha hfs hc hd

/-- With a response to send, selection activates a slot, and the bound covers its frame (R211). -/
theorem Inv.selectSlot_sending {s : State} (h : Inv s) (hfs : s.fs = .sendingResponse) (ha : s.act = .none) :
    ∃ u, Machine.selectSlot s = .ok u ∧ Inv u ∧ u.fs = .sendingResponse ∧ u.act ≠ .none ∧
      drainsLeft u ≤ drainsLeft s := by
  obtain ⟨u, hu, hi⟩ := h.selectSlot ha
  refine ⟨u, hu, hi, ?_⟩
  rcases selectSlot_cases hu with ⟨-, hevt, -, rfl⟩ | ⟨-, -, -, rfl⟩ | ⟨-, hne, -⟩
  · refine ⟨hfs, nofun, hi.drainsLeft_le.trans ?_⟩
    simp [drainsLeft, ha, hevt]
  · have hwire := hi.activeWire_length_le nofun
    refine ⟨hfs, nofun, ?_⟩
    simp only [drainsLeft, ha]
    split <;> omega
  · exact absurd hfs hne

/-- Every drain step with room makes progress. -/
theorem Inv.drainStep_progress {s : State} {cap : Cap} (h : Inv s) (hfs : s.fs = .sendingResponse)
    (hc : cap ≠ .fin 0) : ∃ t n, Machine.drainStep cap s = .ok (t, n) ∧ DrainProgress s t := by
  by_cases ha : s.act = .none
  · obtain ⟨u, hu, hi, hufs, hua, hle⟩ := h.selectSlot_sending hfs ha
    obtain ⟨t, n, ht, hp⟩ := hi.drainStep_progress_of_active hufs hc hua
    exact ⟨t, n, (drainStep_of_select cap ha hu hua).trans ht,
      hp.imp_right fun hsend => ⟨hsend.1, hsend.2.trans_le hle⟩⟩
  · exact h.drainStep_progress_of_active hfs hc ha

/-! ### Runs of `DRAIN` and `UPDATE` with room -/

/-- `DRAIN` or `UPDATE` with room, with an inbound byte or without. -/
def drainsWithRoom (i : Instr) : Prop := ∃ cap, cap ≠ .fin 0 ∧ (i = .drain cap ∨ ∃ rx, i = .update rx cap)

/-- Inbound bytes are discarded while a response is sent (R140), so `UPDATE` is a drain step as `DRAIN` is. -/
theorem Inv.exec_progress {s : State} {i : Instr} (h : Inv s) (hfs : s.fs = .sendingResponse)
    (hi : drainsWithRoom i) : ∃ t, exec i s = .next t ∧ DrainProgress s t := by
  obtain ⟨cap, hc, rfl | ⟨rx, rfl⟩⟩ := hi <;> obtain ⟨t, n, ht, hp⟩ := h.drainStep_progress hfs hc
  · exact ⟨_, exec_drain_of_step h.running ht, hp⟩
  · have hrx : receive rx s = .ok s := (receive_eq_rxSteps rx s).trans (rxSteps_busy (.inr hfs) rx.toList)
    exact ⟨t, (execute_running h.running _).trans (congrArg completed (updateEffect_eq_ok.2 ⟨s, n, hrx, ht⟩)), hp⟩

theorem runInstrs_cons_of_next {i : Instr} {is : List Instr} {s t : State} (h : exec i s = .next t) :
    runInstrs (i :: is) s = runInstrs is t := by
  rw [runInstrs, h]

/-- The response ends within as many operations as there are drain steps left: each of them takes one off. -/
theorem Inv.runInstrs_listens {is : List Instr} {s : State} (h : Inv s) (hfs : s.fs = .sendingResponse)
    (his : ∀ i ∈ is, drainsWithRoom i) (hlen : drainsLeft s ≤ is.length) :
    ∃ k t, k ≤ is.length ∧ runInstrs (is.take k) s = .next t ∧ t.fs = .waitSync ∧ t.act = .none := by
  induction is generalizing s with
  | nil => exact absurd (drainsLeft_pos s) (Nat.not_lt.2 hlen)
  | cons i is ih =>
    obtain ⟨u, hu, hlisten | ⟨hufs, hlt⟩⟩ := h.exec_progress hfs (his i List.mem_cons_self)
    · exact ⟨1, u, by simp, runInstrs_cons_of_next hu, hlisten⟩
    · obtain ⟨k, t, hk, ht, hlisten⟩ := ih (exec_keeps_inv h hu) hufs
        (fun j hj => his j (List.mem_cons_of_mem i hj)) (by rw [List.length_cons] at hlen; omega)
      exact ⟨k + 1, t, Nat.succ_le_succ hk, (runInstrs_cons_of_next hu).trans ht, hlisten⟩

/-! ### What each operation does to the configuration (R292) -/

theorem rxSteps_cfg {bytes : List Byte} {s t : State} (h : rxSteps bytes s = .ok t) : t.cfg = s.cfg :=
  (congrArg State.cfg (rxSteps_rest h) :)

theorem receive_cfg {rx : Option Byte} {s t : State} (h : receive rx s = .ok t) : t.cfg = s.cfg :=
  (congrArg State.cfg (receive_rest h) :)

theorem DrainWrote.cfg {s t : State} {n : Nat} (h : DrainWrote s t n) : t.cfg = s.cfg :=
  (congrArg State.cfg h.rest :)

theorem ResponseWrote.cfg {s t : State} (h : ResponseWrote s t) : t.cfg = s.cfg := (congrArg State.cfg h :)

theorem updateEffect_cfg {rx : Option Byte} {cap : Cap} {s t : State} (h : updateEffect rx cap s = .ok t) :
    t.cfg = s.cfg := by
  obtain ⟨u, n, hu, ht⟩ := updateEffect_eq_ok.1 h
  exact (drainStep_wrote ht).cfg.trans (receive_cfg hu)

theorem drainReturning_cfg {cap : Cap} {s t : State} (h : drainReturning cap s = .ok t) : t.cfg = s.cfg := by
  obtain ⟨u, n, hu, rfl⟩ := drainReturning_eq_ok.1 h
  exact (drainStep_wrote hu).cfg

theorem processAwaiting_cfg {cap : Cap} {s t : State} (h : processAwaiting cap s = .ok t) : t.cfg = s.cfg := by
  obtain ⟨u, n, hu, ht⟩ := processAwaiting_eq_ok.1 h
  exact (drainStep_wrote ht).cfg.trans (dispatchCommand_wrote hu).cfg

theorem classify_cfg {isType : Byte → Bool} {s t : State} (h : classify isType s = .ok t) : t.cfg = s.cfg := by
  obtain ⟨r, rfl⟩ := classify_eq_ok h
  exact returning_cfg r s

theorem whenAwaiting_cfg {s t : State} {e : Except Fault State} (he : e = .ok t → t.cfg = s.cfg)
    (h : whenAwaiting s e = .ok t) : t.cfg = s.cfg :=
  (whenAwaiting_cases h).elim (congrArg State.cfg) fun ⟨_, hok⟩ => he hok

/-- A command row writes what building a response writes. -/
theorem whenAwaiting_response_cfg {s t : State} {e : Except Fault State} (he : e = .ok t → ResponseWrote s t)
    (h : whenAwaiting s e = .ok t) : t.cfg = s.cfg :=
  whenAwaiting_cfg (fun hok => (he hok).cfg) h

/-- No operation that completes writes the configuration. -/
theorem exec_keeps_cfg {i : Instr} {s t : State} (h : exec i s = .next t) : t.cfg = s.cfg := by
  cases i with
  | init => exact exec_init_eq_next h ▸ initialise_cfg s
  | update rx cap => exact updateEffect_cfg (execute_eq_next h).2
  | drain cap => exact drainReturning_cfg (execute_eq_next h).2
  | pktavail => exact Except.ok.inj (execute_eq_next h).2 ▸ returning_cfg _ s
  | isctrl => exact classify_cfg (execute_eq_next h).2
  | isalt => exact classify_cfg (execute_eq_next h).2
  | process cap => exact whenAwaiting_cfg processAwaiting_cfg (execute_eq_next h).2
  | ignore => exact Except.ok.inj (execute_eq_next h).2 ▸ ignorePacket_cfg s
  | enq bytes => exact (congrArg State.cfg (enqueue_wrote (execute_eq_next h).2).1 :)
  | evqempty => exact Except.ok.inj (execute_eq_next h).2 ▸ returning_cfg _ s
  | cmdAssignEid op req => exact whenAwaiting_response_cfg assignEid_wrote (execute_eq_next h).2
  | cmdGetEid => exact whenAwaiting_response_cfg respond_wrote (execute_eq_next h).2
  | cmdGetVersion v => exact whenAwaiting_response_cfg respond_wrote (execute_eq_next h).2
  | cmdGetTypes => exact whenAwaiting_response_cfg respond_wrote (execute_eq_next h).2
  | cmdUnsupported code => exact whenAwaiting_response_cfg respond_wrote (execute_eq_next h).2
  | sof => exact receive_cfg (rx := some 0x7E) (execute_eq_next h).2
  | esc7e => exact rxSteps_cfg (execute_eq_next h).2
  | esc7d => exact rxSteps_cfg (execute_eq_next h).2
  | reservedHostAB a => exact absurd h (executeReserved_ne_next s t)
  | reservedHostCF c => exact absurd h (executeReserved_ne_next s t)

/-! ### The obligations -/

/-- Settles O50: 1044 bounds the drain steps left in every state. -/
theorem drainingEndsTheResponse : Obligations.DrainingEndsTheResponse :=
  fun _ _ h hfs his hlen => h.runInstrs_listens hfs his (h.drainsLeft_le.trans hlen)

/-- Settles O10: a completed operation keeps the configuration, and a stop records its reason only (R276, R277). -/
theorem configurationNeverChanges : Obligations.ConfigurationNeverChanges := by
  intro s i
  cases h : exec i s with
  | next t => exact exec_keeps_cfg h
  | fault f => rfl
  | refused r => rfl

end Sys2Proof.Machine
end
